-- ==== Sys2Proof/Word.lean ====
section
/-! DEFINITION. The widths of the values that travel on the block's ports (00_scope.md R7, 30_encoding.md R70, R71). -/

namespace Sys2Proof

/-- A 16-bit operand, a raw register value or a bundle (R7 `REG_W`, R70). -/
abbrev Word := BitVec 16

/-- A "1-byte register address" (R7 `ADDR_W`). -/
abbrev Addr := BitVec 8

/-- A command word `CMD[55:0]` (R70). -/
abbrev Command := BitVec 56

/-- The result `r = RSP[31:0]` of a response (R71). -/
abbrev Result := BitVec 32

end Sys2Proof
end

