-- ==== Sys2Proof/Syntax.lean ====
section
/-! DEFINITION. The sixteen operations of 30_encoding.md R72, one constructor per row of spec/opcode_table.json. -/

namespace Sys2Proof

/-- An operation with the operands of R72. Exponents, fractionals, raw values, patterns, variant codes and values are the
whole 16-bit operands (R80: "compared over all 16 bits"). `fid`, `lo` and `hi` are numbers (R80), bounded by `Instr.wf`. -/
inductive Instr where
  /-- CONSTRUCT, R101 -/
  | construct (exponent fractional : Word)
  /-- TO_RAW, R102 -/
  | toRaw (exponent fractional : Word)
  /-- FROM_RAW, R103 -/
  | fromRaw (raw : Word)
  /-- CENTILUX, R104 -/
  | centilux (exponent fractional : Word)
  /-- LUX, R105 -/
  | lux (exponent fractional : Word)
  /-- FEXT, R120: the range `lo..=hi` of `raw` -/
  | fext (raw : Word) (lo hi : Nat)
  /-- FINS, R121: `value` into the range `lo..=hi` of `raw` -/
  | fins (raw value : Word) (lo hi : Nat)
  /-- EDEC, R122 -/
  | edec (fid : Nat) (pattern : Word)
  /-- EENC, R123 -/
  | eenc (fid : Nat) (variant : Word)
  /-- RDESC, R140 -/
  | rdesc (addr : Addr)
  /-- FDESC, R141 -/
  | fdesc (fid : Nat) (addr : Addr)
  /-- RDEC, R142 -/
  | rdec (addr : Addr) (raw : Word)
  /-- RENC, R143 -/
  | renc (addr : Addr) (bundle : Word)
  /-- FWR, R144 -/
  | fwr (fid : Nat) (addr : Addr) (base value : Word)
  /-- RRD, R160 -/
  | rrd (addr : Addr)
  /-- RWR, R161 -/
  | rwr (addr : Addr) (value : Word)
  deriving DecidableEq, Repr

end Sys2Proof
end

