-- ==== Sys2Proof/WellFormed.lean ====
section
/-! DEFINITION. Which terms of `Instr` a command word can carry: a field id and a bit number are 4 bits (30_encoding.md R72, R80). -/

namespace Sys2Proof

/-- The bounds of the numbered operands: "`fid` a 4-bit field id, `lo` and `hi` 4-bit bit numbers" (R72). A reversed range
(`lo > hi`) is well formed: a command can carry it, and its meaning refuses it (R120, R121).
DESIGN CHOICE, log 13: an ill-formed term follows the pseudocode all the same. -/
def Instr.wf : Instr → Bool
  | .fext _ lo hi => decide (lo < 16) && decide (hi < 16)
  | .fins _ _ lo hi => decide (lo < 16) && decide (hi < 16)
  | .edec fid _ => decide (fid < 16)
  | .eenc fid _ => decide (fid < 16)
  | .fdesc fid _ => decide (fid < 16)
  | .fwr fid _ _ _ => decide (fid < 16)
  | .construct _ _ => true
  | .toRaw _ _ => true
  | .fromRaw _ => true
  | .centilux _ _ => true
  | .lux _ _ => true
  | .rdesc _ => true
  | .rdec _ _ => true
  | .renc _ _ => true
  | .rrd _ => true
  | .rwr _ _ => true

end Sys2Proof
end

