-- ==== Sys2Proof/Decode.lean ====
section
/-! DEFINITION. Reading a 56-bit command word (30_encoding.md R70, R72, R73, R80), and writing one. -/

namespace Sys2Proof

/-- `cmd.op = CMD[55:48]` (R70). -/
def cmdOp (w : Command) : BitVec 8 := w.extractLsb' 48 8

/-- `cmd.a = CMD[47:32]` (R70). -/
def cmdA (w : Command) : Word := w.extractLsb' 32 16

/-- `cmd.b = CMD[31:16]` (R70). -/
def cmdB (w : Command) : Word := w.extractLsb' 16 16

/-- `cmd.c = CMD[15:0]` (R70). -/
def cmdC (w : Command) : Word := w.extractLsb' 0 16

/-- The command word with the fields op, a, b, c, "from left to right" (R70). -/
def cmdWord (op : BitVec 8) (a b c : Word) : Command := op ++ a ++ b ++ c

/-- Why a command word is no operation: both are refused, and the opcode is looked at first (R73, R176 (1), (2)). -/
inductive DecodeError where
  /-- "Every value of `cmd.op` other than the sixteen of rule R72 (240 values) is reserved" (R73). -/
  | reservedOpcode (op : BitVec 8)
  /-- "every must-be-zero bit that is not zero makes the command REFUSED" (R73). -/
  | mustBeZero (op : BitVec 8)
  deriving DecidableEq, Repr

/-- `addr = cmd.a[7:0]` (R80). -/
def operandAddr (w : Command) : Addr := (cmdA w).extractLsb' 0 8

/-- `fid = cmd.a[11:8]`, for FDESC and FWR (R80). -/
def operandFid (w : Command) : Nat := ((cmdA w).extractLsb' 8 4).toNat

/-- `fid = cmd.a[3:0]`, for EDEC and EENC (R80). -/
def operandEnumFid (w : Command) : Nat := ((cmdA w).extractLsb' 0 4).toNat

/-- `lo = cmd.c[3:0]` (R80). -/
def operandLo (w : Command) : Nat := ((cmdC w).extractLsb' 0 4).toNat

/-- `hi = cmd.c[7:4]` (R80). -/
def operandHi (w : Command) : Nat := ((cmdC w).extractLsb' 4 4).toNat

/-- The must-be-zero check of R73: `i` when every such bit is zero. -/
def whenZero (w : Command) (zero : Bool) (i : Instr) : Except DecodeError Instr :=
  if zero then .ok i else .error (.mustBeZero (cmdOp w))

/-- "a decoder reads eight bits and knows the operation" (R73), then checks the must-be-zero bits of that operation. -/
def decode (w : Command) : Except DecodeError Instr :=
  match (cmdOp w).toNat with
  | 0x10 => whenZero w (cmdC w == 0) (.construct (cmdA w) (cmdB w))
  | 0x11 => whenZero w (cmdC w == 0) (.toRaw (cmdA w) (cmdB w))
  | 0x12 => whenZero w (cmdB w == 0 && cmdC w == 0) (.fromRaw (cmdA w))
  | 0x13 => whenZero w (cmdC w == 0) (.centilux (cmdA w) (cmdB w))
  | 0x14 => whenZero w (cmdC w == 0) (.lux (cmdA w) (cmdB w))
  | 0x20 => whenZero w (cmdB w == 0 && (cmdC w).extractLsb' 8 8 == 0) (.fext (cmdA w) (operandLo w) (operandHi w))
  | 0x21 => whenZero w ((cmdC w).extractLsb' 8 8 == 0) (.fins (cmdA w) (cmdB w) (operandLo w) (operandHi w))
  | 0x22 => whenZero w ((cmdA w).extractLsb' 4 12 == 0 && cmdC w == 0) (.edec (operandEnumFid w) (cmdB w))
  | 0x23 => whenZero w ((cmdA w).extractLsb' 4 12 == 0 && cmdC w == 0) (.eenc (operandEnumFid w) (cmdB w))
  | 0x30 => whenZero w ((cmdA w).extractLsb' 8 8 == 0 && cmdB w == 0 && cmdC w == 0) (.rdesc (operandAddr w))
  | 0x31 => whenZero w ((cmdA w).extractLsb' 12 4 == 0 && cmdB w == 0 && cmdC w == 0) (.fdesc (operandFid w) (operandAddr w))
  | 0x32 => whenZero w ((cmdA w).extractLsb' 8 8 == 0 && cmdC w == 0) (.rdec (operandAddr w) (cmdB w))
  | 0x33 => whenZero w ((cmdA w).extractLsb' 8 8 == 0 && cmdC w == 0) (.renc (operandAddr w) (cmdB w))
  | 0x34 => whenZero w ((cmdA w).extractLsb' 12 4 == 0) (.fwr (operandFid w) (operandAddr w) (cmdB w) (cmdC w))
  | 0x40 => whenZero w ((cmdA w).extractLsb' 8 8 == 0 && cmdB w == 0 && cmdC w == 0) (.rrd (operandAddr w))
  | 0x41 => whenZero w ((cmdA w).extractLsb' 8 8 == 0 && cmdC w == 0) (.rwr (operandAddr w) (cmdB w))
  | _ => .error (.reservedOpcode (cmdOp w))

/-- `{0x00, addr}` (R72). -/
def packAddr (addr : Addr) : Word := 0#8 ++ addr

/-- `{0x0, fid, addr}` (R72). -/
def packFidAddr (fid : Nat) (addr : Addr) : Word := 0#4 ++ BitVec.ofNat 4 fid ++ addr

/-- `{0x000, fid}` (R72). -/
def packFid (fid : Nat) : Word := 0#12 ++ BitVec.ofNat 4 fid

/-- `{0x00, hi, lo}` (R72). -/
def packRange (lo hi : Nat) : Word := 0#8 ++ BitVec.ofNat 4 hi ++ BitVec.ofNat 4 lo

/-- The command word of an operation, from the operand columns of R72. -/
def encode : Instr → Command
  | .construct e f => cmdWord 0x10 e f 0
  | .toRaw e f => cmdWord 0x11 e f 0
  | .fromRaw raw => cmdWord 0x12 raw 0 0
  | .centilux e f => cmdWord 0x13 e f 0
  | .lux e f => cmdWord 0x14 e f 0
  | .fext raw lo hi => cmdWord 0x20 raw 0 (packRange lo hi)
  | .fins raw value lo hi => cmdWord 0x21 raw value (packRange lo hi)
  | .edec fid pattern => cmdWord 0x22 (packFid fid) pattern 0
  | .eenc fid variant => cmdWord 0x23 (packFid fid) variant 0
  | .rdesc addr => cmdWord 0x30 (packAddr addr) 0 0
  | .fdesc fid addr => cmdWord 0x31 (packFidAddr fid addr) 0 0
  | .rdec addr raw => cmdWord 0x32 (packAddr addr) raw 0
  | .renc addr bundle => cmdWord 0x33 (packAddr addr) bundle 0
  | .fwr fid addr base value => cmdWord 0x34 (packFidAddr fid addr) base value
  | .rrd addr => cmdWord 0x40 (packAddr addr) 0 0
  | .rwr addr value => cmdWord 0x41 (packAddr addr) value 0

/-- The instruction the decoder reads from a word numbered as spec/opcode_table.json numbers it. A command is one 56-bit word
(R70), so the table's number is the command word itself. DEDUCED, log 10. -/
def decodeTableWord (nbits w : Nat) : Option Instr :=
  if nbits ≤ 56 ∧ w < 2 ^ nbits then
    match decode (BitVec.ofNat 56 w) with
    | .ok i => some i
    | .error _ => none
  else none

end Sys2Proof
end

