-- ==== Sys2Proof/Config.lean ====
section
/-! DEFINITION. The two behavioural parameters of 00_scope.md R6, and the values the spec leaves free. -/

namespace Sys2Proof

/-- `EXP_XOR_DEC`, "a 4-bit constant in {0x0, 0xF}" (R6, R103): `plain` is 0x0, `inverted` is 0xF. -/
inductive ExpXorDec where
  | plain
  | inverted
  deriving DecidableEq, Repr

/-- The 4-bit mask XORed onto the exponent nibble when a raw value is decoded (R6). -/
def ExpXorDec.mask : ExpXorDec → BitVec 4
  | .plain => 0x0#4
  | .inverted => 0xF#4

/-- `RO_FIELD_POLICY`, what a write to a read-only field of a writable register does (R6, R146). -/
inductive RoFieldPolicy where
  | reject
  | ignore
  deriving DecidableEq, Repr

/-- The implementation's parameters, "fixed before the first command and never changed" (R39). -/
structure Config where
  expXorDec : ExpXorDec
  roFieldPolicy : RoFieldPolicy
  deriving DecidableEq, Repr

/-- The spec's values, 0x0 and REJECT (R6, D5, D16). -/
def Config.spec : Config := { expXorDec := .plain, roFieldPolicy := .reject }

/-- What `BusWrite` answers (20_memory.md R56). -/
inductive WriteAnswer where
  | ok
  | err
  deriving DecidableEq, Repr, Inhabited

/-- FREE VALUE (R55, R57): what `BusRead` answers at the n-th reply the environment's script does not fix. DESIGN CHOICE, log 3. -/
opaque Config.freeRead : Nat → Word

/-- FREE VALUE (R56, R57): what `BusWrite` answers at the n-th reply the environment's script does not fix. DESIGN CHOICE, log 3. -/
opaque Config.freeWrite : Nat → WriteAnswer

/-- FREE VALUE (R111): the digits of a lux value that has a fractional part, "not in the source". DESIGN CHOICE, log 9. -/
opaque Config.luxDigits : Result → List Char

end Sys2Proof
end

