-- ==== Sys2Proof/Machine/State.lean ====
section
/-! DEFINITION. What the machine holds: the block itself holds nothing (10_state.md R20), so State holds the parameters, what
the host has still to issue, what the environment will answer, and the outcome of the run so far (70_reset_and_hazards.md R194). -/

namespace Sys2Proof.Machine

/-- "Status: the 3-bit outcome of a command" (00_scope.md R11; 30_encoding.md R71). -/
inductive Status where
  | ok
  | invalidField
  | accessViolation
  | busError
  | refused
  deriving DecidableEq, Repr

/-- One response: "`status = RSP[34:32]` and `r = RSP[31:0]`" (R71). -/
structure Response where
  status : Status
  r : Result
  deriving DecidableEq, Repr

/-- What the environment does with the next bus transaction, "under no law" (20_memory.md R57): it answers, a read with
`value` and a write with `answer`, or it never answers (R55, 70_reset_and_hazards.md R195). -/
inductive EnvReply where
  | answers (value : Word) (answer : WriteAnswer)
  | silent
  deriving DecidableEq, Repr

/-- One answered bus transaction, "with its address, its value and the environment's answer" (R194). -/
inductive BusEvent where
  | read (addr : Addr) (value : Word)
  | write (addr : Addr) (value : Word) (answer : WriteAnswer)
  deriving DecidableEq, Repr

/-- The machine: host, block and environment together (00_scope.md R12). No field is kept by the block between commands
(R20): no operation's response depends on `responses` or `busLog`. -/
structure State where
  /-- `EXP_XOR_DEC` and `RO_FIELD_POLICY` (R6), log 2. -/
  config : Config
  /-- The command words the host has still to issue, in order (R22, R193), log 1. -/
  program : List Command
  /-- The environment's replies to come, "the answers it will give to each bus transaction in turn" (95_test_vectors.md Part 3), log 3. -/
  script : List EnvReply
  /-- The MODEL'S OWN counter of the free replies drawn once `script` is used up, log 3. -/
  draws : Nat
  /-- The responses given so far, oldest first (R194); the last one stands on the response port (R71, R39), log 5. -/
  responses : List Response
  /-- The bus transactions so far, oldest first (R194), log 5. -/
  busLog : List BusEvent
  deriving DecidableEq, Repr

/-- Why the machine stops. -/
inductive Fault where
  /-- Raised by RRD and RWR, after their checks, when the environment never answers the transaction: "it is stuck, the run is
  not over, and the host waits for ever" (R195). Safe: no next state is claimed. Log 4. -/
  | busSilent
  deriving DecidableEq, Repr

/-- Why an instruction has no meaning in the model. -/
inductive Refusal where
  /-- Raised by an arm of `exec` for an instruction without a meaning. Safe: nothing is claimed of it. No arm raises it now. -/
  | notModelled (mnemonic : String)
  deriving DecidableEq, Repr

/-- The three outcomes of a step of this machine. -/
abbrev Outcome := Host.Outcome State Fault Refusal

/-- Right after reset: no response and no transaction yet (R39, R194), the parameters at the spec's values (R6); the host has
placed no command and the environment no script (DESIGN CHOICE, log 1 and log 3). -/
def State.reset : State where
  config := Config.spec
  program := []
  script := []
  draws := 0
  responses := []
  busLog := []

end Sys2Proof.Machine
end

