-- ==== Sys2Proof/Machine/Flags.lean ====
section
/-! DEFINITION. The block has no flags and no condition codes (10_state.md R23); what an operation reports is the status of its
one response. Here: the status codes, the primitives that build a response, and the 35-bit response word (30_encoding.md R71). -/

namespace Sys2Proof.Machine

/-- "Status codes: 0 OK; 1 INVALID_FIELD; 2 ACCESS_VIOLATION; 3 BUS_ERROR; 4 REFUSED" (R71, R170 to R174). -/
def Status.code : Status → BitVec 3
  | .ok => 0
  | .invalidField => 1
  | .accessViolation => 2
  | .busError => 3
  | .refused => 4

/-- The 35-bit word on the response port (R71). -/
def Response.word (p : Response) : BitVec 35 := p.status.code ++ p.r

/-- `respond(OK, r)` (00_scope.md R10). -/
def Response.ok (r : Result) : Response := ⟨.ok, r⟩

/-- `respond(OK, zext_32(v))` (R10, R71). -/
def Response.okWord (v : Word) : Response := .ok (v.setWidth 32)

/-- `raise InvalidField` (R10, R171). -/
def Response.invalidField : Response := ⟨.invalidField, 0⟩

/-- `raise AccessViolation` (R10, R172). -/
def Response.accessViolation : Response := ⟨.accessViolation, 0⟩

/-- `raise BusError` (R10, R173). -/
def Response.busError : Response := ⟨.busError, 0⟩

/-- `refuse` (R10, R174). -/
def Response.refuse : Response := ⟨.refused, 0⟩

/-- `respond(OK, zext_32(v))` for a value, `refuse` for none. -/
def Response.okOrRefuse : Option Word → Response
  | some v => .okWord v
  | none => .refuse

end Sys2Proof.Machine
end

