-- ==== Sys2Proof/Machine/Ops.lean ====
section
/-! DEFINITION. The shared operations: giving a response, which is all that "taking an exception" is here (60_exceptions.md
R177: "Its whole effect is the response `(status, 0)`"; nothing is saved, so nothing returns, R179), and the two bus primitives
(20_memory.md R55, R56). The bit-range primitives are in Operands.lean. -/

namespace Sys2Proof.Machine

/-- `respond` (00_scope.md R10): the response leaves on the response port, and nothing else changes. -/
def State.respond (s : State) (p : Response) : State :=
  { s with responses := s.responses ++ [p] }

/-- Record an answered transaction in the run's outcome (70_reset_and_hazards.md R194). -/
def State.logBus (s : State) (e : BusEvent) : State :=
  { s with busLog := s.busLog ++ [e] }

/-- The environment's reply to the next transaction, whatever it is (R57). -/
def State.nextReply (s : State) : EnvReply :=
  match s.script with
  | reply :: _ => reply
  | [] => .answers (Config.freeRead s.draws) (Config.freeWrite s.draws)

/-- The state once that reply is used up: the script is one shorter, or one more free reply has been drawn. -/
def State.afterReply (s : State) : State :=
  match s.script with
  | _ :: rest => { s with script := rest }
  | [] => { s with draws := s.draws + 1 }

/-- `BusRead(addr)` (R55): the value read, or none when the environment never answers (R195). -/
def busRead (addr : Addr) (s : State) : Option (Word × State) :=
  match s.nextReply with
  | .answers value _ => some (value, s.afterReply.logBus (.read addr value))
  | .silent => none

/-- `BusWrite(addr, v)` (R56): `ok` or `err`, or none when the environment never answers (R195). -/
def busWrite (addr : Addr) (v : Word) (s : State) : Option (WriteAnswer × State) :=
  match s.nextReply with
  | .answers _ answer => some (answer, s.afterReply.logBus (.write addr v answer))
  | .silent => none

end Sys2Proof.Machine
end

