-- ==== Sys2Proof/Machine/Tables.lean ====
section
/-! DEFINITION. The block's constants: those of 00_scope.md R7 that stand in no other file, and the descriptor and enumeration
tables of 10_state.md R26 to R36. They are "immutable, process-wide constants" (R39), so no part of State. The addresses, bit
positions and masks are the spec's choice, UNVERIFIED against a sensor, log 6. -/

namespace Sys2Proof.Machine

/-- `FRAC_XOR`, the "mask XORed onto the fractional both ways" (R7). -/
def fracXor : BitVec 12 := 0xFFF#12

/-- `CONT_ENC`, the pattern the catch-all variant encodes to (R33, D15; DEDUCED, log 7). -/
def contEnc : Word := 0b10#16

/-- `CFG_RO_MASK`, bits 5 to 8 (R30). -/
def cfgRoMask : Word := 0x01E0#16

/-- The named values of the three enumerations (R32 to R34). -/
inductive Variant where
  | one | two | four | eight
  | shutdown | singleShot | continuous
  | ms100 | ms800
  deriving DecidableEq, Repr

/-- "Variant codes" (R32, R33, R34, D14). -/
def Variant.code : Variant → Word
  | .one => 0
  | .two => 1
  | .four => 2
  | .eight => 3
  | .shutdown => 0
  | .singleShot => 1
  | .continuous => 2
  | .ms100 => 0
  | .ms800 => 1

/-- The catch-all of an enumeration and the pattern it encodes to (R33, R35). It carries no data (R35). -/
structure CatchAll where
  variant : Variant
  encodesTo : Word
  deriving DecidableEq, Repr

/-- "an ordered list of explicit entries (pattern, variant) ... and at most one catch-all variant" (R35). -/
structure EnumDesc where
  entries : List (Word × Variant)
  catchAll : Option CatchAll
  deriving DecidableEq, Repr

/-- `fault_count`: "One=00, Two=01, Four=10, Eight=11" (R32). -/
def faultCountEnum : EnumDesc where
  entries := [(0b00, .one), (0b01, .two), (0b10, .four), (0b11, .eight)]
  catchAll := none

/-- `convertion_mode`: "Shutdown=00, SingleShot=01", catch-all Continuous (R33). -/
def convertionModeEnum : EnumDesc where
  entries := [(0b00, .shutdown), (0b01, .singleShot)]
  catchAll := some { variant := .continuous, encodesTo := contEnc }

/-- `convertion_time`: "Ms100=0, Ms800=1" (R34). -/
def convertionTimeEnum : EnumDesc where
  entries := [(0, .ms100), (1, .ms800)]
  catchAll := none

/-- The variant of a pattern: listed patterns first, the catch-all last (R35, R122). -/
def EnumDesc.variantOf (e : EnumDesc) (pattern : Word) : Option Variant :=
  match e.entries.find? (fun x => x.1 == pattern) with
  | some x => some x.2
  | none => e.catchAll.map CatchAll.variant

/-- The pattern of the variant whose code is `code`, none where no variant has that code (R123). -/
def EnumDesc.patternOf (e : EnumDesc) (code : Word) : Option Word :=
  match e.entries.find? (fun x => x.2.code == code) with
  | some x => some x.1
  | none => (e.catchAll.filter (fun c => c.variant.code == code)).map CatchAll.encodesTo

/-- RO: "host may only read"; RW: "host may read and write" (R27). -/
inductive Access where
  | ro
  | rw
  deriving DecidableEq, Repr

/-- "plain unsigned integer, boolean (single bit), or enumeration" (R25). -/
inductive FieldKind where
  | plain
  | boolean
  | enumeration (e : EnumDesc)
  deriving DecidableEq, Repr

/-- "a name, a range `lo..=hi`, a kind and an access" (R25); `markedRo` is the field mark of R29 to R31. -/
structure FieldDesc where
  name : String
  lo : Nat
  hi : Nat
  kind : FieldKind
  markedRo : Bool
  deriving DecidableEq, Repr

/-- The number of bits of a field (R9, R120). -/
def FieldDesc.width (f : FieldDesc) : Nat := f.hi - f.lo + 1

/-- "there are three, MEAS, CFG and ID" (00_scope.md R11). -/
inductive Layout where
  | meas
  | cfg
  | id
  deriving DecidableEq, Repr

/-- The fields of a layout, in the order of their field ids (R29, R30, R31). -/
def Layout.fields : Layout → List FieldDesc
  | .meas =>
    [ { name := "fractional", lo := 0, hi := 11, kind := .plain, markedRo := false },
      { name := "exponent", lo := 12, hi := 15, kind := .plain, markedRo := false } ]
  | .cfg =>
    [ { name := "fault_count", lo := 0, hi := 1, kind := .enumeration faultCountEnum, markedRo := false },
      { name := "mask", lo := 2, hi := 2, kind := .boolean, markedRo := false },
      { name := "polarity", lo := 3, hi := 3, kind := .boolean, markedRo := false },
      { name := "latch", lo := 4, hi := 4, kind := .boolean, markedRo := false },
      { name := "flag_low", lo := 5, hi := 5, kind := .boolean, markedRo := true },
      { name := "flag_high", lo := 6, hi := 6, kind := .boolean, markedRo := true },
      { name := "conversion_ready", lo := 7, hi := 7, kind := .boolean, markedRo := true },
      { name := "overflow_flag", lo := 8, hi := 8, kind := .boolean, markedRo := true },
      { name := "convertion_mode", lo := 9, hi := 10, kind := .enumeration convertionModeEnum, markedRo := false },
      { name := "convertion_time", lo := 11, hi := 11, kind := .enumeration convertionTimeEnum, markedRo := false },
      { name := "range_number", lo := 12, hi := 15, kind := .plain, markedRo := false } ]
  | .id =>
    [ { name := "id", lo := 0, hi := 15, kind := .plain, markedRo := false } ]

/-- `field(layout, fid)` (00_scope.md R10): "a field's place in that order is its field id" (R25). -/
def Layout.field? (l : Layout) (fid : Nat) : Option FieldDesc := l.fields[fid]?

/-- "a constant record" with address, size, access and fields (R25); `index` is R26's register index. -/
structure RegDesc where
  index : Nat
  name : String
  addr : Addr
  sizeBits : Nat
  access : Access
  layout : Layout
  deriving DecidableEq, Repr

/-- The register descriptor table (R26). -/
def registers : List RegDesc :=
  [ { index := 0, name := "Measurment", addr := 0x00, sizeBits := 16, access := .ro, layout := .meas },
    { index := 1, name := "Configuration", addr := 0x01, sizeBits := 16, access := .rw, layout := .cfg },
    { index := 2, name := "Lowlimit", addr := 0x02, sizeBits := 16, access := .rw, layout := .meas },
    { index := 3, name := "Highlimit", addr := 0x03, sizeBits := 16, access := .rw, layout := .meas },
    { index := 4, name := "ManufacturerID", addr := 0x7E, sizeBits := 16, access := .ro, layout := .id },
    { index := 5, name := "DeviceID", addr := 0x7F, sizeBits := 16, access := .ro, layout := .id } ]

/-- `desc(addr)`: "the row whose address equals `addr`, or `none`" (R26). -/
def desc (addr : Addr) : Option RegDesc := registers.find? (fun d => d.addr == addr)

/-- "RW exactly when the register is RW and the field is not marked RO" (R27). -/
def effectiveAccess (d : RegDesc) (f : FieldDesc) : Access :=
  match d.access with
  | .ro => .ro
  | .rw => if f.markedRo then .ro else .rw

/-- The RO and RW bits of R78 and R79. -/
def Access.code : Access → Nat
  | .ro => 0
  | .rw => 1

/-- "layout (0 MEAS, 1 CFG, 2 ID)" (R78). -/
def Layout.code : Layout → Nat
  | .meas => 0
  | .cfg => 1
  | .id => 2

/-- "kind (0 plain unsigned, 1 boolean, 2 enumeration)" (R79). -/
def FieldKind.code : FieldKind → Nat
  | .plain => 0
  | .boolean => 1
  | .enumeration _ => 2

/-- The descriptor word of RDESC: size at 0, access at 5, layout at 6, index at 8, number of fields at 11 (R78). -/
def RegDesc.descriptorWord (d : RegDesc) : Result :=
  BitVec.ofNat 32
    (d.sizeBits + d.access.code * 2 ^ 5 + d.layout.code * 2 ^ 6 + d.index * 2 ^ 8 + d.layout.fields.length * 2 ^ 11)

/-- The field descriptor word of FDESC: lo at 0, hi at 4, kind at 8, effective access at 10 (R79). -/
def fieldDescriptorWord (d : RegDesc) (f : FieldDesc) : Result :=
  BitVec.ofNat 32 (f.lo + f.hi * 2 ^ 4 + f.kind.code * 2 ^ 8 + (effectiveAccess d f).code * 2 ^ 10)

end Sys2Proof.Machine
end

