-- ==== Sys2Proof/Machine/Bus.lean ====
section
/-! DEFINITION. The bus family: RRD and RWR, "the block's loads and stores" (43_bus.md). -/

namespace Sys2Proof.Machine

/-- RRD: one `BusRead` of a mapped address, its answer given whole; reads are never gated (R160). -/
def execRrd (addr : Addr) (s : State) : Outcome :=
  match desc addr with
  | none => .next (s.respond .refuse)
  | some _ =>
    match busRead addr s with
    | some (v, t) => .next (t.respond (.okWord v))
    | none => .fault .busSilent

/-- The response to the environment's answer to a write (R161). -/
def writeResponse : WriteAnswer → Response
  | .ok => .ok 0
  | .err => .busError

/-- RWR: the register-level gate, then one `BusWrite` of the whole value, unmasked and unchecked (R161). -/
def execRwr (addr : Addr) (value : Word) (s : State) : Outcome :=
  match desc addr with
  | none => .next (s.respond .refuse)
  | some d =>
    match d.access with
    | .ro => .next (s.respond .accessViolation)
    | .rw =>
      match busWrite addr value s with
      | some (answer, t) => .next (t.respond (writeResponse answer))
      | none => .fault .busSilent

end Sys2Proof.Machine
end

