-- ==== Sys2Proof/Machine/Operands.lean ====
section
/-! DEFINITION. The forms an operand or a result takes: bit ranges (00_scope.md R8, R9), the measurement, its raw form and its
bundle (30_encoding.md R74, R76), the bytes of a register (20_memory.md R52). -/

namespace Sys2Proof.Machine

/-- `ones(n)` is `(1 << n) - 1` (R9). -/
def ones (n : Nat) : Nat := 2 ^ n - 1

/-- The bits `lo..=hi` of `raw`, `(raw >> lo) AND ones(w)` with `w = hi - lo + 1` (R120). -/
def extractField (raw : Word) (lo hi : Nat) : Word :=
  (raw >>> lo) &&& BitVec.ofNat 16 (ones (hi - lo + 1))

/-- "16-bit mask of the field", `ones(w) << lo` (R121). -/
def fieldMask (lo hi : Nat) : Word := BitVec.ofNat 16 (ones (hi - lo + 1)) <<< lo

/-- `(raw AND NOT_16 m) OR (v << lo)` (R121). -/
def insertField (raw v : Word) (lo hi : Nat) : Word :=
  (raw &&& ~~~ fieldMask lo hi) ||| (v <<< lo)

/-- Whether a value fits a range, `v <= ones(w)` (R121, R144). -/
def fitsField (v : Word) (lo hi : Nat) : Bool := decide (v.toNat ≤ ones (hi - lo + 1))

/-- `valid(e, f)`: "`e <= 11 and f <= 4095`", over all sixteen bits (R100; `EXP_MAX`, `FRAC_MAX`, R7). -/
abbrev valid (e f : Word) : Prop := e.toNat ≤ 11 ∧ f.toNat ≤ 4095

/-- "the subtype {(e, f) | e <= 11 and f <= 4095}" (10_state.md R24). -/
structure LightMeasurement where
  exponent : BitVec 4
  fractional : BitVec 12
  inRange : exponent.toNat ≤ 11
  deriving DecidableEq, Repr

/-- Validated construction from two 16-bit numbers (R24, R100). -/
def LightMeasurement.construct (e f : Word) : Option LightMeasurement :=
  if h : valid e f then
    some ⟨e.setWidth 4, f.setWidth 12, by
      have := h.1
      simp only [BitVec.toNat_setWidth]
      omega⟩
  else none

/-- The bundle LMV: "`LMV[15:12]` = e and `LMV[11:0]` = f, the numbers themselves with no XOR" (R76). -/
def LightMeasurement.lmv (m : LightMeasurement) : Word := m.exponent ++ m.fractional

/-- The pair an LMV carries, checked (R76, R143). -/
def LightMeasurement.ofLmv (v : Word) : Option LightMeasurement :=
  LightMeasurement.construct (extractField v 12 15) (extractField v 0 11)

/-- Encoding: `raw[15:12] = e`, `raw[11:0] = f XOR 0x0FFF` (R74, R102). -/
def LightMeasurement.toRaw (m : LightMeasurement) : Word := m.exponent ++ (m.fractional ^^^ fracXor)

/-- Decoding: `f = raw[11:0] XOR 0x0FFF`, `e = raw[15:12] XOR EXP_XOR_DEC`, then the range check (R74, R103). -/
def LightMeasurement.fromRaw (x : ExpXorDec) (raw : Word) : Option LightMeasurement :=
  let f : BitVec 12 := raw.extractLsb' 0 12 ^^^ fracXor
  let e : BitVec 4 := raw.extractLsb' 12 4 ^^^ x.mask
  LightMeasurement.construct (e.setWidth 16) (f.setWidth 16)

/-- `(1 << exponent) * fractional`, in 32 bits (R104, R107). -/
def LightMeasurement.centilux (m : LightMeasurement) : Result :=
  BitVec.ofNat 32 ((1 <<< m.exponent.toNat) * m.fractional.toNat)

/-- A register's two bytes, byte 0 first: "byte 0 ... is `value[7:0]` and byte 1 is `value[15:8]`" (R52). -/
def registerBytes (v : Word) : List (BitVec 8) := [v.extractLsb' 0 8, v.extractLsb' 8 8]

/-- `value = byte0 OR (byte1 << 8)` (R52). -/
def registerOfBytes (byte0 byte1 : BitVec 8) : Word := byte0.setWidth 16 ||| (byte1.setWidth 16 <<< 8)

end Sys2Proof.Machine
end

