-- ==== Sys2Proof/Machine/Float.lean ====
section
/-! DEFINITION. Floating point (40_codec.md R106): IEEE 754 binary32, round to nearest, ties to even (`LUX_ROUND`, 00_scope.md R7,
D9; DEDUCED, log 7). "no floating-point exception flag exists". Only the patterns with sign bit 0 are ever formed or read. -/

namespace Sys2Proof.Machine

/-- The natural number nearest to `num / den`, ties to the even one (R106). -/
def roundHalfEven (num den : Nat) : Nat :=
  let q := num / den
  let rest := num % den
  if den < 2 * rest ∨ (2 * rest = den ∧ q % 2 = 1) then q + 1 else q

/-- The value of a pattern with sign bit 0 that is no infinity and no NaN, in units of 2^-149, the smallest subnormal: the
"8 exponent bits biased by 127, 23 fraction bits" of R106, so that every such value is a natural number of units. -/
def f32Units (b : Result) : Nat :=
  let expo := (b.extractLsb' 23 8).toNat
  let frac := (b.extractLsb' 0 23).toNat
  if expo = 0 then frac else (2 ^ 23 + frac) * 2 ^ (expo - 1)

/-- The binary32 pattern nearest to `num / den`, ties to even: the significand keeps 24 bits of the quotient in units of
2^-149, the biased exponent is the number of bits dropped (plus one for a normal number), and a quotient past the largest
finite value gives the infinity. -/
def f32Round (num den : Nat) : Result :=
  let units := num * 2 ^ 149
  let dropped := Nat.log2 (units / den) - 23
  BitVec.ofNat 32 (min (dropped * 2 ^ 23 + roundHalfEven units (den * 2 ^ dropped)) 0x7F800000)

/-- `u32_to_f32(c)` (R105, R106). -/
def u32ToF32 (c : Result) : Result := f32Round c.toNat 1

/-- `f32_div(x, y)`: "the binary32 value nearest to the exact quotient, ties to the even fraction" (R106). -/
def f32Div (x y : Result) : Result := f32Round (f32Units x) (f32Units y)

/-- "100.0 is 0x42C80000, exact" (R106). -/
def f32Hundred : Result := 0x42C80000#32

/-- `f32_div(u32_to_f32(c), 100.0)` of a measurement's centilux (R105). -/
def LightMeasurement.lux (m : LightMeasurement) : Result := f32Div (u32ToF32 m.centilux) f32Hundred

end Sys2Proof.Machine
end

