-- ==== Sys2Proof/Machine/Codec.lean ====
section
/-! DEFINITION. The MeasurementCodec family: CONSTRUCT, TO_RAW, FROM_RAW, CENTILUX, LUX (40_codec.md). -/

namespace Sys2Proof.Machine

/-- The response of a codec operation: `raise InvalidField` where the pair is not valid, else OK with a result computed from
the measurement (R100). -/
def measurementResponse (m : Option LightMeasurement) (result : LightMeasurement → Result) : Response :=
  match m with
  | some m => .ok (result m)
  | none => .invalidField

/-- CONSTRUCT: the LMV of the pair (R101). -/
def execConstruct (exponent fractional : Word) (s : State) : Outcome :=
  .next (s.respond (measurementResponse (LightMeasurement.construct exponent fractional) fun m => m.lmv.setWidth 32))

/-- TO_RAW: the pair packed, the fractional inverted (R102). -/
def execToRaw (exponent fractional : Word) (s : State) : Outcome :=
  .next (s.respond (measurementResponse (LightMeasurement.construct exponent fractional) fun m => m.toRaw.setWidth 32))

/-- The response of FROM_RAW (R103), which RDEC continues as for a MEAS register (42_regmap.md R142). -/
def fromRawResponse (c : Config) (raw : Word) : Response :=
  measurementResponse (LightMeasurement.fromRaw c.expXorDec raw) fun m => m.lmv.setWidth 32

/-- FROM_RAW: the raw value unpacked, then validated (R103). -/
def execFromRaw (raw : Word) (s : State) : Outcome := .next (s.respond (fromRawResponse s.config raw))

/-- CENTILUX (R104). -/
def execCentilux (exponent fractional : Word) (s : State) : Outcome :=
  .next (s.respond (measurementResponse (LightMeasurement.construct exponent fractional) LightMeasurement.centilux))

/-- LUX (R105). -/
def execLux (exponent fractional : Word) (s : State) : Outcome :=
  .next (s.respond (measurementResponse (LightMeasurement.construct exponent fractional) LightMeasurement.lux))

end Sys2Proof.Machine
end

