-- ==== Sys2Proof/Machine/Fields.lean ====
section
/-! DEFINITION. The field family: FEXT, FINS, EDEC, EENC (41_fields.md). None reads a parameter or touches the bus (R126). -/

namespace Sys2Proof.Machine

/-- The response of FEXT: a reversed range is refused (R120). -/
def extractResponse (raw : Word) (lo hi : Nat) : Response :=
  if hi < lo then .refuse else .okWord (extractField raw lo hi)

/-- FEXT (R120). -/
def execFext (raw : Word) (lo hi : Nat) (s : State) : Outcome := .next (s.respond (extractResponse raw lo hi))

/-- A value put into a range, refused where it does not fit: "never cut down" (R121; R144 ends the same way). -/
def insertResponse (raw v : Word) (lo hi : Nat) : Response :=
  if fitsField v lo hi then .okWord (insertField raw v lo hi) else .refuse

/-- FINS: a reversed range is refused before the value is looked at (R121, R176 (5)). -/
def execFins (raw value : Word) (lo hi : Nat) (s : State) : Outcome :=
  .next (s.respond (if hi < lo then .refuse else insertResponse raw value lo hi))

/-- The enumerated field of layout CFG with that id, and its enumeration; none for any other field id (R80, R122). -/
def enumField? (fid : Nat) : Option (FieldDesc × EnumDesc) :=
  match Layout.cfg.field? fid with
  | some f =>
    match f.kind with
    | .enumeration e => some (f, e)
    | .plain => none
    | .boolean => none
  | none => none

/-- `EDEC(fid, p)`: the code of the pattern's variant, none where the command is refused (R122). -/
def enumDecode (fid : Nat) (p : Word) : Option Word :=
  match enumField? fid with
  | some (f, e) => if fitsField p f.lo f.hi then (e.variantOf p).map Variant.code else none
  | none => none

/-- EDEC (R122). -/
def execEdec (fid : Nat) (pattern : Word) (s : State) : Outcome :=
  .next (s.respond (.okOrRefuse (enumDecode fid pattern)))

/-- `EENC(fid, k)`: the pattern of the variant with that code, none where the command is refused (R123). -/
def enumEncode (fid : Nat) (k : Word) : Option Word :=
  match enumField? fid with
  | some (_, e) => e.patternOf k
  | none => none

/-- EENC (R123). -/
def execEenc (fid : Nat) (variant : Word) (s : State) : Outcome :=
  .next (s.respond (.okOrRefuse (enumEncode fid variant)))

end Sys2Proof.Machine
end

