-- ==== Sys2Proof/Machine/RegisterMap.lean ====
section
/-! DEFINITION. The RegisterMap family: RDESC, FDESC, RDEC, RENC, FWR, with the write gates (42_regmap.md R140 to R147). -/

namespace Sys2Proof.Machine

/-- `d = desc(addr)`; "if d is none then refuse" (R140 to R144, R51). -/
def onRegister (addr : Addr) (k : RegDesc → Response) : Response :=
  match desc addr with
  | some d => k d
  | none => .refuse

/-- The register-level write gate: "a mapped register whose access is RO raises AccessViolation ... before it looks at the
payload" (R145). -/
def onWritable (d : RegDesc) (k : Response) : Response :=
  match d.access with
  | .ro => .accessViolation
  | .rw => k

/-- RDESC (R140). -/
def execRdesc (addr : Addr) (s : State) : Outcome :=
  .next (s.respond (onRegister addr fun d => .ok d.descriptorWord))

/-- The response of FDESC (R141). -/
def fieldDescriptorResponse (fid : Nat) (addr : Addr) : Response :=
  onRegister addr fun d =>
    match d.layout.field? fid with
    | some f => .ok (fieldDescriptorWord d f)
    | none => .refuse

/-- FDESC (R141). -/
def execFdesc (fid : Nat) (addr : Addr) (s : State) : Outcome := .next (s.respond (fieldDescriptorResponse fid addr))

/-- The CFG case of RDEC: fields 0, 8 and 9 resolved, every other bit its own (R142). None never happens: "decoding never
fails for well-formed raw input". -/
def decodeConfiguration (raw : Word) : Option Word := do
  let faultCount ← enumDecode 0 (extractField raw 0 1)
  let mode ← enumDecode 8 (extractField raw 9 10)
  let time ← enumDecode 9 (extractField raw 11 11)
  return insertField (insertField (insertField raw faultCount 0 1) mode 9 10) time 11 11

/-- The response of RDEC, by the register's layout (R142). -/
def decodeRegisterResponse (c : Config) (addr : Addr) (raw : Word) : Response :=
  onRegister addr fun d =>
    match d.layout with
    | .meas => fromRawResponse c raw
    | .cfg => .okOrRefuse (decodeConfiguration raw)
    | .id => .okWord raw

/-- RDEC (R142). Reads are never gated (R145). -/
def execRdec (addr : Addr) (raw : Word) (s : State) : Outcome :=
  .next (s.respond (decodeRegisterResponse s.config addr raw))

/-- "a single generic encode/decode routine [that] interprets any descriptor by bit-range masking": one field extracted,
resolved if it is enumerated, and placed in the bundle (R142, 41_fields.md). RDEC's own case is the spec's simplification. -/
def decodeFieldInto (raw : Word) (bundle : Option Word) (f : FieldDesc) : Option Word := do
  let v ← bundle
  let pattern := extractField raw f.lo f.hi
  match f.kind with
  | .plain => return insertField v pattern f.lo f.hi
  | .boolean => return insertField v pattern f.lo f.hi
  | .enumeration e => do
    let variant ← e.variantOf pattern
    return insertField v variant.code f.lo f.hi

/-- The generic decoding of a raw value by a layout: "each field is extracted by its range (FEXT), an enumerated field is
resolved (EDEC), and the results are placed in the CFGV" (R142). -/
def decodeByLayout (l : Layout) (raw : Word) : Option Word := l.fields.foldl (decodeFieldInto raw) (some 0)

/-- The CFG case of RENC after the field gate: the code 3 at 10:9 names no variant and is refused (R143). -/
def encodeConfiguration (v : Word) : Option Word := do
  let faultCount ← enumEncode 0 (extractField v 0 1)
  let mode ← enumEncode 8 (extractField v 9 10)
  let time ← enumEncode 9 (extractField v 11 11)
  return insertField (insertField (insertField v faultCount 0 1) mode 9 10) time 11 11

/-- The field-level write gate of RENC: an RO field is attempted when its bits in the bundle are not all zero (R146, R147). -/
def encodeConfigurationResponse (c : Config) (v : Word) : Response :=
  if v &&& cfgRoMask = 0 then .okOrRefuse (encodeConfiguration v)
  else
    match c.roFieldPolicy with
    | .reject => .accessViolation
    | .ignore => .okOrRefuse (encodeConfiguration (v &&& ~~~ cfgRoMask))

/-- The response of RENC (R143). Its ID case is unreachable: "both ID registers are RO". -/
def encodeRegisterResponse (c : Config) (addr : Addr) (bundle : Word) : Response :=
  onRegister addr fun d =>
    onWritable d
      (match d.layout with
        | .meas => measurementResponse (LightMeasurement.ofLmv bundle) fun m => m.toRaw.setWidth 32
        | .cfg => encodeConfigurationResponse c bundle
        | .id => .refuse)

/-- RENC (R143). -/
def execRenc (addr : Addr) (bundle : Word) (s : State) : Outcome :=
  .next (s.respond (encodeRegisterResponse s.config addr bundle))

/-- The field-level write gate of FWR: naming an RO field is the attempt, "zero included"; IGNORE leaves the base (R144, R146, R147). -/
def writeFieldResponse (c : Config) (fid : Nat) (addr : Addr) (base value : Word) : Response :=
  onRegister addr fun d =>
    onWritable d
      (match d.layout.field? fid with
        | none => .refuse
        | some f =>
          if f.markedRo then
            match c.roFieldPolicy with
            | .reject => .accessViolation
            | .ignore => .okWord base
          else insertResponse base value f.lo f.hi)

/-- FWR (R144). -/
def execFwr (fid : Nat) (addr : Addr) (base value : Word) (s : State) : Outcome :=
  .next (s.respond (writeFieldResponse s.config fid addr base value))

end Sys2Proof.Machine
end

