-- ==== Sys2Proof/Machine/Dispatch.lean ====
section
/-! DEFINITION. One arm per operation of 30_encoding.md R72, in the table's order; each a direct call of its meaning. -/

namespace Sys2Proof.Machine

def exec (i : Instr) (s : State) : Host.Outcome State Fault Refusal :=
  match i with
  | .construct e f => Sys2Proof.Machine.execConstruct e f s
  | .toRaw e f => Sys2Proof.Machine.execToRaw e f s
  | .fromRaw raw => Sys2Proof.Machine.execFromRaw raw s
  | .centilux e f => Sys2Proof.Machine.execCentilux e f s
  | .lux e f => Sys2Proof.Machine.execLux e f s
  | .fext raw lo hi => Sys2Proof.Machine.execFext raw lo hi s
  | .fins raw v lo hi => Sys2Proof.Machine.execFins raw v lo hi s
  | .edec fid pattern => Sys2Proof.Machine.execEdec fid pattern s
  | .eenc fid variant => Sys2Proof.Machine.execEenc fid variant s
  | .rdesc addr => Sys2Proof.Machine.execRdesc addr s
  | .fdesc fid addr => Sys2Proof.Machine.execFdesc fid addr s
  | .rdec addr raw => Sys2Proof.Machine.execRdec addr raw s
  | .renc addr bundle => Sys2Proof.Machine.execRenc addr bundle s
  | .fwr fid addr base v => Sys2Proof.Machine.execFwr fid addr base v s
  | .rrd addr => Sys2Proof.Machine.execRrd addr s
  | .rwr addr v => Sys2Proof.Machine.execRwr addr v s

end Sys2Proof.Machine
end

