-- ==== Sys2Proof/Machine/Command.lean ====
section
/-! DEFINITION. One command in the block: decoded and executed, or refused (70_reset_and_hazards.md R193, 30_encoding.md R73). -/

namespace Sys2Proof.Machine

/-- What the block does with a command word: a word that is no operation is REFUSED, "`r` = 0, no bus transaction" (R73). -/
def runCommand (w : Command) (s : State) : Outcome :=
  match decode w with
  | .ok i => exec i s
  | .error _ => .next (s.respond .refuse)

/-- The command the host issues next, with the state in which it has been issued (R22, R193); none when the host has none. -/
def nextCommand (s : State) : Option (Command × State) :=
  match s.program with
  | [] => none
  | w :: rest => some (w, { s with program := rest })

/-- The host places one command before those it has still to issue: "any 56-bit word, in any order" (R193). Log 1. -/
def State.place (s : State) (w : Command) : State := { s with program := w :: s.program }

end Sys2Proof.Machine
end

