-- ==== Sys2Proof/Machine/Step.lean ====
section
/-! DEFINITION. One step: the host issues its next command and the block answers it (70_reset_and_hazards.md R193, R197). -/

namespace Sys2Proof.Machine

/-- "each command is one indivisible step of the block" (R197). While the host issues no command the block does nothing
(R162: "never ... on its own initiative"; DESIGN CHOICE, log 1). -/
def step (s : State) : Host.Outcome State Fault Refusal :=
  match nextCommand s with
  | some (w, t) => runCommand w t
  | none => .next s

/-- The state in which the very next command is the opcode table's word `w`: the one 56-bit command format needs no more than
that (R70). Log 10. -/
def State.withFetchWord (s : State) (_nbits w : Nat) : State := s.place (BitVec.ofNat 56 w)

end Sys2Proof.Machine
end

