-- ==== Sys2Proof/Machine/Pseudo.lean ====
section
/-! DEFINITION. The host's pseudo-operations (30_encoding.md R82): "each a fixed list of commands that the host issues in order,
stopping at the first response whose status is not OK". "These are the host's, not the block's". -/

namespace Sys2Proof.Machine

/-- The four pseudo-operations with their operands (R82). -/
inductive Pseudo where
  /-- RDLM: "read a register and decode it" -/
  | rdlm (addr : Addr)
  /-- WRLM: "encode a measurement and write it" -/
  | wrlm (addr : Addr) (exponent fractional : Word)
  /-- SETF: "change one field; not atomic" -/
  | setf (fid : Nat) (addr : Addr) (value : Word)
  /-- RTRIP: "the round trip" -/
  | rtrip (exponent fractional : Word)
  deriving DecidableEq, Repr

/-- "`$` stands for `r[15:0]` of the previous response" (R81). -/
def Response.dollar (p : Response) : Word := p.r.setWidth 16

/-- What stands on the response port: the last response, none "before the first response" (10_state.md R39). -/
def State.lastResponse (s : State) : Option Response := s.responses.getLast?

/-- The commands a pseudo-operation stands for, each given the `$` of the response before it (R82). -/
def Pseudo.commands : Pseudo → List (Word → Instr)
  | .rdlm addr => [fun _ => .rrd addr, fun d => .rdec addr d]
  | .wrlm addr e f => [fun _ => .toRaw e f, fun d => .rwr addr d]
  | .setf fid addr value => [fun _ => .rrd addr, fun d => .fwr fid addr d value, fun d => .rwr addr d]
  | .rtrip e f => [fun _ => .toRaw e f, fun d => .fromRaw d]

/-- The host issues the commands one at a time, each after the response to the one before, and stops at the first status that
is not OK (R82, 70_reset_and_hazards.md R193, R194). Each command goes before whatever the host has still to issue (DESIGN CHOICE, log 14). -/
def issueAll : List (Word → Instr) → Word → State → Outcome
  | [], _, s => .next s
  | c :: rest, dollar, s =>
    match step (s.place (encode (c dollar))) with
    | .next t =>
      match t.lastResponse with
      | some p => if p.status = .ok then issueAll rest p.dollar t else .next t
      | none => .next t
    | .fault r => .fault r
    | .refused r => .refused r

/-- A pseudo-operation run from a state. Its first command uses no `$`. -/
def Pseudo.run (p : Pseudo) (s : State) : Outcome := issueAll p.commands 0 s

end Sys2Proof.Machine
end

