-- ==== Sys2Proof/Machine/Assembler.lean ====
section
/-! DEFINITION. The written form of a command (30_encoding.md R81): "the mnemonic, then its operands separated by commas, in the
order a, b, c of rule R72 with the must-be-zero operands left out". What R81 does not say is log 8. -/

namespace Sys2Proof.Machine

/-- The value of a digit, none where it is no digit of that base. -/
def digitValue (base : Nat) (c : Char) : Option Nat :=
  let n := c.toNat
  let v :=
    if 48 ≤ n ∧ n ≤ 57 then n - 48
    else if 65 ≤ n ∧ n ≤ 70 then n - 55
    else if 97 ≤ n ∧ n ≤ 102 then n - 87
    else 16
  if v < base then some v else none

/-- A nonempty run of digits. -/
def readDigits (base : Nat) : List Char → Option Nat
  | [] => none
  | cs => cs.foldlM (fun n c => (digitValue base c).map (n * base + ·)) 0

/-- "Numbers are decimal, `0x` hexadecimal or `0b` binary" (R81). -/
def readNumber : List Char → Option Nat
  | '0' :: 'x' :: cs => readDigits 16 cs
  | '0' :: 'b' :: cs => readDigits 2 cs
  | cs => readDigits 10 cs

/-- The text before and after the first occurrence of `sep`. -/
def splitFirst (sep : List Char) : List Char → Option (List Char × List Char)
  | [] => none
  | c :: cs =>
    if sep.isPrefixOf (c :: cs) then some ([], (c :: cs).drop sep.length)
    else (splitFirst sep cs).map fun (l, r) => (c :: l, r)

/-- The pieces of a text between commas. -/
def splitCommas : List Char → List (List Char)
  | [] => [[]]
  | c :: cs =>
    match splitCommas cs with
    | [] => [[c]]
    | piece :: more => if c = ',' then [] :: piece :: more else (c :: piece) :: more

/-- A text without the spaces at its two ends. -/
def trimSpaces (cs : List Char) : List Char :=
  ((cs.dropWhile (· == ' ')).reverse.dropWhile (· == ' ')).reverse

/-- The names of the variants (10_state.md R32 to R34). -/
def variantNames : List (String × Variant) :=
  [("One", .one), ("Two", .two), ("Four", .four), ("Eight", .eight), ("Shutdown", .shutdown),
    ("SingleShot", .singleShot), ("Continuous", .continuous), ("Ms100", .ms100), ("Ms800", .ms800)]

/-- "An address may be written as its register name" (R81). -/
def registerNamed (cs : List Char) : Option RegDesc := registers.find? fun d => d.name.toList == cs

/-- The field id of a layout's field with that name (R81). -/
def fieldNamed (l : Layout) (cs : List Char) : Option Nat := l.fields.findIdx? fun f => f.name.toList == cs

/-- "`Register.field` ... assembles to `{0x0, fid, addr}`" (R81). -/
def readRegisterField (register field : List Char) : Option Nat := do
  let d ← registerNamed register
  let fid ← fieldNamed d.layout field
  return fid * 2 ^ 8 + d.addr.toNat

/-- "`lo..=hi` ... assembles to `{0x00, hi, lo}`" (R81). -/
def readRange (low high : List Char) : Option Nat := do
  let lo ← readNumber low
  let hi ← readNumber high
  if lo < 16 ∧ hi < 16 then return hi * 2 ^ 4 + lo else none

/-- A name alone: a register's address, a Configuration field's id (EDEC, EENC), or a variant's code (R81). -/
def readName (cs : List Char) : Option Nat :=
  match registerNamed cs, fieldNamed .cfg cs, variantNames.find? (fun x => x.1.toList == cs) with
  | some d, _, _ => some d.addr.toNat
  | none, some fid, _ => some fid
  | none, none, some x => some x.2.code.toNat
  | none, none, none => none

/-- An operand as written, with `$` "`r[15:0]` of the previous response" (R81); at most 16 bits wide (R70). -/
def readOperand (dollar : Word) (cs : List Char) : Option Word := do
  let n ←
    if cs = ['$'] then some dollar.toNat
    else
      match splitFirst "..=".toList cs, splitFirst ".".toList cs with
      | some (low, high), _ => readRange low high
      | none, some (register, field) => readRegisterField register field
      | none, none => (readNumber cs).orElse fun _ => readName cs
  if n < 2 ^ 16 then return BitVec.ofNat 16 n else none

/-- Where the written operands of an operation go: which of a, b, c are not must-be-zero (R72). -/
inductive Slots where
  | a
  | ab
  | ac
  | abc
  deriving DecidableEq, Repr

/-- The mnemonics, opcodes and operand columns of R72. -/
def mnemonicTable : List (String × BitVec 8 × Slots) :=
  [("CONSTRUCT", 0x10, .ab), ("TO_RAW", 0x11, .ab), ("FROM_RAW", 0x12, .a), ("CENTILUX", 0x13, .ab), ("LUX", 0x14, .ab),
    ("FEXT", 0x20, .ac), ("FINS", 0x21, .abc), ("EDEC", 0x22, .ab), ("EENC", 0x23, .ab),
    ("RDESC", 0x30, .a), ("FDESC", 0x31, .a), ("RDEC", 0x32, .ab), ("RENC", 0x33, .ab), ("FWR", 0x34, .abc),
    ("RRD", 0x40, .a), ("RWR", 0x41, .ab)]

/-- The command word with the operands in their places, none where there are too many or too few (R72, R81). -/
def placeOperands (op : BitVec 8) : Slots → List Word → Option Command
  | .a, [a] => some (cmdWord op a 0 0)
  | .ab, [a, b] => some (cmdWord op a b 0)
  | .ac, [a, c] => some (cmdWord op a 0 c)
  | .abc, [a, b, c] => some (cmdWord op a b c)
  | _, _ => none

/-- The mnemonic and the operands of a written line (R81). -/
def readLine (dollar : Word) (line : List Char) : Option (List Char × List Word) := do
  let (mnemonic, operands) ← splitFirst [' '] (trimSpaces line)
  let values ← (splitCommas operands).mapM fun cs => readOperand dollar (trimSpaces cs)
  return (mnemonic, values)

/-- The command word of a written command, given the `$` of the previous response (R81). -/
def assemble (dollar : Word) (line : List Char) : Option Command := do
  let (mnemonic, values) ← readLine dollar line
  let (_, op, slots) ← mnemonicTable.find? fun row => row.1.toList == mnemonic
  placeOperands op slots values

/-- A written pseudo-operation (R82), its operands in the order R82 gives. DESIGN CHOICE, log 8: a line whose address operand
sets a bit above the address (above the field id, for SETF) is unreadable, since a pseudo-operation takes an address and not a
whole `cmd.a`; and SETF's first operand may be any form of `{0x0, fid, addr}`. -/
def assemblePseudo (dollar : Word) (line : List Char) : Option Pseudo := do
  let (mnemonic, values) ← readLine dollar line
  match values with
  | [a] => if mnemonic = "RDLM".toList ∧ a.extractLsb' 8 8 = 0 then some (.rdlm (a.extractLsb' 0 8)) else none
  | [a, b] =>
    if mnemonic = "RTRIP".toList then some (.rtrip a b)
    else if mnemonic = "SETF".toList ∧ a.extractLsb' 12 4 = 0 then
      some (.setf (a.extractLsb' 8 4).toNat (a.extractLsb' 0 8) b)
    else none
  | [a, b, c] => if mnemonic = "WRLM".toList ∧ a.extractLsb' 8 8 = 0 then some (.wrlm (a.extractLsb' 0 8) b c) else none
  | _ => none

end Sys2Proof.Machine
end

