-- ==== Sys2Proof/Machine/Render.lean ====
section
/-! DEFINITION. The two renderings of a measurement as text, "host software, outside the block" (40_codec.md R110, R111). -/

namespace Sys2Proof.Machine

/-- The compact ("alternate") rendering: "the decimal digits of its centilux, a space, and the word `lux`" (R110). -/
def LightMeasurement.renderCompact (m : LightMeasurement) : List Char :=
  Nat.toDigits 10 m.centilux.toNat ++ " lux".toList

/-- The default rendering: the lux value, a space, and the word `lux`. A lux value with no fractional part (centilux a multiple
of 100) has no decimal point; the digits of any other are a free value (R111, log 9). -/
def LightMeasurement.renderDefault (m : LightMeasurement) : List Char :=
  (if m.centilux.toNat % 100 = 0 then Nat.toDigits 10 (m.centilux.toNat / 100) else Config.luxDigits m.lux)
    ++ " lux".toList

end Sys2Proof.Machine
end

