-- ==== Sys2Proof/Safety.lean ====
section
/-! DEFINITION. The terms the statements use: what the tables must satisfy (10_state.md R28, R35), which responses and bus
transactions a run may show (30_encoding.md R71, 43_bus.md R162), and the machine's invariant. -/

namespace Sys2Proof.Machine

/-- Bit `i` belongs to the field (00_scope.md R8: inclusive at both ends). -/
def FieldDesc.covers (f : FieldDesc) (i : Nat) : Bool := decide (f.lo ≤ i) && decide (i ≤ f.hi)

/-- One field of R28: "`0 <= lo <= hi <= 15`"; "a boolean field has `lo == hi`". -/
def FieldDesc.wellFormed (f : FieldDesc) : Bool :=
  decide (f.lo ≤ f.hi) && decide (f.hi ≤ 15) && (decide (f.kind ≠ .boolean) || decide (f.lo = f.hi))

/-- R28 for a layout: every field well formed, and "each bit belongs to exactly one field". -/
def Layout.tiles (l : Layout) : Bool :=
  l.fields.all FieldDesc.wellFormed && (List.range 16).all fun i => l.fields.countP (·.covers i) == 1

/-- R35 for an enumeration of `width` bits: patterns of that width, "no pattern listed twice", and every pattern of that width
either listed or absorbed by a catch-all. -/
def EnumDesc.wellFormed (e : EnumDesc) (width : Nat) : Bool :=
  e.entries.all (fun x => decide (x.1.toNat < 2 ^ width)) && decide (e.entries.map Prod.fst).Nodup
    && (e.catchAll.isSome || e.entries.length == 2 ^ width)

/-- "An address is mapped when `desc(addr)` is a row" (R26). -/
def mapped (addr : Addr) : Bool := (desc addr).isSome

/-- A mapped register whose access is RW (R27). -/
def writable (addr : Addr) : Bool := (desc addr).any fun d => d.access == .rw

/-- "When the status is not OK, `r` is 0" (R71). -/
def Response.wf (p : Response) : Bool := decide (p.status = .ok) || decide (p.r = 0)

/-- "only with a mapped address, and never with a write to an RO register" (R162). -/
def BusEvent.legal : BusEvent → Bool
  | .read addr _ => mapped addr
  | .write addr _ _ => writable addr

/-- RRD and RWR, the two operations that may start a bus transaction (R162). -/
def touchesBus : Instr → Bool
  | .rrd _ => true
  | .rwr _ _ => true
  | .construct _ _ => false
  | .toRaw _ _ => false
  | .fromRaw _ => false
  | .centilux _ _ => false
  | .lux _ _ => false
  | .fext _ _ _ => false
  | .fins _ _ _ _ => false
  | .edec _ _ => false
  | .eenc _ _ => false
  | .rdesc _ => false
  | .fdesc _ _ => false
  | .rdec _ _ => false
  | .renc _ _ => false
  | .fwr _ _ _ _ => false

/-- What every reachable state satisfies: responses carry 0 unless OK (R71), transactions are legal (R162), and there is at
most one transaction per command (R58). -/
def State.Inv (s : State) : Prop :=
  (∀ p ∈ s.responses, p.wf = true) ∧ (∀ e ∈ s.busLog, e.legal = true) ∧ s.busLog.length ≤ s.responses.length

end Sys2Proof.Machine
end

