-- ==== Sys2Proof/Certificates/Slice0/Obligations.lean ====
section
/-! DEFINITION. The statements for the provers. The answers expected of the operations are written here a second time, from the
rules of spec/ alone and in another form than the meanings' (arithmetic for bit slices, literal tables for table lookups). -/

open Sys2Proof Sys2Proof.Machine

/-! ## What the rules expect, written without the model's operations -/

namespace Sys2Proof.Claims

/-- How the block reads a command with opcode `op` (R70, R72, R73): REFUSED if some must-be-zero bit is set, else the
operation `i` on the command's operands. -/
def ReadsCommand (op : BitVec 8) (someSet : Command → Prop) (i : Command → Instr) : Prop :=
  ∀ (s : State) (w : Command) (rest : List Command), s.program = w :: rest → w.extractLsb' 48 8 = op →
    (someSet w →
      step s = .next { s with program := rest, responses := s.responses ++ [⟨.refused, 0⟩] }) ∧
    (¬ someSet w → step s = exec (i w) { s with program := rest })

/-- An operation that only answers: in every state with these parameters, `i` gives the response `p` and changes nothing else. -/
def Gives (c : Config) (i : Instr) (p : Response) : Prop :=
  ∀ s : State, s.config = c → exec i s = .next { s with responses := s.responses ++ [p] }

/-- An outcome that is a next state reached by exactly one bus transaction `e` and the response `p`: nothing else of what the
block or the host holds changes (R55, R56, R58, R194). -/
def Transacts (s : State) (e : BusEvent) (p : Response) (o : Host.Outcome State Fault Refusal) : Prop :=
  ∃ t : State, o = .next t ∧ t.responses = s.responses ++ [p] ∧ t.busLog = s.busLog ++ [e] ∧
    t.program = s.program ∧ t.config = s.config

/-- `(OK, n)`. -/
def okNat (n : Nat) : Response := ⟨.ok, BitVec.ofNat 32 n⟩

/-- The status REFUSED with `r` = 0. -/
def refused : Response := ⟨.refused, 0⟩

/-- The status INVALID_FIELD with `r` = 0. -/
def invalid : Response := ⟨.invalidField, 0⟩

/-- The status ACCESS_VIOLATION with `r` = 0. -/
def violation : Response := ⟨.accessViolation, 0⟩

/-- A validated pair's answer (R100). -/
def pairAnswer (e f : Word) (result : Nat) : Response :=
  if e.toNat ≤ 11 ∧ f.toNat ≤ 4095 then okNat result else invalid

/-- The exponent FROM_RAW decodes: the nibble, or 15 minus it (R103). -/
def decodedExponent (x : ExpXorDec) (raw : Word) : Nat :=
  match x with
  | .plain => raw.toNat / 4096
  | .inverted => 15 - raw.toNat / 4096

/-- FROM_RAW's answer (R103): `0x0FFF` XOR a 12-bit number is 4095 minus it. -/
def fromRawAnswer (x : ExpXorDec) (raw : Word) : Response :=
  if decodedExponent x raw ≤ 11 then okNat (decodedExponent x raw * 4096 + (4095 - raw.toNat % 4096)) else invalid

/-- The mapped addresses (R26, R51). -/
def mappedAddrs : List Addr := [0x00, 0x01, 0x02, 0x03, 0x7E, 0x7F]

/-- The registers whose access is RO (R27, R145). -/
def readOnlyAddrs : List Addr := [0x00, 0x7E, 0x7F]

/-- The registers the gate lets through (R145). -/
def writableAddrs : List Addr := [0x01, 0x02, 0x03]

/-- R122 "Results in full". -/
def edecAnswer (fid : Nat) (p : Word) : Response :=
  if fid = 0 then (if p.toNat ≤ 3 then okNat p.toNat else refused)
  else if fid = 8 then (if p.toNat ≤ 1 then okNat p.toNat else if p.toNat ≤ 3 then okNat 2 else refused)
  else if fid = 9 then (if p.toNat ≤ 1 then okNat p.toNat else refused)
  else refused

/-- R123 "Results in full". -/
def eencAnswer (fid : Nat) (k : Word) : Response :=
  if fid = 0 then (if k.toNat ≤ 3 then okNat k.toNat else refused)
  else if fid = 8 then (if k.toNat ≤ 2 then okNat k.toNat else refused)
  else if fid = 9 then (if k.toNat ≤ 1 then okNat k.toNat else refused)
  else refused

/-- R140 "The six results". -/
def rdescAnswer (addr : Addr) : Response :=
  if addr = 0x00 then okNat 0x1010
  else if addr = 0x01 then okNat 0x5970
  else if addr = 0x02 then okNat 0x1230
  else if addr = 0x03 then okNat 0x1330
  else if addr = 0x7E then okNat 0x0C90
  else if addr = 0x7F then okNat 0x0D90
  else refused

/-- R141 "The results in full", the list of each register's field descriptor words. -/
def fieldWords (addr : Addr) : List Nat :=
  if addr = 0x00 then [0x00B0, 0x00FC]
  else if addr = 0x01 then
    [0x0610, 0x0522, 0x0533, 0x0544, 0x0155, 0x0166, 0x0177, 0x0188, 0x06A9, 0x06BB, 0x04FC]
  else if addr = 0x02 then [0x04B0, 0x04FC]
  else if addr = 0x03 then [0x04B0, 0x04FC]
  else if addr = 0x7E then [0x00F0]
  else if addr = 0x7F then [0x00F0]
  else []

/-- R141: a word where the register has that field. -/
def fdescAnswer (fid : Nat) (addr : Addr) : Response :=
  match (fieldWords addr)[fid]? with
  | some w => okNat w
  | none => refused

/-- R142, by register: the codec's answer, the raw value with bits 10:9 = 0b11 made 0b10, or the raw value. -/
def rdecAnswer (x : ExpXorDec) (addr : Addr) (raw : Word) : Response :=
  if addr = 0x00 ∨ addr = 0x02 ∨ addr = 0x03 then fromRawAnswer x raw
  else if addr = 0x01 then
    okNat (if raw.toNat / 512 % 4 = 3 then raw.toNat - 512 else raw.toNat)
  else if addr = 0x7E ∨ addr = 0x7F then okNat raw.toNat
  else refused

/-- R143 for `Configuration` once the flag bits of the bundle are clear. -/
def cfgvAnswer (v : Word) : Response := if v.toNat / 512 % 4 = 3 then refused else okNat v.toNat

/-- R143, by register. -/
def rencAnswer (policy : RoFieldPolicy) (addr : Addr) (v : Word) : Response :=
  if addr ∈ readOnlyAddrs then violation
  else if addr = 0x02 ∨ addr = 0x03 then
    (if v.toNat / 4096 ≤ 11 then okNat (v.toNat / 4096 * 4096 + (4095 - v.toNat % 4096)) else invalid)
  else if addr = 0x01 then
    (if v.toNat / 32 % 16 = 0 then cfgvAnswer v
     else
      match policy with
      | .reject => violation
      | .ignore => cfgvAnswer (v &&& 0xFE1F#16))
  else refused

/-- The fields a write may name, as (lo, hi, marked RO), in field id order (R29, R30). -/
def writeFields (addr : Addr) : List (Nat × Nat × Bool) :=
  if addr = 0x01 then
    [(0, 1, false), (2, 2, false), (3, 3, false), (4, 4, false), (5, 5, true), (6, 6, true), (7, 7, true), (8, 8, true),
      (9, 10, false), (11, 11, false), (12, 15, false)]
  else [(0, 11, false), (12, 15, false)]

/-- R144. -/
def fwrAnswer (policy : RoFieldPolicy) (fid : Nat) (addr : Addr) (base v : Word) : Response :=
  if addr ∈ readOnlyAddrs then violation
  else if addr ∈ writableAddrs then
    match (writeFields addr)[fid]? with
    | none => refused
    | some (_, _, true) =>
      (match policy with
        | .reject => violation
        | .ignore => okNat base.toNat)
    | some (lo, hi, false) =>
      if v.toNat > 2 ^ (hi - lo + 1) - 1 then refused
      else okNat ((base &&& ~~~ (BitVec.ofNat 16 (2 ^ (hi - lo + 1) - 1) <<< lo)) ||| (v <<< lo)).toNat
  else refused

/-- R161: the response to the environment's answer to a write. -/
def writeAnswerResponse (a : WriteAnswer) : Response :=
  match a with
  | .ok => okNat 0
  | .err => ⟨.busError, 0⟩

/-- A pseudo-operation that ends with the responses `ps` and the transactions `es` added, the environment's replies `script` still
to come, and nothing else changed (R82, R194). -/
def Runs (p : Pseudo) (s : State) (script : List EnvReply) (ps : List Response) (es : List BusEvent) : Prop :=
  p.run s = .next { s with script := script, responses := s.responses ++ ps, busLog := s.busLog ++ es }

/-- The must-be-zero bits of RENC, RWR (`cmd.a[15:8]`, `cmd.c`) and FWR (`cmd.a[15:12]`), some of them set (R73). -/
def WriteCommandWithSetBit (w : Command) : Prop :=
  (w.extractLsb' 48 8 ∈ [0x33#8, 0x41#8] ∧ (w.extractLsb' 40 8 ≠ 0 ∨ w.extractLsb' 0 16 ≠ 0)) ∨
    (w.extractLsb' 48 8 = 0x34 ∧ w.extractLsb' 44 4 ≠ 0)

/-- The rows of spec/opcode_table.json as (match, mask). -/
def tableRows : List (Command × Command) :=
  [ (0x10000000000000, 0xFF00000000FFFF), (0x11000000000000, 0xFF00000000FFFF),
    (0x12000000000000, 0xFF0000FFFFFFFF), (0x13000000000000, 0xFF00000000FFFF),
    (0x14000000000000, 0xFF00000000FFFF), (0x20000000000000, 0xFF0000FFFFFF00),
    (0x21000000000000, 0xFF00000000FF00), (0x22000000000000, 0xFFFFF00000FFFF),
    (0x23000000000000, 0xFFFFF00000FFFF), (0x30000000000000, 0xFFFF00FFFFFFFF),
    (0x31000000000000, 0xFFF000FFFFFFFF), (0x32000000000000, 0xFFFF000000FFFF),
    (0x33000000000000, 0xFFFF000000FFFF), (0x34000000000000, 0xFFF00000000000),
    (0x40000000000000, 0xFFFF00FFFFFFFF), (0x41000000000000, 0xFFFF000000FFFF) ]

/-- The statuses of each opcode (R175), REFUSED alone for any other. -/
def statusTable (op : BitVec 8) : List Status :=
  if op = 0x10 ∨ op = 0x11 ∨ op = 0x12 ∨ op = 0x13 ∨ op = 0x14 then [.ok, .invalidField, .refused]
  else if op = 0x20 ∨ op = 0x21 ∨ op = 0x22 ∨ op = 0x23 ∨ op = 0x30 ∨ op = 0x31 then [.ok, .refused]
  else if op = 0x32 then [.ok, .invalidField, .refused]
  else if op = 0x33 then [.ok, .invalidField, .accessViolation, .refused]
  else if op = 0x34 then [.ok, .accessViolation, .refused]
  else if op = 0x40 then [.ok, .refused]
  else if op = 0x41 then [.ok, .accessViolation, .busError, .refused]
  else [.refused]

/-- The checks of R176 (3) to (8) that an operation makes, in that order, each with whether it fails and the status it then
gives. Checks (1) and (2) are made on the command word. -/
def checks (i : Instr) (s : State) : List (Bool × Status) :=
  match i with
  | .construct e f => [(decide (¬ valid e f), .invalidField)]
  | .toRaw e f => [(decide (¬ valid e f), .invalidField)]
  | .fromRaw raw => [(decide (decodedExponent s.config.expXorDec raw > 11), .invalidField)]
  | .centilux e f => [(decide (¬ valid e f), .invalidField)]
  | .lux e f => [(decide (¬ valid e f), .invalidField)]
  | .fext _ lo hi => [(decide (lo > hi), .refused)]
  | .fins _ v lo hi => [(decide (lo > hi), .refused), (decide (v.toNat > 2 ^ (hi - lo + 1) - 1), .refused)]
  | .edec fid p => [(decide (fid ∉ [0, 8, 9]), .refused), (decide (p.toNat > if fid = 9 then 1 else 3), .refused)]
  | .eenc fid k =>
    [(decide (fid ∉ [0, 8, 9]), .refused),
      (decide (k.toNat > if fid = 9 then 1 else if fid = 8 then 2 else 3), .refused)]
  | .rdesc a => [(decide (a ∉ mappedAddrs), .refused)]
  | .fdesc fid a => [(decide (a ∉ mappedAddrs), .refused), (decide (fid ≥ (fieldWords a).length), .refused)]
  | .rdec a raw =>
    [(decide (a ∉ mappedAddrs), .refused),
      (decide (a ∈ [0x00, 0x02, 0x03] ∧ decodedExponent s.config.expXorDec raw > 11), .invalidField)]
  | .renc a v =>
    [(decide (a ∉ mappedAddrs), .refused), (decide (a ∈ readOnlyAddrs), .accessViolation),
      (decide (a = 0x01 ∧ s.config.roFieldPolicy = .reject ∧ v.toNat / 32 % 16 ≠ 0), .accessViolation),
      (decide (a ≠ 0x01 ∧ v.toNat / 4096 > 11), .invalidField),
      (decide (a = 0x01 ∧ v.toNat / 512 % 4 = 3), .refused)]
  | .fwr fid a _ v =>
    let field := (writeFields a)[fid]?
    [(decide (a ∉ mappedAddrs), .refused), (decide (a ∈ readOnlyAddrs), .accessViolation), (field.isNone, .refused),
      (field.any (fun f => f.2.2) && decide (s.config.roFieldPolicy = .reject), .accessViolation),
      (field.any (fun f => !f.2.2 && decide (v.toNat > 2 ^ (f.2.1 - f.1 + 1) - 1)), .refused)]
  | .rrd a => [(decide (a ∉ mappedAddrs), .refused)]
  | .rwr a _ =>
    [(decide (a ∉ mappedAddrs), .refused), (decide (a ∈ readOnlyAddrs), .accessViolation),
      (match s.nextReply with
        | .answers _ .err => true
        | .answers _ .ok => false
        | .silent => false, .busError)]

/-- "the status is that of the first" check that fails (R176), OK when none does. -/
def firstFailure (i : Instr) (s : State) : Status :=
  match (checks i s).find? (fun c => c.1) with
  | some c => c.2
  | none => .ok

/-- How far a pattern's value is from `num / den`, in units of 2^-149 / den. -/
def distance (num den : Nat) (b : Result) : Nat :=
  ((f32Units b * den : Int) - (num * 2 ^ 149 : Int)).natAbs

/-- The correctly rounded binary32 of `num / den` (R106): no finite pattern with sign bit 0 is nearer, and where another is as
near, this one has the even fraction. -/
def IsNearest (num den : Nat) (r : Result) : Prop :=
  r.toNat < 0x7F800000 ∧
    ∀ b : Result, b.toNat < 0x7F800000 →
      distance num den r ≤ distance num den b ∧
        (distance num den b = distance num den r → b ≠ r → r.toNat % 2 = 0)

end Sys2Proof.Claims

open Sys2Proof.Claims

/-! ## Each operation: its result, its statuses, its frame and its command (files 40 to 43) -/

/-- R101. Every state, every pair; nothing but the response changes. -/
def Obligations.ConstructAnswersTheBundleOfAValidPair : Prop :=
  (∀ (e f : Word) (s : State),
    exec (.construct e f) s =
      .next { s with responses := s.responses ++ [pairAnswer e f (e.toNat * 4096 + f.toNat)] }) ∧
  ReadsCommand 0x10 (fun w => w.extractLsb' 0 16 ≠ 0)
    (fun w => .construct (w.extractLsb' 32 16) (w.extractLsb' 16 16))

/-- R102: the exponent unchanged, the fractional inverted; equivalently the LMV XOR 0x0FFF. -/
def Obligations.ToRawPacksTheExponentAndTheInvertedFractional : Prop :=
  (∀ (e f : Word) (s : State),
    exec (.toRaw e f) s =
      .next { s with responses := s.responses ++
        [pairAnswer e f ((e <<< 12) ||| ((f ^^^ 0x0FFF#16) &&& 0x0FFF#16)).toNat] }) ∧
  (∀ e f : Word, e.toNat ≤ 11 → f.toNat ≤ 4095 →
    (e <<< 12) ||| ((f ^^^ 0x0FFF#16) &&& 0x0FFF#16) = BitVec.ofNat 16 (e.toNat * 4096 + f.toNat) ^^^ 0x0FFF#16) ∧
  ReadsCommand 0x11 (fun w => w.extractLsb' 0 16 ≠ 0)
    (fun w => .toRaw (w.extractLsb' 32 16) (w.extractLsb' 16 16))

/-- R103, for both values of `EXP_XOR_DEC`. -/
def Obligations.FromRawUnpacksThenValidatesUnderBothParameters : Prop :=
  (∀ (raw : Word) (s : State),
    exec (.fromRaw raw) s =
      .next { s with responses := s.responses ++ [fromRawAnswer s.config.expXorDec raw] }) ∧
  ReadsCommand 0x12 (fun w => w.extractLsb' 0 32 ≠ 0) (fun w => .fromRaw (w.extractLsb' 32 16))

/-- R104: the product, which never reaches 2^32. -/
def Obligations.CentiluxIsTheFractionalScaledByTheExponent : Prop :=
  (∀ (e f : Word) (s : State),
    exec (.centilux e f) s =
      .next { s with responses := s.responses ++ [pairAnswer e f (2 ^ e.toNat * f.toNat)] }) ∧
  (∀ e f : Word, e.toNat ≤ 11 → f.toNat ≤ 4095 → 2 ^ e.toNat * f.toNat ≤ 8386560) ∧
  ReadsCommand 0x13 (fun w => w.extractLsb' 0 16 ≠ 0)
    (fun w => .centilux (w.extractLsb' 32 16) (w.extractLsb' 16 16))

/-- R105 with the numeric law of R106 in place of the model's division: the OK result is the binary32 nearest to centilux / 100. -/
def Obligations.LuxIsCentiluxOverAHundredNearestBinary32 : Prop :=
  (∀ (e f : Word) (s : State), e.toNat ≤ 11 → f.toNat ≤ 4095 →
    ∃ r : Result, IsNearest (2 ^ e.toNat * f.toNat) 100 r ∧
      exec (.lux e f) s = .next { s with responses := s.responses ++ [⟨.ok, r⟩] }) ∧
  (∀ (e f : Word) (s : State), ¬ (e.toNat ≤ 11 ∧ f.toNat ≤ 4095) →
    exec (.lux e f) s = .next { s with responses := s.responses ++ [invalid] }) ∧
  ReadsCommand 0x14 (fun w => w.extractLsb' 0 16 ≠ 0)
    (fun w => .lux (w.extractLsb' 32 16) (w.extractLsb' 16 16))

/-- R120: a reversed range is refused, any other gives the field's number. -/
def Obligations.FieldExtractionShiftsAndMasks : Prop :=
  (∀ (raw : Word) (lo hi : Nat) (s : State),
    exec (.fext raw lo hi) s =
      .next { s with responses := s.responses ++
        [if lo > hi then refused else okNat (raw.toNat / 2 ^ lo % 2 ^ (hi - lo + 1))] }) ∧
  ReadsCommand 0x20 (fun w => w.extractLsb' 16 16 ≠ 0 ∨ w.extractLsb' 8 8 ≠ 0)
    (fun w => .fext (w.extractLsb' 32 16) (w.extractLsb' 0 4).toNat (w.extractLsb' 4 4).toNat)

/-- R121, bit by bit: inside the range the value's bits, outside it the raw value's. -/
def Obligations.FieldInsertionReplacesExactlyTheRange : Prop :=
  (∀ (raw v : Word) (lo hi : Nat) (s : State), lo ≤ hi → hi ≤ 15 → v.toNat ≤ 2 ^ (hi - lo + 1) - 1 →
    ∃ x : Word, (∀ i < 16, x.getLsbD i = if lo ≤ i ∧ i ≤ hi then v.getLsbD (i - lo) else raw.getLsbD i) ∧
      exec (.fins raw v lo hi) s = .next { s with responses := s.responses ++ [okNat x.toNat] }) ∧
  (∀ (raw v : Word) (lo hi : Nat) (s : State), lo > hi ∨ v.toNat > 2 ^ (hi - lo + 1) - 1 →
    exec (.fins raw v lo hi) s = .next { s with responses := s.responses ++ [refused] }) ∧
  ReadsCommand 0x21 (fun w => w.extractLsb' 8 8 ≠ 0)
    (fun w => .fins (w.extractLsb' 32 16) (w.extractLsb' 16 16) (w.extractLsb' 0 4).toNat (w.extractLsb' 4 4).toNat)

/-- R122: every field id and every pattern. -/
def Obligations.EnumerationDecodeResultsInFull : Prop :=
  (∀ (fid : Nat) (p : Word) (s : State),
    exec (.edec fid p) s = .next { s with responses := s.responses ++ [edecAnswer fid p] }) ∧
  ReadsCommand 0x22 (fun w => w.extractLsb' 36 12 ≠ 0 ∨ w.extractLsb' 0 16 ≠ 0)
    (fun w => .edec (w.extractLsb' 32 4).toNat (w.extractLsb' 16 16))

/-- R123: every field id and every number. -/
def Obligations.EnumerationEncodeResultsInFull : Prop :=
  (∀ (fid : Nat) (k : Word) (s : State),
    exec (.eenc fid k) s = .next { s with responses := s.responses ++ [eencAnswer fid k] }) ∧
  ReadsCommand 0x23 (fun w => w.extractLsb' 36 12 ≠ 0 ∨ w.extractLsb' 0 16 ≠ 0)
    (fun w => .eenc (w.extractLsb' 32 4).toNat (w.extractLsb' 16 16))

/-- R140: all 256 addresses. -/
def Obligations.RegisterDescriptorLookupAnswersTheSixWords : Prop :=
  (∀ (addr : Addr) (s : State),
    exec (.rdesc addr) s = .next { s with responses := s.responses ++ [rdescAnswer addr] }) ∧
  ReadsCommand 0x30 (fun w => w.extractLsb' 40 8 ≠ 0 ∨ w.extractLsb' 0 32 ≠ 0)
    (fun w => .rdesc (w.extractLsb' 32 8))

/-- R141: every field id at all 256 addresses. -/
def Obligations.FieldDescriptorLookupResultsInFull : Prop :=
  (∀ (fid : Nat) (addr : Addr) (s : State),
    exec (.fdesc fid addr) s = .next { s with responses := s.responses ++ [fdescAnswer fid addr] }) ∧
  ReadsCommand 0x31 (fun w => w.extractLsb' 44 4 ≠ 0 ∨ w.extractLsb' 0 32 ≠ 0)
    (fun w => .fdesc (w.extractLsb' 40 4).toNat (w.extractLsb' 32 8))

/-- R142: all addresses, all raw values, both values of `EXP_XOR_DEC`. -/
def Obligations.RegisterDecodeByLayout : Prop :=
  (∀ (addr : Addr) (raw : Word) (s : State),
    exec (.rdec addr raw) s =
      .next { s with responses := s.responses ++ [rdecAnswer s.config.expXorDec addr raw] }) ∧
  ReadsCommand 0x32 (fun w => w.extractLsb' 40 8 ≠ 0 ∨ w.extractLsb' 0 16 ≠ 0)
    (fun w => .rdec (w.extractLsb' 32 8) (w.extractLsb' 16 16))

/-- R143: all addresses, all bundles, both policies. -/
def Obligations.RegisterEncodeThroughTheGates : Prop :=
  (∀ (addr : Addr) (v : Word) (s : State),
    exec (.renc addr v) s =
      .next { s with responses := s.responses ++ [rencAnswer s.config.roFieldPolicy addr v] }) ∧
  ReadsCommand 0x33 (fun w => w.extractLsb' 40 8 ≠ 0 ∨ w.extractLsb' 0 16 ≠ 0)
    (fun w => .renc (w.extractLsb' 32 8) (w.extractLsb' 16 16))

/-- R144: all addresses, field ids, bases and values, both policies. -/
def Obligations.FieldWriteThroughTheGates : Prop :=
  (∀ (fid : Nat) (addr : Addr) (base v : Word) (s : State),
    exec (.fwr fid addr base v) s =
      .next { s with responses := s.responses ++ [fwrAnswer s.config.roFieldPolicy fid addr base v] }) ∧
  ReadsCommand 0x34 (fun w => w.extractLsb' 44 4 ≠ 0)
    (fun w => .fwr (w.extractLsb' 40 4).toNat (w.extractLsb' 32 8) (w.extractLsb' 16 16) (w.extractLsb' 0 16))

/-- R160. Whatever the environment answers is the response, at each of the six addresses, after one transaction; an unmapped
address starts no transaction. (What the model does with the reply it has used up is EachReplyIsUsedOnce.) -/
def Obligations.ReadRegisterForwardsTheEnvironmentsAnswer : Prop :=
  (∀ (addr : Addr) (s : State) (v : Word) (a : WriteAnswer), addr ∈ mappedAddrs → s.nextReply = .answers v a →
    Transacts s (.read addr v) (okNat v.toNat) (exec (.rrd addr) s)) ∧
  (∀ (addr : Addr) (s : State), addr ∉ mappedAddrs →
    exec (.rrd addr) s = .next { s with responses := s.responses ++ [refused] }) ∧
  ReadsCommand 0x40 (fun w => w.extractLsb' 40 8 ≠ 0 ∨ w.extractLsb' 0 32 ≠ 0)
    (fun w => .rrd (w.extractLsb' 32 8))

/-- R161. The whole value goes out, for every value, in one transaction; RO registers and unmapped addresses start none. -/
def Obligations.WriteRegisterForwardsTheWholeValueOnceGated : Prop :=
  (∀ (addr : Addr) (value : Word) (s : State) (v : Word), addr ∈ writableAddrs → s.nextReply = .answers v .ok →
    Transacts s (.write addr value .ok) (okNat 0) (exec (.rwr addr value) s)) ∧
  (∀ (addr : Addr) (value : Word) (s : State) (v : Word), addr ∈ writableAddrs → s.nextReply = .answers v .err →
    Transacts s (.write addr value .err) ⟨.busError, 0⟩ (exec (.rwr addr value) s)) ∧
  (∀ (addr : Addr) (value : Word) (s : State), addr ∈ readOnlyAddrs →
    exec (.rwr addr value) s = .next { s with responses := s.responses ++ [violation] }) ∧
  (∀ (addr : Addr) (value : Word) (s : State), addr ∉ mappedAddrs →
    exec (.rwr addr value) s = .next { s with responses := s.responses ++ [refused] }) ∧
  ReadsCommand 0x41 (fun w => w.extractLsb' 40 8 ≠ 0 ∨ w.extractLsb' 0 16 ≠ 0)
    (fun w => .rwr (w.extractLsb' 32 8) (w.extractLsb' 16 16))

/-- The model's choice, log 3: the replies of the script are used in order, each by one transaction; a state whose script is
used up still answers, with values of which nothing is known; and an instruction that makes no transaction uses none. -/
def Obligations.EachReplyIsUsedOnce : Prop :=
  (∀ (s : State) (reply : EnvReply) (rest : List EnvReply), s.script = reply :: rest →
    s.nextReply = reply ∧ s.afterReply = { s with script := rest }) ∧
  (∀ s : State, s.script = [] → s.nextReply ≠ .silent ∧ s.afterReply = { s with draws := s.draws + 1 }) ∧
  (∀ (i : Instr) (s t : State), exec i s = .next t →
    (t.busLog = s.busLog → t.script = s.script ∧ t.draws = s.draws) ∧
    (t.busLog ≠ s.busLog → t.script = s.afterReply.script ∧ t.draws = s.afterReply.draws))

/-! ## Encodings (30_encoding.md) -/

/-- R72, R80: no operand bit is dropped, for every operation and every operand a command can carry. -/
def Obligations.DecodeOfEncodeIsTheInstruction : Prop :=
  ∀ i : Instr, i.wf = true → decode (encode i) = .ok i

/-- The other direction: a decoded instruction is well formed and its encoding is the very word, so each word has one meaning. -/
def Obligations.EncodeOfDecodeIsTheCommand : Prop :=
  ∀ (w : Command) (i : Instr), decode w = .ok i → i.wf = true ∧ encode i = w

/-- R70, R73: a word is an operation exactly when it matches a row of the opcode table, and it never matches two. -/
def Obligations.DecodableWordsAreTheRowsOfTheTable : Prop :=
  ∀ w : Command,
    (tableRows.countP fun row => w &&& row.2 == row.1) = match decode w with | .ok _ => 1 | .error _ => 0

/-- R73 at the machine: a word matching no row is answered REFUSED, and nothing else happens. -/
def Obligations.WordsOfNoRowAreRefusedWithoutEffect : Prop :=
  ∀ (s : State) (w : Command) (rest : List Command), s.program = w :: rest →
    (∀ row ∈ tableRows, w &&& row.2 ≠ row.1) →
    step s = .next { s with program := rest, responses := s.responses ++ [refused] }

/-- A step runs the decoded instruction after taking its command off the host's list. With no command to issue nothing happens
(the model's choice, log 1). -/
def Obligations.StepRunsTheDecodedCommand : Prop :=
  (∀ (s : State) (w : Command) (rest : List Command) (i : Instr),
    s.program = w :: rest → decode w = .ok i → step s = exec i { s with program := rest }) ∧
  (∀ s : State, s.program = [] → step s = .next s)

/-- The example words of R81 and of rules R101, R103, R122, R140, R141, R142, R160, R161, decoded (a sanity statement). -/
def Obligations.ExampleWordsDecodeAsWritten : Prop :=
  decode 0x10000400640000 = .ok (.construct 4 100) ∧
  decode 0x124F9B00000000 = .ok (.fromRaw 0x4F9B) ∧
  decode 0x200600000000A9 = .ok (.fext 0x0600 9 10) ∧
  decode 0x22000800030000 = .ok (.edec 8 3) ∧
  decode 0x31080100000000 = .ok (.fdesc 8 0x01) ∧
  decode 0x32000106000000 = .ok (.rdec 0x01 0x0600) ∧
  decode 0x34010100000001 = .ok (.fwr 1 0x01 0x0000 0x0001) ∧
  decode 0x40000000000000 = .ok (.rrd 0x00) ∧
  decode 0x4100024F9B0000 = .ok (.rwr 0x02 0x4F9B) ∧
  decode 0x15000400640000 = .error (.reservedOpcode 0x15) ∧
  decode 0x200600000001A9 = .error (.mustBeZero 0x20)

/-- The written forms of R81 assemble to the words R81 gives (a sanity statement). -/
def Obligations.WrittenExamplesAssembleToTheirWords : Prop :=
  assemble 0 "CONSTRUCT 4, 100".toList = some 0x10000400640000 ∧
  assemble 0 "FEXT 0x0600, 9..=10".toList = some 0x200600000000A9 ∧
  assemble 0 "FWR Configuration.mask, 0x0000, 1".toList = some 0x34010100000001 ∧
  assemble 0 "RWR Lowlimit, 0x4F9B".toList = some 0x4100024F9B0000 ∧
  assemble 0 "EDEC convertion_mode, 0b11".toList = some 0x22000800030000 ∧
  assemble 0 "EENC convertion_mode, Continuous".toList = some 0x23000800020000 ∧
  assemble 0x4F9B "RWR Lowlimit, $".toList = some 0x4100024F9B0000

/-- R71: where the status and the result stand in the 35-bit word, the five codes, and that 5, 6 and 7 are no code. -/
def Obligations.ResponseWordCarriesStatusAndResult : Prop :=
  (∀ p : Response, p.word.extractLsb' 32 3 = p.status.code ∧ p.word.extractLsb' 0 32 = p.r) ∧
  (Status.ok.code, Status.invalidField.code, Status.accessViolation.code, Status.busError.code, Status.refused.code)
    = (0, 1, 2, 3, 4) ∧
  (∀ p : Response, (p.word.extractLsb' 32 3).toNat < 5)

/-- R52: `value[7:0]` is byte 0 and `value[15:8]` byte 1, and the two bytes make the value again. -/
def Obligations.RegisterBytesAreLittleEndian : Prop :=
  (∀ v : Word, ∃ b0 b1 : BitVec 8, registerBytes v = [b0, b1] ∧ v.toNat = b0.toNat + 256 * b1.toNat) ∧
  (∀ b0 b1 : BitVec 8, registerBytes (registerOfBytes b0 b1) = [b0, b1])

/-! ## The tables (10_state.md) -/

/-- R28, for the three layouts: ranges in order and in the word, one bit for a boolean, each bit in exactly one field. -/
def Obligations.LayoutsTileTheRegister : Prop :=
  ∀ l : Layout,
    (∀ f ∈ l.fields, f.lo ≤ f.hi ∧ f.hi ≤ 15 ∧ (f.kind = .boolean → f.lo = f.hi)) ∧
    (∀ i < 16, ∃ f ∈ l.fields, f.lo ≤ i ∧ i ≤ f.hi ∧ ∀ g ∈ l.fields, g.lo ≤ i → i ≤ g.hi → g = f)

/-- R35, for ANY enumeration descriptor of the stated form: a listed pattern gives its listed variant, an unlisted one the
catch-all; and every pattern of the field's width decodes, since without a catch-all every pattern is listed. -/
def Obligations.EnumerationsDecodeEveryPatternOfTheirWidth : Prop :=
  (∀ (e : EnumDesc) (width : Nat) (x : Word × Variant), e.wellFormed width = true → x ∈ e.entries →
    e.variantOf x.1 = some x.2) ∧
  (∀ (e : EnumDesc) (p : Word), (∀ x ∈ e.entries, x.1 ≠ p) → e.variantOf p = e.catchAll.map CatchAll.variant) ∧
  (∀ (e : EnumDesc) (width : Nat) (p : Word), e.wellFormed width = true → p.toNat < 2 ^ width →
    (e.variantOf p).isSome = true) ∧
  faultCountEnum.wellFormed 2 = true ∧ convertionModeEnum.wellFormed 2 = true ∧ convertionTimeEnum.wellFormed 1 = true

/-- R24: the measurements are the valid pairs, 49,152 of them: their bundles are exactly the words below 12 * 4096, one each. -/
def Obligations.MeasurementsAreTheValidPairs : Prop :=
  (∀ e f : Word, (LightMeasurement.construct e f).isSome = true ↔ e.toNat ≤ 11 ∧ f.toNat ≤ 4095) ∧
  Function.Injective LightMeasurement.lmv ∧
  (∀ w : Word, (∃ m : LightMeasurement, m.lmv = w) ↔ w.toNat < 49152)

/-! ## The codec's laws (40_codec.md) -/

/-- R106, over the whole range of centilux: 100.0 and `u32_to_f32` are exact, the quotient is correctly rounded, is a normal
number unless centilux is 0, is +0.0 exactly then, and is exact exactly for a multiple of 25. -/
def Obligations.LuxDivisionIsCorrectlyRounded : Prop :=
  f32Units 0x42C80000 = 100 * 2 ^ 149 ∧
  ∀ c : Result, c.toNat ≤ 8386560 →
    f32Units (u32ToF32 c) = c.toNat * 2 ^ 149 ∧
    IsNearest c.toNat 100 (f32Div (u32ToF32 c) 0x42C80000) ∧
    (f32Div (u32ToF32 c) 0x42C80000 = 0 ↔ c = 0) ∧
    (c ≠ 0 → 0x00800000 ≤ (f32Div (u32ToF32 c) 0x42C80000).toNat) ∧
    (f32Units (f32Div (u32ToF32 c) 0x42C80000) * 100 = c.toNat * 2 ^ 149 ↔ c.toNat % 25 = 0)

/-- R107: CENTILUX is the unwrapped product, monotone in both operands, strictly in the fractional, strictly in the exponent
for a fractional above 0, 0 for fractional 0, and at its maximum only for (11, 4095). -/
def Obligations.CentiluxIsMonotoneWithOneMaximum : Prop :=
  ∃ c : Word → Word → Nat,
    (∀ e f : Word, e.toNat ≤ 11 → f.toNat ≤ 4095 →
      ∀ s : State, exec (.centilux e f) s = .next { s with responses := s.responses ++ [okNat (c e f)] }) ∧
    ∀ e₁ f₁ e₂ f₂ : Word, e₁.toNat ≤ 11 → f₁.toNat ≤ 4095 → e₂.toNat ≤ 11 → f₂.toNat ≤ 4095 →
      c e₁ f₁ ≤ 8386560 ∧
      (e₁.toNat ≤ e₂.toNat → f₁.toNat ≤ f₂.toNat → c e₁ f₁ ≤ c e₂ f₂) ∧
      (f₁.toNat < f₂.toNat → c e₁ f₁ < c e₁ f₂) ∧
      (e₁.toNat < e₂.toNat → 0 < f₁.toNat → c e₁ f₁ < c e₂ f₁) ∧
      (f₁.toNat = 0 → c e₁ f₁ = 0) ∧
      (c e₁ f₁ = 8386560 ↔ e₁.toNat = 11 ∧ f₁.toNat = 4095)

/-- R100: the four operations that take a pair apply one check to all sixteen bits of both numbers. -/
def Obligations.PairOperationsShareTheWholeWidthCheck : Prop :=
  ∀ (e f : Word) (c : Config) (i : Instr), i ∈ [Instr.construct e f, .toRaw e f, .centilux e f, .lux e f] →
    ((11 < e.toNat ∨ 4095 < f.toNat) → Gives c i invalid) ∧
    (e.toNat ≤ 11 → f.toNat ≤ 4095 → ∃ r : Result, Gives c i ⟨.ok, r⟩)

/-- R108: for every valid pair, what FROM_RAW answers to the raw value TO_RAW gave. With 0x0 the pair comes back; with 0xF the
exponent comes back as 15 - e, never e, or is rejected. -/
def Obligations.EncodeThenDecodeOfAPair : Prop :=
  ∀ (e f : Word) (policy : RoFieldPolicy), e.toNat ≤ 11 → f.toNat ≤ 4095 →
    ∃ raw : Word, (∀ c : Config, Gives c (.toRaw e f) (okNat raw.toNat)) ∧
      Gives ⟨.plain, policy⟩ (.fromRaw raw) (okNat (e.toNat * 4096 + f.toNat)) ∧
      (4 ≤ e.toNat → Gives ⟨.inverted, policy⟩ (.fromRaw raw) (okNat ((15 - e.toNat) * 4096 + f.toNat))) ∧
      (e.toNat ≤ 3 → Gives ⟨.inverted, policy⟩ (.fromRaw raw) invalid) ∧
      (okNat ((15 - e.toNat) * 4096 + f.toNat) ≠ okNat (e.toNat * 4096 + f.toNat))

/-- R109: decode, then encode. With 0x0 the raw value comes back; with 0xF it comes back XOR 0xF000; and under either
parameter every valid pair is decoded from exactly one raw value. -/
def Obligations.DecodeThenEncodeOfARawValue : Prop :=
  (∀ (raw : Word) (policy : RoFieldPolicy) (x : ExpXorDec),
    (decodedExponent x raw ≤ 11 →
      ∃ e f : Word, Gives ⟨x, policy⟩ (.fromRaw raw) (okNat (e.toNat * 4096 + f.toNat)) ∧ e.toNat ≤ 11 ∧ f.toNat ≤ 4095 ∧
        Gives ⟨x, policy⟩ (.toRaw e f) (okNat (raw ^^^ (match x with | .plain => 0x0000#16 | .inverted => 0xF000#16)).toNat)) ∧
    (11 < decodedExponent x raw → Gives ⟨x, policy⟩ (.fromRaw raw) invalid)) ∧
  (∀ (x : ExpXorDec) (policy : RoFieldPolicy) (e f : Word), e.toNat ≤ 11 → f.toNat ≤ 4095 →
    ∃ raw : Word, Gives ⟨x, policy⟩ (.fromRaw raw) (okNat (e.toNat * 4096 + f.toNat)) ∧
      ∀ raw' : Word, Gives ⟨x, policy⟩ (.fromRaw raw') (okNat (e.toNat * 4096 + f.toNat)) → raw' = raw)

/-- R76: every bundle of a measurement that an operation answers OK with has an exponent of at most 11 (and nothing above bit
15), for all parameters. -/
def Obligations.ReturnedBundlesHoldValidExponents : Prop :=
  ∀ (i : Instr) (c : Config) (r : Result),
    ((∃ e f : Word, i = .construct e f) ∨ (∃ raw : Word, i = .fromRaw raw) ∨
      ∃ (addr : Addr) (raw : Word), addr ∈ [0x00, 0x02, 0x03] ∧ i = .rdec addr raw) →
    Gives c i ⟨.ok, r⟩ → r.toNat / 4096 ≤ 11

/-! ## The field operations' laws (41_fields.md) -/

/-- R124 (a) to (d), as answers of the machine. -/
def Obligations.ExtractionAndInsertionLaws : Prop :=
  ∀ (c : Config) (raw v : Word) (lo hi : Nat), lo ≤ hi → hi ≤ 15 → v.toNat ≤ 2 ^ (hi - lo + 1) - 1 →
    ∃ x : Word, Gives c (.fins raw v lo hi) (okNat x.toNat) ∧
      Gives c (.fext x lo hi) (okNat v.toNat) ∧
      (∀ old : Word, Gives c (.fext raw lo hi) (okNat old.toNat) → Gives c (.fins raw old lo hi) (okNat raw.toNat)) ∧
      (∀ lo' hi' : Nat, lo' ≤ hi' → hi' ≤ 15 → hi < lo' ∨ hi' < lo →
        ∀ y : Word, Gives c (.fext raw lo' hi') (okNat y.toNat) → Gives c (.fext x lo' hi') (okNat y.toNat)) ∧
      (∀ v' y : Word, v'.toNat ≤ 2 ^ (hi - lo + 1) - 1 → Gives c (.fins raw v' lo hi) (okNat y.toNat) →
        Gives c (.fins x v' lo hi) (okNat y.toNat))

/-- R125 (a) to (c), for the three enumerated fields. -/
def Obligations.EnumerationCodingLaws : Prop :=
  ∀ (c : Config) (fid width codes : Nat), (fid, width, codes) ∈ [(0, 2, 4), (8, 2, 3), (9, 1, 2)] →
    (∀ k : Word, k.toNat < codes →
      ∃ p : Word, Gives c (.eenc fid k) (okNat p.toNat) ∧ Gives c (.edec fid p) (okNat k.toNat)) ∧
    (∀ p : Word, p.toNat < 2 ^ width →
      ∃ k : Word, Gives c (.edec fid p) (okNat k.toNat) ∧
        Gives c (.eenc fid k) (okNat (if fid = 8 ∧ p = 3 then 2 else p.toNat)))

/-! ## The register map's laws and gates (42_regmap.md) -/

/-- R142, R25: RDEC's Configuration case is the generic decoder run over the descriptor: each field extracted, resolved if
enumerated, and placed. -/
def Obligations.ConfigurationDecodeIsTheGenericDecoder : Prop :=
  ∀ (raw : Word) (s : State),
    ∃ v : Word, decodeByLayout .cfg raw = some v ∧
      exec (.rdec 0x01 raw) s = .next { s with responses := s.responses ++ [okNat v.toNat] }

/-- R77: a decoded Configuration differs from its raw value at most in bits 10:9, only when they were 0b11, and never
carries 3 there. -/
def Obligations.DecodedConfigurationChangesOnlyTheCatchAllPattern : Prop :=
  ∀ (c : Config) (raw : Word), ∃ v : Word, Gives c (.rdec 0x01 raw) (okNat v.toNat) ∧
    (∀ i < 16, i ≠ 9 → v.getLsbD i = raw.getLsbD i) ∧
    (v ≠ raw ↔ raw.extractLsb' 9 2 = 3) ∧ v.extractLsb' 9 2 ≠ 3

/-- R148 (a) to (e). -/
def Obligations.RegisterMapLaws : Prop :=
  (∀ (c : Config) (raw : Word), ∃ v : Word,
    Gives c (.rdec 0x01 raw) (okNat v.toNat) ∧ Gives c (.rdec 0x01 v) (okNat v.toNat)) ∧
  (∀ (x : ExpXorDec) (raw v w : Word), Gives ⟨x, .ignore⟩ (.rdec 0x01 raw) (okNat v.toNat) →
    w = (if raw.extractLsb' 9 2 = 3 then raw &&& 0xFC1F#16 else raw &&& 0xFE1F#16) →
    Gives ⟨x, .ignore⟩ (.renc 0x01 v)
      (okNat w.toNat) ∧
    Gives ⟨x, .reject⟩ (.renc 0x01 v) (if raw.extractLsb' 5 4 = 0 then okNat w.toNat else violation)) ∧
  (∀ (addr : Addr) (policy : RoFieldPolicy) (v : Word), addr = 0x02 ∨ addr = 0x03 → v.toNat / 4096 ≤ 11 →
    ∃ raw : Word, (∀ x : ExpXorDec, Gives ⟨x, policy⟩ (.renc addr v) (okNat raw.toNat)) ∧
      Gives ⟨.plain, policy⟩ (.rdec addr raw) (okNat v.toNat) ∧
      Gives ⟨.inverted, policy⟩ (.rdec addr raw)
        (if v.toNat / 4096 ≤ 3 then invalid else okNat ((15 - v.toNat / 4096) * 4096 + v.toNat % 4096))) ∧
  (∀ (fid : Nat) (addr : Addr) (base v : Word) (lo hi : Nat) (s : State),
    addr ∈ writableAddrs → (writeFields addr)[fid]? = some (lo, hi, false) →
    exec (.fwr fid addr base v) s = exec (.fins base v lo hi) s) ∧
  (∀ (c : Config) (fid : Nat) (base v x : Word), Gives c (.fwr fid 0x01 base v) (okNat x.toNat) →
    x &&& 0x01E0#16 = base &&& 0x01E0#16)

/-- R145: the register-level gate of RENC, FWR and RWR, whatever the payload; passed for the three RW registers;
reads are never gated; and the unmapped address and every must-be-zero bit of the three come first. -/
def Obligations.ReadOnlyRegistersRejectEveryWrite : Prop :=
  (∀ (addr : Addr) (s : State) (fid : Nat) (x y : Word) (i : Instr), addr ∈ readOnlyAddrs →
    i ∈ [Instr.renc addr x, .fwr fid addr x y, .rwr addr x] →
    exec i s = .next { s with responses := s.responses ++ [violation] }) ∧
  (∀ (addr : Addr) (s : State), addr ∈ writableAddrs → s.nextReply ≠ .silent →
    ∃ t : State, exec (.rwr addr 0) s = .next t ∧ t.busLog ≠ s.busLog) ∧
  (∀ (addr : Addr) (c : Config), addr ∈ writableAddrs →
    (∃ r : Result, Gives c (.renc addr 0) ⟨.ok, r⟩) ∧ ∃ r : Result, Gives c (.fwr 0 addr 0 0) ⟨.ok, r⟩) ∧
  (∀ (addr : Addr) (raw : Word) (s t : State) (p : Response) (i : Instr), addr ∈ mappedAddrs →
    i ∈ [Instr.rdec addr raw, .rrd addr] → exec i s = .next t → t.responses = s.responses ++ [p] →
    p.status ≠ .accessViolation ∧ p.status ≠ .refused) ∧
  (∀ (addr : Addr) (s : State) (fid : Nat) (x y : Word) (i : Instr), addr ∉ mappedAddrs →
    i ∈ [Instr.renc addr x, .fwr fid addr x y, .rwr addr x] →
    exec i s = .next { s with responses := s.responses ++ [refused] }) ∧
  (∀ (s : State) (w : Command) (rest : List Command), s.program = w :: rest → WriteCommandWithSetBit w →
    step s = .next { s with program := rest, responses := s.responses ++ [refused] })

/-- R146, R147, operation by operation: FWR on a flag of `Configuration` whatever the value, RENC with a flag bit set (dropped
under IGNORE), neither of them on any other field, RWR and FINS, which make no field-level check. -/
def Obligations.ReadOnlyFieldsFollowThePolicy : Prop :=
  (∀ (fid : Nat) (base v : Word) (s : State), 4 ≤ fid → fid ≤ 7 →
    exec (.fwr fid 0x01 base v) s = .next { s with responses := s.responses ++
      [match s.config.roFieldPolicy with | .reject => violation | .ignore => okNat base.toNat] }) ∧
  (∀ (v : Word) (s : State), v &&& 0x01E0#16 ≠ 0 → s.config.roFieldPolicy = .reject →
    exec (.renc 0x01 v) s = .next { s with responses := s.responses ++ [violation] }) ∧
  (∀ (v : Word) (s : State), s.config.roFieldPolicy = .ignore →
    exec (.renc 0x01 v) s = exec (.renc 0x01 (v &&& ~~~ 0x01E0#16)) s) ∧
  (∀ (addr : Addr) (fid : Nat) (x v : Word) (s t : State) (p : Response) (i : Instr), addr ∈ writableAddrs →
    (i = .fwr fid addr x v ∧ ¬ (addr = 0x01 ∧ 4 ≤ fid ∧ fid ≤ 7)) ∨ (i = .renc addr v ∧ ¬ (addr = 0x01 ∧ v &&& 0x01E0#16 ≠ 0)) →
    exec i s = .next t → t.responses = s.responses ++ [p] → p.status ≠ .accessViolation) ∧
  (∀ (v : Word) (s t : State), exec (.rwr 0x01 v) s = .next t →
    ∃ a : WriteAnswer, t.busLog = s.busLog ++ [.write 0x01 v a]) ∧
  (∀ (raw : Word) (c : Config), ∃ x : Word,
    Gives c (.fins raw 0xF 5 8) (okNat x.toNat) ∧ x &&& 0x01E0#16 = 0x01E0#16)

/-! ## Statuses, priority, effects (60_exceptions.md, 70_reset_and_hazards.md) -/

/-- R175: for each opcode the statuses a command of it can be answered with, and each of them for some command and state. -/
def Obligations.StatusesOfEachOperation : Prop :=
  (∀ (s t : State) (w : Command) (rest : List Command), s.program = w :: rest → step s = .next t →
    ∃ p : Response, t.responses = s.responses ++ [p] ∧ p.status ∈ statusTable (w.extractLsb' 48 8)) ∧
  (∀ (op : BitVec 8) (st : Status), st ∈ statusTable op →
    ∃ (s t : State) (w : Command) (r : Result),
      s.program = [w] ∧ w.extractLsb' 48 8 = op ∧ step s = .next t ∧ t.responses = s.responses ++ [⟨st, r⟩])

/-- R176: an undecodable word is REFUSED; any other command's status is that of the first failing check in the rule's order. -/
def Obligations.FirstFailingCheckGivesTheStatus : Prop :=
  ∀ (s t : State) (w : Command) (rest : List Command), s.program = w :: rest → step s = .next t →
    ∃ p : Response, t.responses = s.responses ++ [p] ∧
      p.status = match decode w with | .error _ => .refused | .ok i => firstFailure i s

/-- R177: a response that is neither OK nor BUS_ERROR leaves the environment and its log untouched; every response that is not
OK carries 0. -/
def Obligations.FailedCommandsHaveNoEffect : Prop :=
  ∀ (s t : State) (w : Command) (rest : List Command) (p : Response), s.program = w :: rest → step s = .next t →
    t.responses = s.responses ++ [p] → p.status ≠ .ok →
    p.r = 0 ∧ (p.status ≠ .busError → t = { s with program := rest, responses := s.responses ++ [p] })

/-- R198: the fourteen pure operations answer in every state, changing nothing but the responses; no operation is ever
refused by the model; and only a silent environment stops RRD or RWR. -/
def Obligations.EveryCommandIsAnsweredUnlessTheBusIsSilent : Prop :=
  (∀ (i : Instr) (s : State), touchesBus i = false →
    ∃ p : Response, exec i s = .next { s with responses := s.responses ++ [p] }) ∧
  (∀ s : State, s.nextReply ≠ .silent → ∃ t : State, step s = .next t) ∧
  (∀ (s : State) (f : Fault), step s = .fault f →
    ∃ (w : Command) (rest : List Command) (i : Instr), s.program = w :: rest ∧ decode w = .ok i ∧ touchesBus i = true ∧
      s.nextReply = .silent) ∧
  (∀ (s : State) (r : Refusal), step s ≠ .refused r)

/-- R195: an RRD or RWR that has passed its checks is stuck when the environment never answers. -/
def Obligations.SilentBusLeavesTheCommandStuck : Prop :=
  ∀ (addr : Addr) (v : Word) (s : State), s.nextReply = .silent →
    (addr ∈ mappedAddrs → exec (.rrd addr) s = .fault .busSilent) ∧
    (addr ∈ writableAddrs → exec (.rwr addr v) s = .fault .busSilent)

/-- R57: a value just written need not read back, and two reads of one address may differ: for every pair of values there is
an environment that answers so. -/
def Obligations.ReadAfterWriteMayReturnAnything : Prop :=
  ∀ (addr : Addr) (written first second : Word), addr ∈ writableAddrs →
    ∃ script : List EnvReply,
      ∀ s : State, s.program = [encode (.rwr addr written), encode (.rrd addr), encode (.rrd addr)] → s.script = script →
        ∃ t : State, Sys2Proof.core.run 3 s = .next t ∧
          t.responses = s.responses ++ [okNat 0, okNat first.toNat, okNat second.toNat]

/-- R193: a step with a command takes one command off the host's list and gives exactly one response, and never changes a
parameter (R39). -/
def Obligations.OneResponsePerCommand : Prop :=
  ∀ (s t : State) (w : Command) (rest : List Command), s.program = w :: rest → step s = .next t →
    t.program = rest ∧ t.config = s.config ∧ ∃ p : Response, t.responses = s.responses ++ [p] ∧ p.wf = true

/-- R162: a step adds at most one transaction, only for RRD or RWR, with that operation's address and value, only at a mapped
address, and never a write to an RO register. -/
def Obligations.BusPortDiscipline : Prop :=
  ∀ s t : State, step s = .next t →
    t.busLog = s.busLog ∨
    ∃ (w : Command) (rest : List Command) (addr : Addr), s.program = w :: rest ∧
      ((∃ v : Word, decode w = .ok (.rrd addr) ∧ addr ∈ mappedAddrs ∧ t.busLog = s.busLog ++ [.read addr v]) ∨
        (∃ (v : Word) (a : WriteAnswer), decode w = .ok (.rwr addr v) ∧ addr ∈ writableAddrs ∧
          t.busLog = s.busLog ++ [.write addr v a]))

/-- R20: two states that agree on the parameters, the next command and the environment's next reply give the same response, the
same transactions and the same stop, whatever they answered before; and a command that does not touch the bus needs no such
agreement on the reply. -/
def Obligations.TheBlockKeepsNothingBetweenCommands : Prop :=
  ∀ s₁ s₂ : State, s₁.config = s₂.config → s₁.program.head? = s₂.program.head? →
    (s₁.nextReply = s₂.nextReply ∨
      ∃ (w : Command) (i : Instr), s₁.program.head? = some w ∧ decode w = .ok i ∧ touchesBus i = false) →
    (∃ (t₁ t₂ : State) (ps : List Response) (es : List BusEvent),
      step s₁ = .next t₁ ∧ step s₂ = .next t₂ ∧
      t₁.responses = s₁.responses ++ ps ∧ t₂.responses = s₂.responses ++ ps ∧
      t₁.busLog = s₁.busLog ++ es ∧ t₂.busLog = s₂.busLog ++ es) ∨
    (∃ f : Fault, step s₁ = .fault f ∧ step s₂ = .fault f)

/-- R112, R126, R149: which operations depend on which parameter. FROM_RAW and RDEC alone may depend on `EXP_XOR_DEC`, RENC and
FWR alone on `RO_FIELD_POLICY`. -/
def Obligations.ParametersReachOnlyTheirOperations : Prop :=
  ∀ (i : Instr) (c : Config) (p : Response), touchesBus i = false → Gives c i p →
    ((∀ raw : Word, i ≠ .fromRaw raw) → (∀ (a : Addr) (raw : Word), a ∈ [0x00, 0x02, 0x03] → i ≠ .rdec a raw) →
      ∀ x : ExpXorDec, Gives { c with expXorDec := x } i p) ∧
    ((∀ (a : Addr) (v : Word), i ≠ .renc a v) → (∀ (fid : Nat) (a : Addr) (b v : Word), i ≠ .fwr fid a b v) →
      ∀ policy : RoFieldPolicy, Gives { c with roFieldPolicy := policy } i p)

/-! ## The invariant, reset and runs -/

/-- R39, R6: after reset there is no response and no transaction, and the parameters have the spec's values. -/
def Obligations.ResetHasNoOutcomeAndTheSpecsParameters : Prop :=
  State.reset.responses = [] ∧ State.reset.busLog = [] ∧ State.reset.lastResponse = none ∧
    State.reset.config = { expXorDec := .plain, roFieldPolicy := .reject }

/-- Every step, from any state with the invariant, keeps it: responses that are not OK carry 0 (R71), every transaction is at a
mapped address and no write is to an RO register (R162), and there are never more transactions than responses (R58). -/
def Obligations.StepKeepsTheInvariant : Prop :=
  ∀ s t : State, s.Inv → step s = .next t → t.Inv

/-- The invariant holds right after reset. -/
def Obligations.ResetMeetsTheInvariant : Prop := State.reset.Inv

/-- R58, R194: over any number of steps from any state the parameters stay, the responses and the transactions are only added
to, in order, with at most one transaction per response, and one response per command taken. -/
def Obligations.RunsOnlyExtendTheOutcome : Prop :=
  ∀ (n : Nat) (s t : State), Sys2Proof.core.run n s = .next t →
    t.config = s.config ∧
    ∃ (ps : List Response) (es : List BusEvent),
      t.responses = s.responses ++ ps ∧ t.busLog = s.busLog ++ es ∧ es.length ≤ ps.length ∧
      t.program = s.program.drop ps.length ∧ ps.length = min n s.program.length ∧ ∀ p ∈ ps, p.wf = true

/-! ## The host's pseudo-operations and the renderings -/

/-- R82: each pseudo-operation, run to its end or stopped at the first response whose status is not OK. RTRIP issues TO_RAW, then
FROM_RAW on TO_RAW's answer, and stops after an invalid pair. SETF reads, changes the field, writes, and stops after an unmapped
address or an FWR that is not OK. WRLM encodes and writes, and stops after an invalid pair, before the bus. RDLM reads and
decodes, and stops after an unmapped address. The last response of each list is the pseudo-operation's own status. -/
def Obligations.PseudoOperationsIssueTheirCommandsInOrder : Prop :=
  (∀ (e f : Word) (s : State), e.toNat ≤ 11 → f.toNat ≤ 4095 →
    ∃ raw : Word, raw.toNat = e.toNat * 4096 + (4095 - f.toNat) ∧
      Runs (.rtrip e f) s s.script
        [okNat raw.toNat,
          match s.config.expXorDec with
          | .plain => okNat (e.toNat * 4096 + f.toNat)
          | .inverted => if e.toNat ≤ 3 then invalid else okNat ((15 - e.toNat) * 4096 + f.toNat)] []) ∧
  (∀ (e f : Word) (s : State), ¬ (e.toNat ≤ 11 ∧ f.toNat ≤ 4095) → Runs (.rtrip e f) s s.script [invalid] []) ∧
  (∀ (fid : Nat) (addr : Addr) (old new value : Word) (a : WriteAnswer) (rest : List EnvReply) (s : State),
    addr ∈ writableAddrs → fid < 16 → s.script = .answers old .ok :: .answers 0 a :: rest →
    fwrAnswer s.config.roFieldPolicy fid addr old value = okNat new.toNat →
    Runs (.setf fid addr value) s rest [okNat old.toNat, okNat new.toNat, writeAnswerResponse a]
      [.read addr old, .write addr new a]) ∧
  (∀ (fid : Nat) (addr : Addr) (old value : Word) (a : WriteAnswer) (rest : List EnvReply) (s : State),
    addr ∈ mappedAddrs → fid < 16 → s.script = .answers old a :: rest →
    (fwrAnswer s.config.roFieldPolicy fid addr old value).status ≠ .ok →
    Runs (.setf fid addr value) s rest [okNat old.toNat, fwrAnswer s.config.roFieldPolicy fid addr old value]
      [.read addr old]) ∧
  (∀ (fid : Nat) (addr : Addr) (value : Word) (s : State), addr ∉ mappedAddrs →
    Runs (.setf fid addr value) s s.script [refused] []) ∧
  (∀ (addr : Addr) (e f : Word) (s : State), ¬ (e.toNat ≤ 11 ∧ f.toNat ≤ 4095) →
    Runs (.wrlm addr e f) s s.script [invalid] []) ∧
  (∀ (addr : Addr) (e f old : Word) (a : WriteAnswer) (rest : List EnvReply) (s : State), e.toNat ≤ 11 → f.toNat ≤ 4095 →
    addr ∈ writableAddrs → s.script = .answers old a :: rest →
    ∃ raw : Word, raw.toNat = e.toNat * 4096 + (4095 - f.toNat) ∧
      Runs (.wrlm addr e f) s rest [okNat raw.toNat, writeAnswerResponse a] [.write addr raw a]) ∧
  (∀ (addr : Addr) (e f : Word) (s : State), e.toNat ≤ 11 → f.toNat ≤ 4095 → addr ∉ writableAddrs →
    ∃ raw : Word, raw.toNat = e.toNat * 4096 + (4095 - f.toNat) ∧
      Runs (.wrlm addr e f) s s.script [okNat raw.toNat, if addr ∈ readOnlyAddrs then violation else refused] []) ∧
  (∀ (addr : Addr) (raw : Word) (a : WriteAnswer) (rest : List EnvReply) (s : State), addr ∈ mappedAddrs →
    s.script = .answers raw a :: rest →
    Runs (.rdlm addr) s rest [okNat raw.toNat, rdecAnswer s.config.expXorDec addr raw] [.read addr raw]) ∧
  (∀ (addr : Addr) (s : State), addr ∉ mappedAddrs → Runs (.rdlm addr) s s.script [refused] [])

/-- R110, R111: the renderings of the source's one example, (4, 100) (a sanity statement). -/
def Obligations.RenderingsOfTheSourcesExample : Prop :=
  ∀ m : LightMeasurement, LightMeasurement.construct 4 100 = some m →
    m.renderCompact = "1600 lux".toList ∧ m.renderDefault = "16 lux".toList
end

