-- ==== Sys2Proof/Laws/State.lean ====
section
/-! SUPPORT. One lemma per field of State for each update of it, so that no proof unfolds an update. -/

namespace Sys2Proof.Machine

variable (s : State) (p : Response) (e : BusEvent) (w : Command)

@[simp] theorem respond_config : (s.respond p).config = s.config := rfl
@[simp] theorem respond_program : (s.respond p).program = s.program := rfl
@[simp] theorem respond_script : (s.respond p).script = s.script := rfl
@[simp] theorem respond_draws : (s.respond p).draws = s.draws := rfl
@[simp] theorem respond_responses : (s.respond p).responses = s.responses ++ [p] := rfl
@[simp] theorem respond_busLog : (s.respond p).busLog = s.busLog := rfl

@[simp] theorem logBus_config : (s.logBus e).config = s.config := rfl
@[simp] theorem logBus_program : (s.logBus e).program = s.program := rfl
@[simp] theorem logBus_script : (s.logBus e).script = s.script := rfl
@[simp] theorem logBus_draws : (s.logBus e).draws = s.draws := rfl
@[simp] theorem logBus_responses : (s.logBus e).responses = s.responses := rfl
@[simp] theorem logBus_busLog : (s.logBus e).busLog = s.busLog ++ [e] := rfl

@[simp] theorem place_config : (s.place w).config = s.config := rfl
@[simp] theorem place_program : (s.place w).program = w :: s.program := rfl
@[simp] theorem place_script : (s.place w).script = s.script := rfl
@[simp] theorem place_draws : (s.place w).draws = s.draws := rfl
@[simp] theorem place_responses : (s.place w).responses = s.responses := rfl
@[simp] theorem place_busLog : (s.place w).busLog = s.busLog := rfl

@[simp] theorem afterReply_config : s.afterReply.config = s.config := by unfold State.afterReply; split <;> rfl
@[simp] theorem afterReply_program : s.afterReply.program = s.program := by unfold State.afterReply; split <;> rfl
@[simp] theorem afterReply_responses : s.afterReply.responses = s.responses := by unfold State.afterReply; split <;> rfl
@[simp] theorem afterReply_busLog : s.afterReply.busLog = s.busLog := by unfold State.afterReply; split <;> rfl

/-- The next reply depends on the script and the counter alone. -/
theorem nextReply_congr {s t : State} (hscript : s.script = t.script) (hdraws : s.draws = t.draws) :
    s.nextReply = t.nextReply := by
  unfold State.nextReply
  rw [hscript, hdraws]

end Sys2Proof.Machine
end

