-- ==== Sys2Proof/Laws/Ops.lean ====
section
/-! SUPPORT. What each shared operation over the state, the bus and the tables can do, said once. -/

namespace Sys2Proof.Machine

/-- A read that the environment answers. -/
theorem busRead_of_answers {addr : Addr} {s : State} {v : Word} {a : WriteAnswer} (h : s.nextReply = .answers v a) :
    busRead addr s = some (v, s.afterReply.logBus (.read addr v)) := by
  simp [busRead, h]

/-- A read that the environment never answers. -/
theorem busRead_of_silent {addr : Addr} {s : State} (h : s.nextReply = .silent) : busRead addr s = none := by
  simp [busRead, h]

/-- A write that the environment answers. -/
theorem busWrite_of_answers {addr : Addr} {w v : Word} {s : State} {a : WriteAnswer} (h : s.nextReply = .answers v a) :
    busWrite addr w s = some (a, s.afterReply.logBus (.write addr w a)) := by
  simp [busWrite, h]

/-- A write that the environment never answers. -/
theorem busWrite_of_silent {addr : Addr} {w : Word} {s : State} (h : s.nextReply = .silent) : busWrite addr w s = none := by
  simp [busWrite, h]

/-- `desc` finds a row of the table, with the address asked for. -/
theorem desc_eq_some {addr : Addr} {d : RegDesc} (h : desc addr = some d) : d ∈ registers ∧ d.addr = addr := by
  have hmem := List.mem_of_find?_eq_some h
  have hkey := List.find?_some h
  exact ⟨hmem, by simpa using hkey⟩

/-- The rows of the table, one case each. -/
theorem registers_cases {d : RegDesc} (h : d ∈ registers) :
    d = { index := 0, name := "Measurment", addr := 0x00, sizeBits := 16, access := .ro, layout := .meas } ∨
    d = { index := 1, name := "Configuration", addr := 0x01, sizeBits := 16, access := .rw, layout := .cfg } ∨
    d = { index := 2, name := "Lowlimit", addr := 0x02, sizeBits := 16, access := .rw, layout := .meas } ∨
    d = { index := 3, name := "Highlimit", addr := 0x03, sizeBits := 16, access := .rw, layout := .meas } ∨
    d = { index := 4, name := "ManufacturerID", addr := 0x7E, sizeBits := 16, access := .ro, layout := .id } ∨
    d = { index := 5, name := "DeviceID", addr := 0x7F, sizeBits := 16, access := .ro, layout := .id } := by
  simpa [registers] using h

/-- Which addresses are mapped (10_state.md R26). -/
theorem desc_isSome_iff (addr : Addr) : (desc addr).isSome = true ↔ addr ∈ ([0x00, 0x01, 0x02, 0x03, 0x7E, 0x7F] : List Addr) := by
  revert addr
  decide

/-- Which addresses are writable (10_state.md R27). -/
theorem writable_iff (addr : Addr) : writable addr = true ↔ addr ∈ ([0x01, 0x02, 0x03] : List Addr) := by
  revert addr
  decide

/-- The must-be-zero check of a command either passes its instruction on or names the opcode. -/
theorem whenZero_eq_ok {w : Command} {zero : Bool} {i j : Instr} : whenZero w zero i = .ok j ↔ zero = true ∧ i = j := by
  unfold whenZero
  split <;> simp_all

/-- A bus operation's step, when it answers at all: a reply used up, one transaction, one response. -/
theorem execRrd_next {addr : Addr} {s t : State} (h : execRrd addr s = .next t) :
    (desc addr = none ∧ t = s.respond .refuse) ∨
    ∃ v a, (desc addr).isSome = true ∧ s.nextReply = .answers v a ∧
      t = (s.afterReply.logBus (.read addr v)).respond (.okWord v) := by
  unfold execRrd at h
  split at h
  · exact .inl ⟨‹_›, by simpa using h.symm⟩
  · rename_i d hd
    cases hr : s.nextReply with
    | answers v a =>
      rw [busRead_of_answers hr] at h
      exact .inr ⟨v, a, by simp [hd], rfl, by simpa using h.symm⟩
    | silent => simp [busRead_of_silent hr] at h

/-- The same of RWR, with the gate in front. -/
theorem execRwr_next {addr : Addr} {value : Word} {s t : State} (h : execRwr addr value s = .next t) :
    (desc addr = none ∧ t = s.respond .refuse) ∨
    ((desc addr).isSome = true ∧ writable addr = false ∧ t = s.respond .accessViolation) ∨
    ∃ v a, writable addr = true ∧ s.nextReply = .answers v a ∧
      t = (s.afterReply.logBus (.write addr value a)).respond (writeResponse a) := by
  unfold execRwr at h
  split at h
  · exact .inl ⟨‹_›, by simpa using h.symm⟩
  · rename_i d hd
    split at h
    · exact .inr (.inl ⟨by simp [hd], by simp [writable, hd, ‹d.access = _›], by simpa using h.symm⟩)
    · cases hr : s.nextReply with
      | answers v a =>
        rw [busWrite_of_answers hr] at h
        exact .inr (.inr ⟨v, a, by simp [writable, hd, ‹d.access = _›], rfl, by simpa using h.symm⟩)
      | silent => simp [busWrite_of_silent hr] at h

/-- Everything `exec` can do when it gives a next state: answer, or answer after one legal transaction. -/
theorem exec_next_cases {i : Instr} {s t : State} (h : exec i s = .next t) :
    (∃ p, t = s.respond p) ∨
    ∃ e p v a, e.legal = true ∧ s.nextReply = .answers v a ∧ t = (s.afterReply.logBus e).respond p := by
  cases i with
  | rrd addr =>
    rcases execRrd_next h with ⟨_, ht⟩ | ⟨v, a, hm, hr, ht⟩
    · exact .inl ⟨_, ht⟩
    · exact .inr ⟨.read addr v, _, v, a, hm, hr, ht⟩
  | rwr addr value =>
    rcases execRwr_next h with ⟨_, ht⟩ | ⟨_, _, ht⟩ | ⟨v, a, hw, hr, ht⟩
    · exact .inl ⟨_, ht⟩
    · exact .inl ⟨_, ht⟩
    · exact .inr ⟨.write addr value a, _, v, a, hw, hr, ht⟩
  | _ => exact .inl ⟨_, (Host.Outcome.next.inj h).symm⟩

/-- The last response is the one just given. -/
@[simp] theorem lastResponse_respond (s : State) (p : Response) : (s.respond p).lastResponse = some p := by
  simp [State.lastResponse]

/-- A pseudo-operation goes on after an OK response, with its `$` (30_encoding.md R82). -/
theorem issueAll_cons_of_ok {c : Word → Instr} {rest : List (Word → Instr)} {dollar : Word} {s t : State} {p : Response}
    (hstep : step (s.place (encode (c dollar))) = .next t) (hlast : t.lastResponse = some p) (hok : p.status = .ok) :
    issueAll (c :: rest) dollar s = issueAll rest p.dollar t := by
  simp [issueAll, hstep, hlast, hok]

/-- A pseudo-operation ends at the first response that is not OK (30_encoding.md R82). -/
theorem issueAll_cons_of_not_ok {c : Word → Instr} {rest : List (Word → Instr)} {dollar : Word} {s t : State} {p : Response}
    (hstep : step (s.place (encode (c dollar))) = .next t) (hlast : t.lastResponse = some p) (hok : p.status ≠ .ok) :
    issueAll (c :: rest) dollar s = .next t := by
  simp [issueAll, hstep, hlast, hok]

end Sys2Proof.Machine
end

