-- ==== Sys2Proof/Laws/PerInstr.lean ====
section
/-! SUPPORT. Statements about every instruction as syntax, one lemma per constructor. -/

namespace Sys2Proof.Laws

/-- The (match, mask) of each operation's row in spec/opcode_table.json. -/
def tableRow : Instr → Command × Command
  | .construct _ _ => (0x10000000000000, 0xFF00000000FFFF)
  | .toRaw _ _ => (0x11000000000000, 0xFF00000000FFFF)
  | .fromRaw _ => (0x12000000000000, 0xFF0000FFFFFFFF)
  | .centilux _ _ => (0x13000000000000, 0xFF00000000FFFF)
  | .lux _ _ => (0x14000000000000, 0xFF00000000FFFF)
  | .fext _ _ _ => (0x20000000000000, 0xFF0000FFFFFF00)
  | .fins _ _ _ _ => (0x21000000000000, 0xFF00000000FF00)
  | .edec _ _ => (0x22000000000000, 0xFFFFF00000FFFF)
  | .eenc _ _ => (0x23000000000000, 0xFFFFF00000FFFF)
  | .rdesc _ => (0x30000000000000, 0xFFFF00FFFFFFFF)
  | .fdesc _ _ => (0x31000000000000, 0xFFF000FFFFFFFF)
  | .rdec _ _ => (0x32000000000000, 0xFFFF000000FFFF)
  | .renc _ _ => (0x33000000000000, 0xFFFF000000FFFF)
  | .fwr _ _ _ _ => (0x34000000000000, 0xFFF00000000000)
  | .rrd _ => (0x40000000000000, 0xFFFF00FFFFFFFF)
  | .rwr _ _ => (0x41000000000000, 0xFFFF000000FFFF)

/-- Bit `i` of a word laid out as op, a, b, c. -/
theorem getLsbD_cmdWord (op : BitVec 8) (a b c : Word) (i : Nat) :
    (cmdWord op a b c).getLsbD i =
      if i < 16 then c.getLsbD i else if i < 32 then b.getLsbD (i - 16)
      else if i < 48 then a.getLsbD (i - 32) else op.getLsbD (i - 48) := by
  simp only [cmdWord, BitVec.getLsbD_append]
  split_ifs <;> first | rfl | omega

/-- A word equals another when its 56 bits do. -/
theorem command_ext {v w : Command} (h : ∀ i < 56, v.getLsbD i = w.getLsbD i) : v = w :=
  BitVec.eq_of_getLsbD_eq h

/-- Two words laid out as op, a, b, c are ANDed part by part. -/
theorem cmdWord_and (op op' : BitVec 8) (a a' b b' c c' : Word) :
    cmdWord op a b c &&& cmdWord op' a' b' c' = cmdWord (op &&& op') (a &&& a') (b &&& b') (c &&& c') := by
  apply command_ext
  intro i _
  simp only [BitVec.getLsbD_and, getLsbD_cmdWord]
  split_ifs <;> rfl

/-- A word matches a row whose mask keeps the opcode and, of each operand, only bits that are zero in it. -/
theorem matches_of_parts {op : BitVec 8} {a b c : Word} (a' b' c' : Word) {mtch mask : Command}
    (hmask : mask = cmdWord 0xFF a' b' c') (hmatch : mtch = cmdWord op 0 0 0)
    (ha : a &&& a' = 0) (hb : b &&& b' = 0) (hc : c &&& c' = 0) : cmdWord op a b c &&& mask = mtch := by
  rw [hmask, hmatch, cmdWord_and, ha, hb, hc, show op &&& 0xFF = op from BitVec.and_allOnes]

theorem packAddr_and (addr : Addr) : packAddr addr &&& 0xFF00 = 0 := by
  revert addr
  decide

theorem packFid_and (fid : Nat) : packFid fid &&& 0xFFF0 = 0 := by
  unfold packFid
  generalize BitVec.ofNat 4 fid = f
  revert f
  decide

theorem packRange_and (lo hi : Nat) : packRange lo hi &&& 0xFF00 = 0 := by
  unfold packRange
  generalize BitVec.ofNat 4 lo = l
  generalize BitVec.ofNat 4 hi = h
  revert l h
  decide

theorem packFidAddr_and (fid : Nat) (addr : Addr) : packFidAddr fid addr &&& 0xF000 = 0 := by
  unfold packFidAddr
  generalize BitVec.ofNat 4 fid = f
  apply BitVec.eq_of_getLsbD_eq
  intro i hi
  simp only [BitVec.getLsbD_and, BitVec.getLsbD_append]
  interval_cases i <;> simp

/-- The encoding of every operation, well formed or not, matches its own row of the opcode table (30_encoding.md R70). -/
def MatchesItsRow.Statement (i : Instr) : Prop := encode i &&& (tableRow i).2 = (tableRow i).1

namespace MatchesItsRow

open BitVec (and_zero zero_and)

theorem construct (e f : Word) : Statement (.construct e f) :=
  matches_of_parts 0 0 0xFFFF rfl rfl and_zero and_zero zero_and

theorem toRaw (e f : Word) : Statement (.toRaw e f) :=
  matches_of_parts 0 0 0xFFFF rfl rfl and_zero and_zero zero_and

theorem fromRaw (raw : Word) : Statement (.fromRaw raw) :=
  matches_of_parts 0 0xFFFF 0xFFFF rfl rfl and_zero zero_and zero_and

theorem centilux (e f : Word) : Statement (.centilux e f) :=
  matches_of_parts 0 0 0xFFFF rfl rfl and_zero and_zero zero_and

theorem lux (e f : Word) : Statement (.lux e f) :=
  matches_of_parts 0 0 0xFFFF rfl rfl and_zero and_zero zero_and

theorem fext (raw : Word) (lo hi : Nat) : Statement (.fext raw lo hi) :=
  matches_of_parts 0 0xFFFF 0xFF00 rfl rfl and_zero zero_and (packRange_and lo hi)

theorem fins (raw v : Word) (lo hi : Nat) : Statement (.fins raw v lo hi) :=
  matches_of_parts 0 0 0xFF00 rfl rfl and_zero and_zero (packRange_and lo hi)

theorem edec (fid : Nat) (p : Word) : Statement (.edec fid p) :=
  matches_of_parts 0xFFF0 0 0xFFFF rfl rfl (packFid_and fid) and_zero zero_and

theorem eenc (fid : Nat) (k : Word) : Statement (.eenc fid k) :=
  matches_of_parts 0xFFF0 0 0xFFFF rfl rfl (packFid_and fid) and_zero zero_and

theorem rdesc (addr : Addr) : Statement (.rdesc addr) :=
  matches_of_parts 0xFF00 0xFFFF 0xFFFF rfl rfl (packAddr_and addr) zero_and zero_and

theorem fdesc (fid : Nat) (addr : Addr) : Statement (.fdesc fid addr) :=
  matches_of_parts 0xF000 0xFFFF 0xFFFF rfl rfl (packFidAddr_and fid addr) zero_and zero_and

theorem rdec (addr : Addr) (raw : Word) : Statement (.rdec addr raw) :=
  matches_of_parts 0xFF00 0 0xFFFF rfl rfl (packAddr_and addr) and_zero zero_and

theorem renc (addr : Addr) (v : Word) : Statement (.renc addr v) :=
  matches_of_parts 0xFF00 0 0xFFFF rfl rfl (packAddr_and addr) and_zero zero_and

theorem fwr (fid : Nat) (addr : Addr) (base v : Word) : Statement (.fwr fid addr base v) :=
  matches_of_parts 0xF000 0 0 rfl rfl (packFidAddr_and fid addr) and_zero and_zero

theorem rrd (addr : Addr) : Statement (.rrd addr) :=
  matches_of_parts 0xFF00 0xFFFF 0xFFFF rfl rfl (packAddr_and addr) zero_and zero_and

theorem rwr (addr : Addr) (v : Word) : Statement (.rwr addr v) :=
  matches_of_parts 0xFF00 0 0xFFFF rfl rfl (packAddr_and addr) and_zero zero_and

end MatchesItsRow
end Sys2Proof.Laws
end

