-- ==== Sys2Proof/Laws/Values.lean ====
section
/-! SUPPORT. What the operand forms compute, as numbers and bit by bit, so that no proof unfolds a shift or a mask. -/

namespace Sys2Proof.Machine

theorem ones_lt (n : Nat) : ones n < 2 ^ n := by
  have := Nat.two_pow_pos n
  unfold ones
  omega

/-- A value fits a range when it is below `2^width`. -/
theorem fitsField_iff {v : Word} {lo hi : Nat} : fitsField v lo hi = true ↔ v.toNat < 2 ^ (hi - lo + 1) := by
  have := Nat.two_pow_pos (hi - lo + 1)
  rw [fitsField, decide_eq_true_iff, ones]
  omega

/-- The bits of a number with `n` ones at the bottom. -/
theorem getLsbD_ofNat_ones (n i : Nat) : (BitVec.ofNat 16 (ones n)).getLsbD i = (decide (i < 16) && decide (i < n)) := by
  simp [BitVec.getLsbD_ofNat, ones, Nat.testBit_two_pow_sub_one]

/-- The bits of an extracted field. -/
theorem getLsbD_extractField (raw : Word) (lo hi i : Nat) :
    (extractField raw lo hi).getLsbD i = (decide (i < 16) && decide (i < hi - lo + 1) && raw.getLsbD (lo + i)) := by
  simp only [extractField, BitVec.getLsbD_and, BitVec.getLsbD_ushiftRight, getLsbD_ofNat_ones]
  exact Bool.and_comm _ _

/-- An extracted field as a number. -/
theorem toNat_extractField (raw : Word) (lo hi : Nat) :
    (extractField raw lo hi).toNat = raw.toNat / 2 ^ lo % 2 ^ (hi - lo + 1) := by
  apply Nat.eq_of_testBit_eq
  intro i
  rw [BitVec.testBit_toNat, getLsbD_extractField, Nat.testBit_mod_two_pow, Nat.testBit_div_two_pow, BitVec.testBit_toNat,
    Nat.add_comm i lo]
  by_cases hi16 : i < 16
  · simp [hi16]
  · simp [BitVec.getLsbD_of_ge raw (lo + i) (by omega)]

/-- The bits of a value with a field replaced: the field's from `v`, which fits, the others unchanged. -/
theorem getLsbD_insertField {raw v : Word} {lo hi : Nat} (hle : lo ≤ hi) (hfit : v.toNat < 2 ^ (hi - lo + 1)) (i : Nat) (hi16 : i < 16) :
    (insertField raw v lo hi).getLsbD i = if lo ≤ i ∧ i ≤ hi then v.getLsbD (i - lo) else raw.getLsbD i := by
  have hhigh : ∀ j, hi - lo + 1 ≤ j → v.getLsbD j = false := fun j hj => by
    rw [← BitVec.testBit_toNat]
    exact Nat.testBit_lt_two_pow (Nat.lt_of_lt_of_le hfit (Nat.pow_le_pow_right (by omega) hj))
  simp only [insertField, fieldMask, BitVec.getLsbD_or, BitVec.getLsbD_and, BitVec.getLsbD_not, BitVec.getLsbD_shiftLeft,
    getLsbD_ofNat_ones]
  by_cases h1 : i < lo
  · simp [h1, hi16, Nat.not_le.mpr h1]
  · by_cases h2 : i ≤ hi
    · have : i - lo < hi - lo + 1 := by omega
      simp [h1, h2, hi16, this, Nat.not_lt.mp h1, show i - lo < 16 by omega]
    · have : ¬ i - lo < hi - lo + 1 := by omega
      simp [h1, h2, hi16, hhigh (i - lo) (by omega), this]

/-- The validated pair, or none. -/
theorem construct_eq_some_iff {e f : Word} {m : LightMeasurement} :
    LightMeasurement.construct e f = some m ↔ valid e f ∧ m.exponent = e.setWidth 4 ∧ m.fractional = f.setWidth 12 := by
  unfold LightMeasurement.construct
  split
  · rename_i h
    constructor
    · rintro heq
      cases heq
      exact ⟨h, rfl, rfl⟩
    · rintro ⟨-, he, hf⟩
      cases m
      simp_all
  · simp_all

theorem construct_eq_none_iff {e f : Word} : LightMeasurement.construct e f = none ↔ ¬ valid e f := by
  unfold LightMeasurement.construct
  split <;> simp_all

/-- The two numbers of a constructed measurement are the operands. -/
theorem construct_toNat {e f : Word} {m : LightMeasurement} (h : LightMeasurement.construct e f = some m) :
    m.exponent.toNat = e.toNat ∧ m.fractional.toNat = f.toNat := by
  obtain ⟨⟨he, hf⟩, h1, h2⟩ := construct_eq_some_iff.mp h
  simp only [h1, h2, BitVec.toNat_setWidth]
  omega

/-- A concatenation of 4 and 12 bits as a number. -/
theorem toNat_append_4_12 (e : BitVec 4) (f : BitVec 12) : (e ++ f : BitVec 16).toNat = e.toNat * 4096 + f.toNat := by
  rw [BitVec.toNat_append, ← Nat.shiftLeft_add_eq_or_of_lt f.isLt, Nat.shiftLeft_eq]

/-- An LMV as a number. -/
theorem toNat_lmv (m : LightMeasurement) : m.lmv.toNat = m.exponent.toNat * 4096 + m.fractional.toNat :=
  toNat_append_4_12 _ _

/-- XOR with twelve ones is 4095 minus the number. -/
theorem toNat_xor_fracXor (f : BitVec 12) : (f ^^^ fracXor).toNat = 4095 - f.toNat := by
  have : f ^^^ fracXor = ~~~ f := by
    rw [show fracXor = BitVec.allOnes 12 from rfl, BitVec.xor_allOnes]
  rw [this, BitVec.toNat_not]

/-- A raw value as a number. -/
theorem toNat_toRaw (m : LightMeasurement) : m.toRaw.toNat = m.exponent.toNat * 4096 + (4095 - m.fractional.toNat) := by
  rw [LightMeasurement.toRaw, toNat_append_4_12, toNat_xor_fracXor]

/-- Centilux never wraps: it is the product (40_codec.md R107). -/
theorem toNat_centilux (m : LightMeasurement) : m.centilux.toNat = 2 ^ m.exponent.toNat * m.fractional.toNat := by
  have h1 : 2 ^ m.exponent.toNat ≤ 2 ^ 11 := Nat.pow_le_pow_right (by omega) m.inRange
  have h2 := m.fractional.isLt
  have h3 : 2 ^ m.exponent.toNat * m.fractional.toNat < 2 ^ 32 :=
    Nat.lt_of_le_of_lt (Nat.mul_le_mul h1 (Nat.le_of_lt h2)) (by decide)
  rw [LightMeasurement.centilux, BitVec.toNat_ofNat, Nat.one_shiftLeft, Nat.mod_eq_of_lt h3]

/-- The nearest natural number: within half a unit, and even where two are as near. -/
theorem roundHalfEven_spec (num den : Nat) (hden : 0 < den) :
    2 * (roundHalfEven num den * den) ≤ 2 * num + den ∧ 2 * num ≤ 2 * (roundHalfEven num den * den) + den ∧
    ((2 * (roundHalfEven num den * den) = 2 * num + den ∨ 2 * num = 2 * (roundHalfEven num den * den) + den) →
      roundHalfEven num den % 2 = 0) := by
  have hdiv := Nat.div_add_mod num den
  have hlt := Nat.mod_lt num hden
  have hup : (num / den + 1) * den = den * (num / den) + den := by rw [Nat.succ_mul, Nat.mul_comm]
  have heq : num / den * den = den * (num / den) := Nat.mul_comm _ _
  unfold roundHalfEven
  simp only
  split
  · rw [hup]
    omega
  · rw [heq]
    omega

end Sys2Proof.Machine
end

