-- ==== Sys2Proof/Tests/Slice0.lean ====
section
/-! SUPPORT. The model's own tests. Expected results are from spec/95_test_vectors.md (Parts 1 and 2, cited by section) or, for
words, from the operand columns of 30_encoding.md R72. The witnesses at the end meet the hypotheses of each statement. -/

open Sys2Proof Sys2Proof.Machine Sys2Proof.Claims

namespace Sys2Proof.Tests

/-! ## Ill-formed terms, one for each check of `Instr.wf` -/

theorem test_wf_fext_lo : (Instr.fext 0 16 0).wf = false := by decide
theorem test_wf_fext_hi : (Instr.fext 0 0 16).wf = false := by decide
theorem test_wf_fins_lo : (Instr.fins 0 0 16 0).wf = false := by decide
theorem test_wf_fins_hi : (Instr.fins 0 0 0 16).wf = false := by decide
theorem test_wf_edec : (Instr.edec 16 0).wf = false := by decide
theorem test_wf_eenc : (Instr.eenc 16 0).wf = false := by decide
theorem test_wf_fdesc : (Instr.fdesc 16 0).wf = false := by decide
theorem test_wf_fwr : (Instr.fwr 16 0 0 0).wf = false := by decide

/-! ## Each operation's decoding, on a word written as `op aaaa bbbb cccc` from the columns of R72 -/

theorem test_decode_construct : decode (0x10#8 ++ 0xABCD#16 ++ 0x1234#16 ++ 0x0000#16) = .ok (.construct 0xABCD 0x1234) := by decide
theorem test_decode_toRaw : decode 0x11000505550000 = .ok (.toRaw 5 0x0555) := by decide
theorem test_decode_fromRaw : decode 0x12B00100000000 = .ok (.fromRaw 0xB001) := by decide
theorem test_decode_centilux : decode 0x13000B0FFF0000 = .ok (.centilux 11 4095) := by decide
theorem test_decode_lux : decode 0x14000400640000 = .ok (.lux 4 100) := by decide
/-- `cmd.c = {0x00, hi, lo}`: hi is the upper nibble. -/
theorem test_decode_fext : decode 0x204F9B000000FC = .ok (.fext 0x4F9B 12 15) := by decide
theorem test_decode_fins : decode 0x211234ABCD00A9 = .ok (.fins 0x1234 0xABCD 9 10) := by decide
theorem test_decode_edec : decode 0x22000900010000 = .ok (.edec 9 1) := by decide
theorem test_decode_eenc : decode 0x23000800020000 = .ok (.eenc 8 2) := by decide
theorem test_decode_rdesc : decode 0x30007E00000000 = .ok (.rdesc 0x7E) := by decide
theorem test_decode_fdesc : decode 0x310A0100000000 = .ok (.fdesc 10 0x01) := by decide
theorem test_decode_rdec : decode 0x320002F00F0000 = .ok (.rdec 0x02 0xF00F) := by decide
theorem test_decode_renc : decode 0x330001C4100000 = .ok (.renc 0x01 0xC410) := by decide
/-- `cmd.a = {0x0, fid, addr}`, `cmd.b` the base, `cmd.c` the value. -/
theorem test_decode_fwr : decode 0x340801FFFF0001 = .ok (.fwr 8 0x01 0xFFFF 1) := by decide
theorem test_decode_rrd : decode 0x40007F00000000 = .ok (.rrd 0x7F) := by decide
theorem test_decode_rwr : decode 0x410003B0000000 = .ok (.rwr 0x03 0xB000) := by decide

/-- A must-be-zero bit above the address, and one in an unused operand (R73). -/
theorem test_decode_mustBeZero :
    decode 0x40010000000000 = .error (.mustBeZero 0x40) ∧ decode 0x10000400640001 = .error (.mustBeZero 0x10) := by decide

/-- The command word is the table's number; a number the row has no bits for is none. -/
theorem test_decodeTableWord :
    decodeTableWord 56 0x10000400640000 = some (.construct 4 100) ∧ decodeTableWord 48 0x10000400640000 = none := by decide

/-! ## One step of each operation (95_test_vectors.md Part 2) -/

/-- The other value of `EXP_XOR_DEC`. -/
def invertedConfig : Config := { Config.spec with expXorDec := .inverted }

/-- The other value of `RO_FIELD_POLICY`. -/
def ignoreConfig : Config := { Config.spec with roFieldPolicy := .ignore }

/-- The responses and the bus log after the one command `w`, with the environment's replies `script`. -/
def oneStep (c : Config) (script : List EnvReply) (w : Command) : Option (List Response × List BusEvent) :=
  match step { State.reset with config := c, program := [w], script := script } with
  | .next t => some (t.responses, t.busLog)
  | .fault _ => none
  | .refused _ => none

/-- The response of a command that makes no bus transaction. -/
def answer (c : Config) (w : Command) : Option Response :=
  match oneStep c [] w with
  | some ([p], []) => some p
  | _ => none

theorem test_construct_max : answer Config.spec 0x10000B0FFF0000 = some ⟨.ok, 0xBFFF⟩ := by decide
theorem test_construct_wide_exponent : answer Config.spec 0x10001000000000 = some ⟨.invalidField, 0⟩ := by decide
theorem test_toRaw : answer Config.spec 0x11000505550000 = some ⟨.ok, 0x5AAA⟩ := by decide
theorem test_toRaw_invalid : answer Config.spec 0x11000C00000000 = some ⟨.invalidField, 0⟩ := by decide
theorem test_fromRaw : answer Config.spec 0x12B00100000000 = some ⟨.ok, 0xBFFE⟩ := by decide
theorem test_fromRaw_inverted : answer invertedConfig 0x12C00000000000 = some ⟨.ok, 0x3FFF⟩ := by decide
theorem test_centilux_max : answer Config.spec 0x13000B0FFF0000 = some ⟨.ok, 0x007FF800⟩ := by decide
theorem test_lux_rounds : answer Config.spec 0x14000000010000 = some ⟨.ok, 0x3C23D70A⟩ := by decide +kernel
theorem test_lux_zero : answer Config.spec 0x14000B00000000 = some ⟨.ok, 0⟩ := by decide +kernel
theorem test_fext_top_bit : answer Config.spec 0x208000000000FF = some ⟨.ok, 1⟩ := by decide
theorem test_fext_reversed : answer Config.spec 0x2006000000009A = some ⟨.refused, 0⟩ := by decide
theorem test_fins_whole : answer Config.spec 0x211234ABCD00F0 = some ⟨.ok, 0xABCD⟩ := by decide
theorem test_fins_too_wide : answer Config.spec 0x210000000400A9 = some ⟨.refused, 0⟩ := by decide
theorem test_edec_catch_all : answer Config.spec 0x22000800030000 = some ⟨.ok, 2⟩ := by decide
theorem test_edec_too_wide : answer Config.spec 0x22000000040000 = some ⟨.refused, 0⟩ := by decide
theorem test_eenc_continuous : answer Config.spec 0x23000800020000 = some ⟨.ok, 2⟩ := by decide
theorem test_eenc_no_variant : answer Config.spec 0x23000800030000 = some ⟨.refused, 0⟩ := by decide
theorem test_rdesc_configuration : answer Config.spec 0x30000100000000 = some ⟨.ok, 0x5970⟩ := by decide
theorem test_rdesc_unmapped : answer Config.spec 0x30007D00000000 = some ⟨.refused, 0⟩ := by decide
theorem test_fdesc_flag : answer Config.spec 0x31050100000000 = some ⟨.ok, 0x0166⟩ := by decide
theorem test_fdesc_absent : answer Config.spec 0x31020000000000 = some ⟨.refused, 0⟩ := by decide
theorem test_rdec_catch_all : answer Config.spec 0x320001FFFF0000 = some ⟨.ok, 0xFDFF⟩ := by decide
theorem test_rdec_inverted : answer invertedConfig 0x3200024F9B0000 = some ⟨.ok, 0xB064⟩ := by decide
/-- `RENC 0x01, 0x0620` under both policies: the gate comes before the unencodable variant, or the variant is looked at alone. -/
theorem test_renc_reject : answer Config.spec 0x33000106200000 = some ⟨.accessViolation, 0⟩ := by decide
theorem test_renc_ignore : answer ignoreConfig 0x33000106200000 = some ⟨.refused, 0⟩ := by decide
theorem test_fwr : answer Config.spec 0x340801FFFF0001 = some ⟨.ok, 0xFBFF⟩ := by decide
theorem test_fwr_too_wide : answer Config.spec 0x34080100000004 = some ⟨.refused, 0⟩ := by decide
theorem test_rrd : oneStep Config.spec [.answers 0xCE10 .ok] 0x40000100000000 =
    some ([⟨.ok, 0xCE10⟩], [.read 0x01 0xCE10]) := by decide
theorem test_rrd_unmapped : oneStep Config.spec [.answers 0xCE10 .ok] 0x40000400000000 = some ([⟨.refused, 0⟩], []) := by decide
theorem test_rwr_error : oneStep Config.spec [.answers 0 .err] 0x410003B0000000 =
    some ([⟨.busError, 0⟩], [.write 0x03 0xB000 .err]) := by decide
theorem test_rwr_read_only : oneStep Config.spec [.answers 0 .ok] 0x41000012340000 =
    some ([⟨.accessViolation, 0⟩], []) := by decide

/-- A reserved opcode is answered REFUSED (R73). -/
theorem test_reserved_opcode : answer Config.spec 0x15000400640000 = some ⟨.refused, 0⟩ := by decide

/-- The host's own measure: the placed word is the next command. -/
theorem test_withFetchWord : (State.reset.withFetchWord 56 0x10000400640000).program = [0x10000400640000] := by decide

/-! ## Witnesses: the hypotheses of each statement are met together -/

/-- A state about to issue `w`, whose environment gives the replies `script`. -/
def hostState (w : Command) (script : List EnvReply) : State := { State.reset with program := [w], script := script }

/-- A word of opcode `op` with some must-be-zero bit set, and one with none: the two cases of `ReadsCommand`. -/
def CommandWitness (op : BitVec 8) (someSet : Command → Prop) : Prop :=
  ∃ v w : Command, (hostState v []).program = [v] ∧ v.extractLsb' 48 8 = op ∧ someSet v ∧
    (hostState w []).program = [w] ∧ w.extractLsb' 48 8 = op ∧ ¬ someSet w

/-- `CommandWitness` from the two words, the lowest must-be-zero bit or the highest set in the first. -/
theorem witness_command {op : BitVec 8} {someSet : Command → Prop} (v w : Command) (hv : v.extractLsb' 48 8 = op)
    (hset : someSet v) (hw : w.extractLsb' 48 8 = op) (hclear : ¬ someSet w) : CommandWitness op someSet :=
  ⟨v, w, rfl, hv, hset, rfl, hw, hclear⟩

theorem witness_ConstructAnswersTheBundleOfAValidPair : CommandWitness 0x10 fun w => w.extractLsb' 0 16 ≠ 0 :=
  witness_command 0x10000000008000 0x10FFFFFFFF0000 (by decide) (by decide) (by decide) (by decide)

theorem witness_ToRawPacksTheExponentAndTheInvertedFractional :
    (CommandWitness 0x11 fun w => w.extractLsb' 0 16 ≠ 0) ∧ (11 : Word).toNat ≤ 11 ∧ (4095 : Word).toNat ≤ 4095 :=
  ⟨witness_command 0x11000000000001 0x11FFFFFFFF0000 (by decide) (by decide) (by decide) (by decide), by decide, by decide⟩

theorem witness_FromRawUnpacksThenValidatesUnderBothParameters : CommandWitness 0x12 fun w => w.extractLsb' 0 32 ≠ 0 :=
  witness_command 0x12000080000000 0x12FFFF00000000 (by decide) (by decide) (by decide) (by decide)

theorem witness_CentiluxIsTheFractionalScaledByTheExponent :
    (CommandWitness 0x13 fun w => w.extractLsb' 0 16 ≠ 0) ∧ (11 : Word).toNat ≤ 11 ∧ (4095 : Word).toNat ≤ 4095 :=
  ⟨witness_command 0x13000000000001 0x13FFFFFFFF0000 (by decide) (by decide) (by decide) (by decide), by decide, by decide⟩

theorem witness_LuxIsCentiluxOverAHundredNearestBinary32 :
    (CommandWitness 0x14 fun w => w.extractLsb' 0 16 ≠ 0) ∧ ((11 : Word).toNat ≤ 11 ∧ (4095 : Word).toNat ≤ 4095) ∧
      ¬ ((12 : Word).toNat ≤ 11 ∧ (0 : Word).toNat ≤ 4095) ∧ ¬ ((0 : Word).toNat ≤ 11 ∧ (4096 : Word).toNat ≤ 4095) :=
  ⟨witness_command 0x14000000000001 0x14FFFFFFFF0000 (by decide) (by decide) (by decide) (by decide), by decide, by decide,
    by decide⟩

theorem witness_FieldExtractionShiftsAndMasks :
    CommandWitness 0x20 fun w => w.extractLsb' 16 16 ≠ 0 ∨ w.extractLsb' 8 8 ≠ 0 :=
  witness_command 0x20000000000100 0x20FFFF000000FF (by decide) (by decide) (by decide) (by decide)

theorem witness_FieldInsertionReplacesExactlyTheRange :
    (CommandWitness 0x21 fun w => w.extractLsb' 8 8 ≠ 0) ∧
      (0 ≤ 15 ∧ 15 ≤ 15 ∧ (0xFFFF : Word).toNat ≤ 2 ^ (15 - 0 + 1) - 1) ∧
      (15 ≤ 15 ∧ (1 : Word).toNat ≤ 2 ^ (15 - 15 + 1) - 1) ∧
      (10 > 9 ∨ (0 : Word).toNat > 2 ^ (9 - 10 + 1) - 1) ∧ (9 > 10 ∨ (4 : Word).toNat > 2 ^ (10 - 9 + 1) - 1) :=
  ⟨witness_command 0x21000000008000 0x21FFFFFFFF00FF (by decide) (by decide) (by decide) (by decide), by decide, by decide,
    by decide, by decide⟩

theorem witness_EnumerationDecodeResultsInFull :
    CommandWitness 0x22 fun w => w.extractLsb' 36 12 ≠ 0 ∨ w.extractLsb' 0 16 ≠ 0 :=
  witness_command 0x22001000000000 0x22000FFFFF0000 (by decide) (by decide) (by decide) (by decide)

theorem witness_EnumerationEncodeResultsInFull :
    CommandWitness 0x23 fun w => w.extractLsb' 36 12 ≠ 0 ∨ w.extractLsb' 0 16 ≠ 0 :=
  witness_command 0x23001000000000 0x23000FFFFF0000 (by decide) (by decide) (by decide) (by decide)

theorem witness_RegisterDescriptorLookupAnswersTheSixWords :
    CommandWitness 0x30 fun w => w.extractLsb' 40 8 ≠ 0 ∨ w.extractLsb' 0 32 ≠ 0 :=
  witness_command 0x30010000000000 0x3000FF00000000 (by decide) (by decide) (by decide) (by decide)

theorem witness_FieldDescriptorLookupResultsInFull :
    CommandWitness 0x31 fun w => w.extractLsb' 44 4 ≠ 0 ∨ w.extractLsb' 0 32 ≠ 0 :=
  witness_command 0x31100000000000 0x310FFF00000000 (by decide) (by decide) (by decide) (by decide)

theorem witness_RegisterDecodeByLayout :
    CommandWitness 0x32 fun w => w.extractLsb' 40 8 ≠ 0 ∨ w.extractLsb' 0 16 ≠ 0 :=
  witness_command 0x32010000000000 0x3200FFFFFF0000 (by decide) (by decide) (by decide) (by decide)

theorem witness_RegisterEncodeThroughTheGates :
    CommandWitness 0x33 fun w => w.extractLsb' 40 8 ≠ 0 ∨ w.extractLsb' 0 16 ≠ 0 :=
  witness_command 0x33010000000000 0x3300FFFFFF0000 (by decide) (by decide) (by decide) (by decide)

theorem witness_FieldWriteThroughTheGates : CommandWitness 0x34 fun w => w.extractLsb' 44 4 ≠ 0 :=
  witness_command 0x34100000000000 0x340FFFFFFFFFFF (by decide) (by decide) (by decide) (by decide)

theorem witness_ReadRegisterForwardsTheEnvironmentsAnswer :
    (CommandWitness 0x40 fun w => w.extractLsb' 40 8 ≠ 0 ∨ w.extractLsb' 0 32 ≠ 0) ∧
      ((0x7F : Addr) ∈ mappedAddrs ∧ (hostState 0 [.answers 0xFFFF .err]).nextReply = .answers 0xFFFF .err) ∧
      (0x04 : Addr) ∉ mappedAddrs :=
  ⟨witness_command 0x40010000000000 0x4000FF00000000 (by decide) (by decide) (by decide) (by decide), by decide, by decide⟩

theorem witness_WriteRegisterForwardsTheWholeValueOnceGated :
    (CommandWitness 0x41 fun w => w.extractLsb' 40 8 ≠ 0 ∨ w.extractLsb' 0 16 ≠ 0) ∧
      ((0x03 : Addr) ∈ writableAddrs ∧ (hostState 0 [.answers 0 .ok]).nextReply = .answers 0 .ok) ∧
      ((0x01 : Addr) ∈ writableAddrs ∧ (hostState 0 [.answers 0 .err]).nextReply = .answers 0 .err) ∧
      (0x00 : Addr) ∈ readOnlyAddrs ∧ (0x7D : Addr) ∉ mappedAddrs :=
  ⟨witness_command 0x41010000000000 0x4100FFFFFF0000 (by decide) (by decide) (by decide) (by decide), by decide, by decide,
    by decide, by decide⟩

theorem witness_EachReplyIsUsedOnce :
    (hostState 0 [.silent, .answers 1 .ok]).script = .silent :: [.answers 1 .ok] ∧ (hostState 0 []).script = [] ∧
      exec (.rdesc 0x01) State.reset = .next (State.reset.respond ⟨.ok, 0x5970⟩) ∧
      exec (.rrd 0x7E) (hostState 0 [.answers 0x5449 .ok]) =
        .next (((hostState 0 []).logBus (.read 0x7E 0x5449)).respond ⟨.ok, 0x5449⟩) :=
  ⟨rfl, rfl, rfl, rfl⟩

theorem witness_DecodeOfEncodeIsTheInstruction :
    (Instr.fins 0xFFFF 0xFFFF 15 15).wf = true ∧ (Instr.fwr 15 0xFF 0xFFFF 0xFFFF).wf = true := by decide

theorem witness_EncodeOfDecodeIsTheCommand : decode 0x340FFFFFFFFFFF = .ok (.fwr 15 0xFF 0xFFFF 0xFFFF) := by decide

theorem witness_WordsOfNoRowAreRefusedWithoutEffect :
    (hostState 0x15000000000000 []).program = [0x15000000000000] ∧
      (∀ row ∈ tableRows, (0x15000000000000 : Command) &&& row.2 ≠ row.1) ∧
      (∀ row ∈ tableRows, (0x10000000000001 : Command) &&& row.2 ≠ row.1) :=
  ⟨rfl, by simp [tableRows], by simp [tableRows]⟩

theorem witness_StepRunsTheDecodedCommand :
    (hostState 0x40007F00000000 []).program = [0x40007F00000000] ∧ decode 0x40007F00000000 = .ok (.rrd 0x7F) ∧
      State.reset.program = [] := by decide

theorem witness_EnumerationsDecodeEveryPatternOfTheirWidth :
    convertionModeEnum.wellFormed 2 = true ∧ ((0x0, .shutdown) : Word × Variant) ∈ convertionModeEnum.entries ∧
      (∀ x ∈ convertionModeEnum.entries, x.1 ≠ (0x3 : Word)) ∧ (0x3 : Word).toNat < 2 ^ 2 := by decide

theorem witness_LuxDivisionIsCorrectlyRounded : (8386560 : Result).toNat ≤ 8386560 ∧ (25 : Result) ≠ 0 := by decide

theorem witness_CentiluxIsMonotoneWithOneMaximum :
    (10 : Word).toNat < (11 : Word).toNat ∧ (11 : Word).toNat ≤ 11 ∧ (4094 : Word).toNat < (4095 : Word).toNat ∧
      (4095 : Word).toNat ≤ 4095 ∧ (0 : Word).toNat = 0 := by decide

theorem witness_PairOperationsShareTheWholeWidthCheck :
    Instr.lux 12 0 ∈ [Instr.construct 12 0, .toRaw 12 0, .centilux 12 0, .lux 12 0] ∧ 11 < (12 : Word).toNat ∧
      4095 < (0x8000 : Word).toNat ∧ (11 : Word).toNat ≤ 11 ∧ (4095 : Word).toNat ≤ 4095 := by decide

theorem witness_EncodeThenDecodeOfAPair :
    (4 ≤ (4 : Word).toNat ∧ (4 : Word).toNat ≤ 11) ∧ (3 : Word).toNat ≤ 3 ∧ (4095 : Word).toNat ≤ 4095 := by decide

/-- What FROM_RAW answers in every state with given parameters, from the response it builds. -/
theorem gives_fromRaw {c : Config} {raw : Word} {p : Response} (h : fromRawResponse c raw = p) : Gives c (.fromRaw raw) p := by
  rintro s rfl
  rw [← h]
  rfl

/-- The same of RDEC. -/
theorem gives_rdec {c : Config} {addr : Addr} {raw : Word} {p : Response} (h : decodeRegisterResponse c addr raw = p) :
    Gives c (.rdec addr raw) p := by
  rintro s rfl
  rw [← h]
  rfl

theorem witness_DecodeThenEncodeOfARawValue :
    decodedExponent .plain 0xBFFF ≤ 11 ∧ 11 < decodedExponent .plain 0xC000 ∧ decodedExponent .inverted 0x4000 ≤ 11 ∧
      11 < decodedExponent .inverted 0x3FFF ∧
      Gives ⟨.inverted, .reject⟩ (.fromRaw 0x4F9B) (okNat ((11 : Word).toNat * 4096 + (100 : Word).toNat)) :=
  ⟨by decide, by decide, by decide, by decide, gives_fromRaw (by decide)⟩

theorem witness_ReturnedBundlesHoldValidExponents :
    Gives Config.spec (.construct 11 4095) ⟨.ok, 0xBFFF⟩ ∧ Gives invertedConfig (.fromRaw 0x4F9B) ⟨.ok, 0xB064⟩ ∧
      (0x02 : Addr) ∈ ([0x00, 0x02, 0x03] : List Addr) ∧ Gives Config.spec (.rdec 0x02 0x4F9B) ⟨.ok, 0x4064⟩ :=
  ⟨fun _ _ => rfl, gives_fromRaw (by decide), by decide, gives_rdec (by decide)⟩

theorem witness_ExtractionAndInsertionLaws :
    (9 ≤ 10 ∧ 10 ≤ 15 ∧ (3 : Word).toNat ≤ 2 ^ (10 - 9 + 1) - 1) ∧
      Gives Config.spec (.fext 0x0600 9 10) (okNat (3 : Word).toNat) ∧
      (11 ≤ 15 ∧ 15 ≤ 15 ∧ 10 < 11) ∧ Gives Config.spec (.fext 0x0600 11 15) (okNat (0 : Word).toNat) ∧
      (0 : Word).toNat ≤ 2 ^ (10 - 9 + 1) - 1 ∧ Gives Config.spec (.fins 0x0600 0 9 10) (okNat (0 : Word).toNat) :=
  ⟨by decide, fun _ _ => rfl, by decide, fun _ _ => rfl, by decide, fun _ _ => rfl⟩

theorem witness_EnumerationCodingLaws :
    (8, 2, 3) ∈ [(0, 2, 4), (8, 2, 3), (9, 1, 2)] ∧ (2 : Word).toNat < 3 ∧ (3 : Word).toNat < 2 ^ 2 := by decide

theorem witness_RegisterMapLaws :
    Gives ignoreConfig (.rdec 0x01 0x0620) (okNat (0x0420 : Word).toNat) ∧
      (0x0400 : Word) = (if (0x0620 : Word).extractLsb' 9 2 = 3 then 0x0620 &&& 0xFC1F#16 else 0x0620 &&& 0xFE1F#16) ∧
      (0xBFFF : Word).toNat / 4096 ≤ 11 ∧ ((0x01 : Addr) ∈ writableAddrs ∧ (writeFields 0x01)[8]? = some (9, 10, false)) ∧
      Gives Config.spec (.fwr 8 0x01 0xFFFF 1) (okNat (0xFBFF : Word).toNat) :=
  ⟨fun _ _ => rfl, by decide, by decide, by decide, fun _ _ => rfl⟩

theorem witness_ReadOnlyRegistersRejectEveryWrite :
    ((0x7E : Addr) ∈ readOnlyAddrs ∧ Instr.rwr 0x7E 1 ∈ [Instr.renc 0x7E 1, .fwr 0 0x7E 1 0, .rwr 0x7E 1]) ∧
      ((0x01 : Addr) ∈ writableAddrs ∧ (hostState 0 [.answers 0 .err]).nextReply ≠ .silent) ∧
      ((0x00 : Addr) ∈ mappedAddrs ∧ Instr.rrd 0x00 ∈ [Instr.rdec 0x00 0xC000, .rrd 0x00] ∧
        exec (.rdec 0x00 0xC000) State.reset = .next (State.reset.respond ⟨.invalidField, 0⟩) ∧
        (State.reset.respond ⟨.invalidField, 0⟩).responses = State.reset.responses ++ [⟨.invalidField, 0⟩]) ∧
      ((0x04 : Addr) ∉ mappedAddrs ∧ Instr.fwr 0 0x04 1 0 ∈ [Instr.renc 0x04 1, .fwr 0 0x04 1 0, .rwr 0x04 1]) ∧
      (hostState 0x33010000000000 []).program = [0x33010000000000] ∧ WriteCommandWithSetBit 0x33010000000000 ∧
      WriteCommandWithSetBit 0x41000000008000 ∧ WriteCommandWithSetBit 0x34100000000000 :=
  ⟨by decide, by decide, ⟨by decide, by decide, gives_rdec (c := Config.spec) (by decide) State.reset rfl, rfl⟩, by decide, rfl,
    .inl (by decide), .inl (by decide), .inr (by decide)⟩

theorem witness_ReadOnlyFieldsFollowThePolicy :
    (4 ≤ 4 ∧ 4 ≤ 7) ∧ 7 ≤ 7 ∧
      ((0x0100 : Word) &&& 0x01E0#16 ≠ 0 ∧ (0x0020 : Word) &&& 0x01E0#16 ≠ 0 ∧ State.reset.config.roFieldPolicy = .reject) ∧
      ({ State.reset with config := ignoreConfig } : State).config.roFieldPolicy = .ignore ∧
      ((0x01 : Addr) ∈ writableAddrs ∧ ¬ ((0x01 : Addr) = 0x01 ∧ 4 ≤ 3 ∧ 3 ≤ 7) ∧ ¬ ((0x01 : Addr) = 0x01 ∧ 4 ≤ 8 ∧ 8 ≤ 7) ∧
        exec (.fwr 3 0x01 0 1) State.reset = .next (State.reset.respond ⟨.ok, 0x0010⟩)) ∧
      exec (.rwr 0x01 0x01E0) (hostState 0 [.answers 0 .ok]) =
        .next (((hostState 0 []).logBus (.write 0x01 0x01E0 .ok)).respond ⟨.ok, 0⟩) :=
  ⟨by decide, by decide, by decide, rfl, ⟨by decide, by decide, by decide, rfl⟩, rfl⟩

theorem witness_StatusesOfEachOperation :
    (hostState 0x15000000000000 []).program = [0x15000000000000] ∧
      step (hostState 0x15000000000000 []) = .next { State.reset with responses := [⟨.refused, 0⟩] } ∧
      Status.busError ∈ statusTable 0x41 ∧ Status.refused ∈ statusTable 0xFF :=
  ⟨rfl, rfl, by decide, by decide⟩

theorem witness_FirstFailingCheckGivesTheStatus :
    (hostState 0x34040100000010 []).program = [0x34040100000010] ∧
      step (hostState 0x34040100000010 []) = .next { State.reset with responses := [⟨.accessViolation, 0⟩] } ∧
      decode 0x34040100000010 = .ok (.fwr 4 0x01 0 0x10) :=
  ⟨rfl, rfl, by decide⟩

theorem witness_FailedCommandsHaveNoEffect :
    (hostState 0x41000000000000 []).program = [0x41000000000000] ∧
      step (hostState 0x41000000000000 []) = .next { State.reset with responses := [⟨.accessViolation, 0⟩] } ∧
      ({ State.reset with responses := [⟨.accessViolation, 0⟩] } : State).responses =
        (hostState 0x41000000000000 []).responses ++ [⟨.accessViolation, 0⟩] ∧
      Status.accessViolation ≠ .ok ∧ Status.accessViolation ≠ .busError :=
  ⟨rfl, rfl, rfl, by decide, by decide⟩

theorem witness_EveryCommandIsAnsweredUnlessTheBusIsSilent :
    touchesBus (.lux 0 0) = false ∧ State.reset.nextReply ≠ .silent ∧
      step (hostState 0x40000000000000 [.silent]) = .fault .busSilent :=
  ⟨rfl, by decide, rfl⟩

theorem witness_SilentBusLeavesTheCommandStuck :
    (hostState 0 [.silent]).nextReply = .silent ∧ (0x7F : Addr) ∈ mappedAddrs ∧ (0x03 : Addr) ∈ writableAddrs := by decide

theorem witness_ReadAfterWriteMayReturnAnything :
    (0x02 : Addr) ∈ writableAddrs ∧
      ({ State.reset with program := [encode (.rwr 0x02 0x4F9B), encode (.rrd 0x02), encode (.rrd 0x02)],
                          script := [.answers 0 .ok, .answers 1 .ok, .answers 2 .ok] } : State).program =
        [encode (.rwr 0x02 0x4F9B), encode (.rrd 0x02), encode (.rrd 0x02)] := by decide

theorem witness_OneResponsePerCommand :
    (hostState 0x30000100000000 []).program = [0x30000100000000] ∧
      step (hostState 0x30000100000000 []) = .next { State.reset with responses := [⟨.ok, 0x5970⟩] } :=
  ⟨rfl, rfl⟩

theorem witness_BusPortDiscipline :
    step (hostState 0x40000000000000 [.answers 0x4F9B .ok]) =
      .next { State.reset with responses := [⟨.ok, 0x4F9B⟩], busLog := [.read 0x00 0x4F9B] } :=
  rfl

/-- States that differ in what they answered before: with one reply to come, and with different replies to a command that does
not touch the bus. -/
theorem witness_TheBlockKeepsNothingBetweenCommands :
    (hostState 0x40000000000000 [.silent]).program.head? =
        ((hostState 0x40000000000000 [.silent]).respond ⟨.ok, 7⟩).program.head? ∧
      (hostState 0x40000000000000 [.silent]).nextReply = ((hostState 0x40000000000000 [.silent]).respond ⟨.ok, 7⟩).nextReply ∧
      (hostState 0x30000000000000 [.silent]).config = (hostState 0x30000000000000 []).config ∧
      (hostState 0x30000000000000 [.silent]).program.head? = (hostState 0x30000000000000 []).program.head? ∧
      (hostState 0x30000000000000 [.silent]).program.head? = some 0x30000000000000 ∧
      decode 0x30000000000000 = .ok (.rdesc 0x00) ∧ touchesBus (.rdesc 0x00) = false := by decide

theorem witness_ParametersReachOnlyTheirOperations :
    touchesBus (.rdesc 0x01) = false ∧ Gives Config.spec (.rdesc 0x01) ⟨.ok, 0x5970⟩ ∧
      (∀ raw : Word, Instr.rdesc 0x01 ≠ .fromRaw raw) ∧
      (∀ (a : Addr) (raw : Word), a ∈ ([0x00, 0x02, 0x03] : List Addr) → Instr.rdesc 0x01 ≠ .rdec a raw) ∧
      (∀ (a : Addr) (v : Word), Instr.rdesc 0x01 ≠ .renc a v) ∧
      (∀ (fid : Nat) (a : Addr) (b v : Word), Instr.rdesc 0x01 ≠ .fwr fid a b v) :=
  ⟨rfl, fun _ _ => rfl, nofun, nofun, nofun, nofun⟩

theorem witness_StepKeepsTheInvariant :
    (hostState 0x40000000000000 [.answers 0x4F9B .ok]).Inv ∧
      step (hostState 0x40000000000000 [.answers 0x4F9B .ok]) =
        .next { State.reset with responses := [⟨.ok, 0x4F9B⟩], busLog := [.read 0x00 0x4F9B] } :=
  ⟨⟨nofun, nofun, Nat.le_refl _⟩, rfl⟩

theorem witness_RunsOnlyExtendTheOutcome :
    Sys2Proof.core.run 2 (hostState 0x40000000000000 [.answers 0x4F9B .ok]) =
      .next ({ State.reset with responses := [⟨.ok, 0x4F9B⟩], busLog := [.read 0x00 0x4F9B] } : State) :=
  rfl

theorem witness_PseudoOperationsIssueTheirCommandsInOrder :
    ((11 : Word).toNat ≤ 11 ∧ (4095 : Word).toNat ≤ 4095 ∧ State.reset.config.expXorDec = .plain) ∧
      ((0x01 : Addr) ∈ writableAddrs ∧ 8 < 16 ∧
        (hostState 0 [.answers 0xFFFF .ok, .answers 0 .err]).script = .answers 0xFFFF .ok :: .answers 0 .err :: [] ∧
        fwrAnswer (hostState 0 []).config.roFieldPolicy 8 0x01 0xFFFF 1 = okNat (0xFBFF : Word).toNat) ∧
      ¬ ((12 : Word).toNat ≤ 11 ∧ (0 : Word).toNat ≤ 4095) ∧
      ((0x03 : Addr) ∈ writableAddrs ∧ (0x7F : Addr) ∈ mappedAddrs ∧
        (hostState 0 [.answers 0x4F9B .err]).script = .answers 0x4F9B .err :: []) ∧
      ((0x00 : Addr) ∉ writableAddrs ∧ (0x04 : Addr) ∉ mappedAddrs ∧ 4 < 16 ∧
        (fwrAnswer (hostState 0 []).config.roFieldPolicy 4 0x01 0x4F9B 0).status ≠ .ok ∧
        (fwrAnswer (hostState 0 []).config.roFieldPolicy 0 0x7F 0x4F9B 0).status ≠ .ok) := by decide

/-- R82 on the source's pair under 0xF: the round trip answers TO_RAW's raw value, then (11, 100) (R103, R108). -/
theorem test_rtrip_inverted : Runs (.rtrip 4 100) { State.reset with config := invertedConfig } [] [⟨.ok, 0x4F9B⟩, ⟨.ok, 0xB064⟩] [] :=
  rfl

/-- R82: SETF of a read-only flag reads once and stops. -/
theorem test_setf_stops : Runs (.setf 4 0x01 1) (hostState 0 [.answers 0 .ok, .silent]) [.silent] [⟨.ok, 0⟩, ⟨.accessViolation, 0⟩]
    [.read 0x01 0] :=
  rfl

theorem witness_RenderingsOfTheSourcesExample : (LightMeasurement.construct 4 100).isSome = true := by decide

end Sys2Proof.Tests
end

section
/-! PROOF. What R24, R28 and R35 of 10_state.md say of the measurements and the tables, for any layout or enumeration of the
stated form. -/

namespace Sys2Proof.Machine

/-- `countP = 1` says of a list that one member satisfies the test and no other does. -/
theorem exists_unique_of_countP_eq_one {α : Type} {test : α → Bool} {xs : List α} (h : xs.countP test = 1) :
    ∃ x ∈ xs, test x = true ∧ ∀ y ∈ xs, test y = true → y = x := by
  obtain ⟨x, hx⟩ := List.length_eq_one_iff.mp (List.countP_eq_length_filter.symm.trans h)
  have hiff : ∀ y, y ∈ xs ∧ test y = true ↔ y = x := fun y => by
    rw [← List.mem_filter, hx, List.mem_singleton]
  obtain ⟨hmem, htest⟩ := (hiff x).mpr rfl
  exact ⟨x, hmem, htest, fun y hy hty => (hiff y).mp ⟨hy, hty⟩⟩

theorem covers_iff {f : FieldDesc} {i : Nat} : f.covers i = true ↔ f.lo ≤ i ∧ i ≤ f.hi := by
  simp [FieldDesc.covers]

theorem fieldDesc_wellFormed_iff {f : FieldDesc} :
    f.wellFormed = true ↔ f.lo ≤ f.hi ∧ f.hi ≤ 15 ∧ (f.kind = .boolean → f.lo = f.hi) := by
  simp [FieldDesc.wellFormed, and_assoc, imp_iff_not_or]

theorem layout_tiles_iff {l : Layout} :
    l.tiles = true ↔ (∀ f ∈ l.fields, f.wellFormed = true) ∧ ∀ i < 16, l.fields.countP (·.covers i) = 1 := by
  simp [Layout.tiles]

/-- The three layouts pass the test (10_state.md R29 to R31). -/
theorem layout_tiles (l : Layout) : l.tiles = true := by
  cases l <;> decide

/-- The form R35 gives an enumeration of `width` bits. -/
theorem enumDesc_wellFormed_iff {e : EnumDesc} {width : Nat} :
    e.wellFormed width = true ↔
      (∀ x ∈ e.entries, x.1.toNat < 2 ^ width) ∧ (e.entries.map Prod.fst).Nodup ∧
        (e.catchAll.isSome = true ∨ e.entries.length = 2 ^ width) := by
  simp [EnumDesc.wellFormed, and_assoc]

/-- A pattern that is listed once decodes to the variant it is listed with (R35). -/
theorem variantOf_of_mem {e : EnumDesc} {x : Word × Variant} (hnodup : (e.entries.map Prod.fst).Nodup) (hx : x ∈ e.entries) :
    e.variantOf x.1 = some x.2 := by
  unfold EnumDesc.variantOf
  cases hfind : e.entries.find? (fun y => y.1 == x.1) with
  | none => exact absurd (List.find?_eq_none.mp hfind x hx) (by simp)
  | some y =>
    have hkey : y.1 = x.1 := by simpa using List.find?_some hfind
    have hyx : y = x := List.inj_on_of_nodup_map hnodup (List.mem_of_find?_eq_some hfind) hx hkey
    rw [hyx]

/-- A pattern that is not listed decodes to the catch-all, if there is one (R35). -/
theorem variantOf_of_unlisted {e : EnumDesc} {p : Word} (h : ∀ x ∈ e.entries, x.1 ≠ p) :
    e.variantOf p = e.catchAll.map CatchAll.variant := by
  have hfind : e.entries.find? (fun x => x.1 == p) = none := by simpa [List.find?_eq_none] using h
  simp [EnumDesc.variantOf, hfind]

/-- Pigeonhole: `n` different numbers below `n` are all of them. -/
theorem mem_of_nodup_of_length_eq {ks : List Nat} {n k : Nat} (hnodup : ks.Nodup) (hlt : ∀ j ∈ ks, j < n)
    (hlength : ks.length = n) (hk : k < n) : k ∈ ks := by
  have hsub : ks.Subperm (List.range n) := List.subperm_of_subset hnodup fun j hj => List.mem_range.mpr (hlt j hj)
  have hperm : ks.Perm (List.range n) := hsub.perm_of_length_le (by simp [hlength])
  exact hperm.mem_iff.mpr (List.mem_range.mpr hk)

/-- Where as many patterns are listed as the width has, every pattern of the width is listed (R35). -/
theorem exists_mem_entries_of_length_eq {e : EnumDesc} {width : Nat} {p : Word}
    (hlt : ∀ x ∈ e.entries, x.1.toNat < 2 ^ width) (hnodup : (e.entries.map Prod.fst).Nodup)
    (hlength : e.entries.length = 2 ^ width) (hp : p.toNat < 2 ^ width) : ∃ x ∈ e.entries, x.1 = p := by
  have hlt' : ∀ j ∈ (e.entries.map Prod.fst).map BitVec.toNat, j < 2 ^ width :=
    List.forall_mem_map.mpr (List.forall_mem_map.mpr hlt)
  have hmem : p.toNat ∈ (e.entries.map Prod.fst).map BitVec.toNat :=
    mem_of_nodup_of_length_eq (hnodup.map fun _ _ => BitVec.eq_of_toNat_eq) hlt' (by simpa using hlength) hp
  simpa [BitVec.toNat_inj] using hmem

/-- Decoding an enumeration is total on the patterns of its width (R35). -/
theorem variantOf_isSome {e : EnumDesc} {width : Nat} {p : Word} (he : e.wellFormed width = true)
    (hp : p.toNat < 2 ^ width) : (e.variantOf p).isSome = true := by
  obtain ⟨hlt, hnodup, htotal⟩ := enumDesc_wellFormed_iff.mp he
  by_cases hlisted : ∃ x ∈ e.entries, x.1 = p
  · obtain ⟨x, hx, rfl⟩ := hlisted
    simp [variantOf_of_mem hnodup hx]
  · have hcatch : e.catchAll.isSome = true :=
      htotal.resolve_right fun hlength => hlisted (exists_mem_entries_of_length_eq hlt hnodup hlength hp)
    rw [variantOf_of_unlisted fun x hx hxp => hlisted ⟨x, hx, hxp⟩, Option.isSome_map, hcatch]

theorem construct_isSome_iff {e f : Word} : (LightMeasurement.construct e f).isSome = true ↔ valid e f := by
  rw [Option.isSome_iff_ne_none, Ne, construct_eq_none_iff, not_not]

/-- Every measurement's bundle reads back as that measurement. -/
@[simp] theorem ofLmv_lmv (m : LightMeasurement) : LightMeasurement.ofLmv m.lmv = some m := by
  have hrange := m.inRange
  have hf := m.fractional.isLt
  have he : (extractField m.lmv 12 15).toNat = m.exponent.toNat := by
    rw [toNat_extractField, toNat_lmv]
    omega
  have hfrac : (extractField m.lmv 0 11).toNat = m.fractional.toNat := by
    rw [toNat_extractField, toNat_lmv]
    omega
  refine construct_eq_some_iff.mpr ⟨⟨by omega, by omega⟩, ?_, ?_⟩
  · exact BitVec.eq_of_toNat_eq (by rw [BitVec.toNat_setWidth, he]; omega)
  · exact BitVec.eq_of_toNat_eq (by rw [BitVec.toNat_setWidth, hfrac]; omega)

/-- A bundle is that of at most one measurement, the one it is read as (30_encoding.md R76). -/
theorem ofLmv_eq_some_iff {w : Word} {m : LightMeasurement} : LightMeasurement.ofLmv w = some m ↔ m.lmv = w := by
  constructor
  · intro h
    obtain ⟨he, hf⟩ := construct_toNat h
    apply BitVec.eq_of_toNat_eq
    rw [toNat_lmv, he, hf, toNat_extractField, toNat_extractField]
    omega
  · rintro rfl
    exact ofLmv_lmv m

/-- The words that are read as a measurement are those with an exponent nibble of at most 11. -/
theorem ofLmv_isSome_iff {w : Word} : (LightMeasurement.ofLmv w).isSome = true ↔ w.toNat < 49152 := by
  rw [LightMeasurement.ofLmv, construct_isSome_iff, valid, toNat_extractField, toNat_extractField]
  omega

theorem lmv_injective : Function.Injective LightMeasurement.lmv := fun m₁ m₂ h =>
  Option.some.inj (by rw [← ofLmv_lmv m₁, h, ofLmv_lmv])

end Sys2Proof.Machine

open Sys2Proof Sys2Proof.Machine

/-- Settles O28: a listed pattern by uniqueness of the patterns, an unlisted one by the search's failure, totality by counting. -/
theorem enumerationsDecodeEveryPatternOfTheirWidth : Obligations.EnumerationsDecodeEveryPatternOfTheirWidth := by
  refine ⟨fun e width x he hx => ?_, fun e p => variantOf_of_unlisted, fun e width p => variantOf_isSome, ?_⟩
  · obtain ⟨-, hnodup, -⟩ := enumDesc_wellFormed_iff.mp he
    exact variantOf_of_mem hnodup hx
  · decide

/-- Settles O29: reading a bundle back inverts making it, and succeeds exactly below 12 * 4096. -/
theorem measurementsAreTheValidPairs : Obligations.MeasurementsAreTheValidPairs := by
  refine ⟨fun e f => construct_isSome_iff, lmv_injective, fun w => ?_⟩
  rw [← ofLmv_isSome_iff, Option.isSome_iff_exists]
  exact exists_congr fun m => ofLmv_eq_some_iff.symm

/-- Settles O27: each layout passes the test `Layout.tiles`, which says what R28 says. -/
theorem layoutsTileTheRegister : Obligations.LayoutsTileTheRegister := by
  intro l
  obtain ⟨hfields, hbits⟩ := layout_tiles_iff.mp (layout_tiles l)
  refine ⟨fun f hf => fieldDesc_wellFormed_iff.mp (hfields f hf), fun i hi => ?_⟩
  obtain ⟨f, hf, hcovers, hunique⟩ := exists_unique_of_countP_eq_one (hbits i hi)
  obtain ⟨hlo, hhi⟩ := covers_iff.mp hcovers
  exact ⟨f, hf, hlo, hhi, fun g hg hglo hghi => hunique g hg (covers_iff.mpr ⟨hglo, hghi⟩)⟩

end

section
/-! PROOF. The block keeps nothing between commands (10_state.md R20): what a command does is one of three effects, chosen by
the parameters, the command word and the environment's next reply, and never by what the state has recorded. -/

namespace Sys2Proof.Machine

/-- What a command can do to a state (60_exceptions.md R177, 43_bus.md R162, 70_reset_and_hazards.md R195). -/
inductive Effect where
  /-- Give a response and change nothing else. -/
  | answer (p : Response)
  /-- Use up a reply in one transaction, then give a response. -/
  | transact (e : BusEvent) (p : Response)
  /-- Stop, since the environment is silent. -/
  | stop (f : Fault)

/-- The outcome of an effect on a state. -/
def Effect.run : Effect → State → Outcome
  | .answer p, s => .next (s.respond p)
  | .transact e p, s => .next ((s.afterReply.logBus e).respond p)
  | .stop f, _ => .fault f

/-- A command that does not touch the bus gives a response chosen by the parameters. -/
theorem exec_effect_of_not_touchesBus {i : Instr} (c : Config) (h : touchesBus i = false) :
    ∃ p : Response, ∀ s : State, s.config = c → exec i s = (Effect.answer p).run s := by
  cases i with
  | rrd | rwr => cases h
  | fromRaw raw => exact ⟨fromRawResponse c raw, fun s hs => hs ▸ rfl⟩
  | rdec addr raw => exact ⟨decodeRegisterResponse c addr raw, fun s hs => hs ▸ rfl⟩
  | renc addr bundle => exact ⟨encodeRegisterResponse c addr bundle, fun s hs => hs ▸ rfl⟩
  | fwr fid addr base value => exact ⟨writeFieldResponse c fid addr base value, fun s hs => hs ▸ rfl⟩
  | _ => exact ⟨_, fun _ _ => rfl⟩

/-- The effect of RRD is chosen by the address and the reply (43_bus.md R160). -/
theorem execRrd_effect (addr : Addr) (r : EnvReply) :
    ∃ a : Effect, ∀ s : State, s.nextReply = r → execRrd addr s = a.run s := by
  cases hd : desc addr with
  | none => exact ⟨.answer .refuse, fun s _ => by simp [execRrd, hd, Effect.run]⟩
  | some d =>
    cases r with
    | answers v a =>
      exact ⟨.transact (.read addr v) (.okWord v), fun s hs => by simp [execRrd, hd, busRead_of_answers hs, Effect.run]⟩
    | silent => exact ⟨.stop .busSilent, fun s hs => by simp [execRrd, hd, busRead_of_silent hs, Effect.run]⟩

/-- The effect of RWR is chosen by the address, the value and the reply (43_bus.md R161). -/
theorem execRwr_effect (addr : Addr) (value : Word) (r : EnvReply) :
    ∃ a : Effect, ∀ s : State, s.nextReply = r → execRwr addr value s = a.run s := by
  cases hd : desc addr with
  | none => exact ⟨.answer .refuse, fun s _ => by simp [execRwr, hd, Effect.run]⟩
  | some d =>
    cases ha : d.access with
    | ro => exact ⟨.answer .accessViolation, fun s _ => by simp [execRwr, hd, ha, Effect.run]⟩
    | rw =>
      cases r with
      | answers v a =>
        exact ⟨.transact (.write addr value a) (writeResponse a), fun s hs => by
          simp [execRwr, hd, ha, busWrite_of_answers hs, Effect.run]⟩
      | silent => exact ⟨.stop .busSilent, fun s hs => by simp [execRwr, hd, ha, busWrite_of_silent hs, Effect.run]⟩

/-- The effect of an instruction is chosen by the parameters and the reply. -/
theorem exec_effect (i : Instr) (c : Config) (r : EnvReply) :
    ∃ a : Effect, ∀ s : State, s.config = c → s.nextReply = r → exec i s = a.run s := by
  cases hi : touchesBus i with
  | false =>
    obtain ⟨p, hp⟩ := exec_effect_of_not_touchesBus c hi
    exact ⟨.answer p, fun s hc _ => hp s hc⟩
  | true =>
    cases i with
    | rrd addr => exact (execRrd_effect addr r).imp fun a ha s _ => ha s
    | rwr addr value => exact (execRwr_effect addr value r).imp fun a ha s _ => ha s
    | _ => cases hi

theorem runCommand_of_decode {w : Command} {i : Instr} (h : decode w = .ok i) (s : State) : runCommand w s = exec i s := by
  simp [runCommand, h]

/-- The effect of a command word is chosen by the parameters and the reply; a word that is no operation is refused (R73). -/
theorem runCommand_effect (w : Command) (c : Config) (r : EnvReply) :
    ∃ a : Effect, ∀ s : State, s.config = c → s.nextReply = r → runCommand w s = a.run s := by
  cases hw : decode w with
  | error err => exact ⟨.answer .refuse, fun s _ _ => by simp [runCommand, hw, Effect.run]⟩
  | ok i =>
    obtain ⟨a, ha⟩ := exec_effect i c r
    exact ⟨a, fun s hc hr => (runCommand_of_decode hw s).trans (ha s hc hr)⟩

/-- The state once the host has issued its next command. -/
def State.issued (s : State) : State := { s with program := s.program.tail }

@[simp] theorem issued_config (s : State) : s.issued.config = s.config := rfl
@[simp] theorem issued_responses (s : State) : s.issued.responses = s.responses := rfl
@[simp] theorem issued_busLog (s : State) : s.issued.busLog = s.busLog := rfl
@[simp] theorem issued_nextReply (s : State) : s.issued.nextReply = s.nextReply := nextReply_congr rfl rfl

/-- A step with a command to issue runs it in the state in which it has been issued (70_reset_and_hazards.md R193). -/
theorem step_of_head?_eq_some {s : State} {w : Command} (h : s.program.head? = some w) : step s = runCommand w s.issued := by
  obtain ⟨rest, hrest⟩ := List.head?_eq_some_iff.mp h
  simp [step, nextCommand, State.issued, hrest]

/-- A step with no command to issue leaves the state as it is. -/
theorem step_of_program_nil {s : State} (h : s.program = []) : step s = .next s := by
  simp [step, nextCommand, h]

/-- Two outcomes that add the same responses and the same transactions to their states, or stop with the same fault. -/
def ShowAlike (s₁ s₂ : State) (o₁ o₂ : Outcome) : Prop :=
  (∃ (t₁ t₂ : State) (ps : List Response) (es : List BusEvent),
    o₁ = .next t₁ ∧ o₂ = .next t₂ ∧
    t₁.responses = s₁.responses ++ ps ∧ t₂.responses = s₂.responses ++ ps ∧
    t₁.busLog = s₁.busLog ++ es ∧ t₂.busLog = s₂.busLog ++ es) ∨
  (∃ f : Fault, o₁ = .fault f ∧ o₂ = .fault f)

/-- Idle steps show nothing. -/
theorem showAlike_next (s₁ s₂ : State) : ShowAlike s₁ s₂ (.next s₁) (.next s₂) :=
  .inl ⟨s₁, s₂, [], [], by simp⟩

/-- One effect shows the same on any two states, issuing their commands aside. -/
theorem Effect.showAlike (a : Effect) (s₁ s₂ : State) : ShowAlike s₁ s₂ (a.run s₁.issued) (a.run s₂.issued) := by
  cases a with
  | answer p => exact .inl ⟨_, _, [p], [], rfl, rfl, by simp⟩
  | transact e p => exact .inl ⟨_, _, [p], [e], rfl, rfl, by simp⟩
  | stop f => exact .inr ⟨f, rfl, rfl⟩

/-- Two states whose next command has one and the same effect step alike. -/
theorem step_showAlike {s₁ s₂ : State} {w : Command} {a : Effect}
    (h₁ : s₁.program.head? = some w) (h₂ : s₂.program.head? = some w)
    (ha₁ : runCommand w s₁.issued = a.run s₁.issued) (ha₂ : runCommand w s₂.issued = a.run s₂.issued) :
    ShowAlike s₁ s₂ (step s₁) (step s₂) := by
  rw [step_of_head?_eq_some h₁, step_of_head?_eq_some h₂, ha₁, ha₂]
  exact a.showAlike s₁ s₂

end Sys2Proof.Machine

open Sys2Proof Sys2Proof.Machine

/-- Settles O51: the effect of the next command is fixed by the parameters and the reply, by the parameters alone where the
command does not touch the bus, and one effect shows the same on both states. -/
theorem theBlockKeepsNothingBetweenCommands : Obligations.TheBlockKeepsNothingBetweenCommands := by
  intro s₁ s₂ hconfig hhead hreply
  change ShowAlike s₁ s₂ (step s₁) (step s₂)
  cases h₁ : s₁.program.head? with
  | none =>
    have hidle₁ := step_of_program_nil (List.head?_eq_none_iff.mp h₁)
    have hidle₂ := step_of_program_nil (List.head?_eq_none_iff.mp (hhead.symm.trans h₁))
    rw [hidle₁, hidle₂]
    exact showAlike_next s₁ s₂
  | some w =>
    have h₂ := hhead.symm.trans h₁
    rcases hreply with hreply | ⟨w', i, hw', hdecode, hbus⟩
    · obtain ⟨a, ha⟩ := runCommand_effect w s₂.config s₂.nextReply
      have ha₁ := ha s₁.issued (by simp [hconfig]) (by simp [hreply])
      have ha₂ := ha s₂.issued (by simp) (by simp)
      exact step_showAlike h₁ h₂ ha₁ ha₂
    · obtain rfl : w = w' := Option.some.inj (h₁.symm.trans hw')
      obtain ⟨p, hp⟩ := exec_effect_of_not_touchesBus s₂.config hbus
      have hp₁ := hp s₁.issued (by simp [hconfig])
      have hp₂ := hp s₂.issued (by simp)
      rw [← runCommand_of_decode hdecode] at hp₁ hp₂
      exact step_showAlike h₁ h₂ hp₁ hp₂

end

section
/-! PROOF. The memory rules (20_memory.md): a register's value is its two bytes, byte 0 the low one (R52); and the environment is
under no law (R57), so what a write put on the bus fixes nothing of what later reads bring back. -/

namespace Sys2Proof.Machine

/-- Byte 0 is the value's remainder modulo 256. -/
theorem toNat_lowByte (v : Word) : (v.extractLsb' 0 8).toNat = v.toNat % 256 := by
  simp

/-- Byte 1 is the value's quotient by 256. -/
theorem toNat_highByte (v : Word) : (v.extractLsb' 8 8).toNat = v.toNat / 256 := by
  have hlt := v.isLt
  rw [BitVec.extractLsb'_toNat, Nat.shiftRight_eq_div_pow]
  omega

/-- Assembling two bytes puts byte 1 above byte 0. -/
theorem registerOfBytes_eq_append (b0 b1 : BitVec 8) : registerOfBytes b0 b1 = b1 ++ b0 := by
  rw [registerOfBytes, BitVec.or_comm, ← BitVec.setWidth_append_eq_shiftLeft_setWidth_or, BitVec.setWidth_eq]

/-- Taking the bytes undoes assembling them. -/
@[simp] theorem registerBytes_registerOfBytes (b0 b1 : BitVec 8) : registerBytes (registerOfBytes b0 b1) = [b0, b1] := by
  rw [registerOfBytes_eq_append, registerBytes, BitVec.extractLsb'_append_eq_right, BitVec.extractLsb'_append_eq_left]

/-! ### The fields of a command word laid out from its parts (30_encoding.md R70) -/

@[simp] theorem cmdOp_cmdWord (op : BitVec 8) (a b c : Word) : cmdOp (cmdWord op a b c) = op :=
  calc (op ++ a ++ b ++ c).extractLsb' 48 8
      = (op ++ a ++ b).extractLsb' 32 8 := BitVec.extractLsb'_append_eq_of_le (by decide)
    _ = (op ++ a).extractLsb' 16 8 := BitVec.extractLsb'_append_eq_of_le (by decide)
    _ = op := BitVec.extractLsb'_append_eq_left

@[simp] theorem cmdA_cmdWord (op : BitVec 8) (a b c : Word) : cmdA (cmdWord op a b c) = a :=
  calc (op ++ a ++ b ++ c).extractLsb' 32 16
      = (op ++ a ++ b).extractLsb' 16 16 := BitVec.extractLsb'_append_eq_of_le (by decide)
    _ = (op ++ a).extractLsb' 0 16 := BitVec.extractLsb'_append_eq_of_le (by decide)
    _ = a := BitVec.extractLsb'_append_eq_right

@[simp] theorem cmdB_cmdWord (op : BitVec 8) (a b c : Word) : cmdB (cmdWord op a b c) = b :=
  calc (op ++ a ++ b ++ c).extractLsb' 16 16
      = (op ++ a ++ b).extractLsb' 0 16 := BitVec.extractLsb'_append_eq_of_le (by decide)
    _ = b := BitVec.extractLsb'_append_eq_right

@[simp] theorem cmdC_cmdWord (op : BitVec 8) (a b c : Word) : cmdC (cmdWord op a b c) = c :=
  BitVec.extractLsb'_append_eq_right

@[simp] theorem packAddr_addr (addr : Addr) : (packAddr addr).extractLsb' 0 8 = addr :=
  BitVec.extractLsb'_append_eq_right

@[simp] theorem packAddr_mustBeZero (addr : Addr) : (packAddr addr).extractLsb' 8 8 = 0#8 :=
  BitVec.extractLsb'_append_eq_left

/-- The block reads an encoded RRD as that RRD (30_encoding.md R72, R80). -/
theorem decode_encode_rrd (addr : Addr) : decode (encode (.rrd addr)) = .ok (.rrd addr) := by
  simp [decode, encode, whenZero, operandAddr]

/-- The same of RWR. -/
theorem decode_encode_rwr (addr : Addr) (value : Word) : decode (encode (.rwr addr value)) = .ok (.rwr addr value) := by
  simp [decode, encode, whenZero, operandAddr]

/-! ### A bus command that the environment answers, and runs of such commands -/

@[simp] theorem afterReply_script (s : State) : s.afterReply.script = s.script.tail := by
  unfold State.afterReply
  split <;> simp [*]

/-- The next reply is the script's first, where it has one. -/
theorem nextReply_of_script {s : State} {r : EnvReply} {replies : List EnvReply} (h : s.script = r :: replies) :
    s.nextReply = r := by
  simp [State.nextReply, h]

/-- The state after a command that made the transaction `e` and was answered `p`. -/
def State.transacted (s : State) (e : BusEvent) (p : Response) : State := (s.issued.afterReply.logBus e).respond p

section
variable (s : State) (e : BusEvent) (p : Response)

@[simp] theorem transacted_program : (s.transacted e p).program = s.program.tail := by
  simp [State.transacted, State.issued]

@[simp] theorem transacted_script : (s.transacted e p).script = s.script.tail := by
  simp [State.transacted, State.issued]

@[simp] theorem transacted_responses : (s.transacted e p).responses = s.responses ++ [p] := by
  simp [State.transacted]

end

/-- RRD of a mapped register, answered (43_bus.md R160). -/
theorem execRrd_of_answers {addr : Addr} {s : State} {v : Word} {a : WriteAnswer} (hmapped : mapped addr = true)
    (hreply : s.nextReply = .answers v a) :
    execRrd addr s = .next ((s.afterReply.logBus (.read addr v)).respond (.okWord v)) := by
  obtain ⟨d, hd⟩ := Option.isSome_iff_exists.mp hmapped
  simp [execRrd, hd, busRead_of_answers hreply]

/-- The row of a writable register. -/
theorem writable_iff_exists {addr : Addr} : writable addr = true ↔ ∃ d, desc addr = some d ∧ d.access = .rw := by
  cases hd : desc addr <;> simp [writable, hd]

theorem mapped_of_writable {addr : Addr} (h : writable addr = true) : mapped addr = true := by
  obtain ⟨d, hd, -⟩ := writable_iff_exists.mp h
  simp [mapped, hd]

/-- RWR of a writable register, answered (43_bus.md R161). -/
theorem execRwr_of_answers {addr : Addr} {value v : Word} {s : State} {a : WriteAnswer} (hwritable : writable addr = true)
    (hreply : s.nextReply = .answers v a) :
    execRwr addr value s = .next ((s.afterReply.logBus (.write addr value a)).respond (writeResponse a)) := by
  obtain ⟨d, hd, haccess⟩ := writable_iff_exists.mp hwritable
  simp [execRwr, hd, haccess, busWrite_of_answers hreply]

/-- A step whose next command is an encoded instruction executes it. -/
theorem step_of_decode_encode {s : State} {i : Instr} {rest : List Command} (hdecode : decode (encode i) = .ok i)
    (hprogram : s.program = encode i :: rest) : step s = exec i s.issued := by
  rw [step_of_head?_eq_some (List.head?_eq_some_iff.mpr ⟨rest, hprogram⟩), runCommand_of_decode hdecode]

/-- A step that issues RRD of a mapped register and finds an answer in the script. -/
theorem step_rrd_of_script {s : State} {addr : Addr} {v : Word} {a : WriteAnswer} {rest : List Command}
    {replies : List EnvReply} (hmapped : mapped addr = true) (hprogram : s.program = encode (.rrd addr) :: rest)
    (hscript : s.script = .answers v a :: replies) : step s = .next (s.transacted (.read addr v) (.okWord v)) :=
  (step_of_decode_encode (decode_encode_rrd addr) hprogram).trans
    (execRrd_of_answers hmapped (s := s.issued) (nextReply_of_script hscript))

/-- The same of RWR of a writable register. -/
theorem step_rwr_of_script {s : State} {addr : Addr} {value v : Word} {a : WriteAnswer} {rest : List Command}
    {replies : List EnvReply} (hwritable : writable addr = true) (hprogram : s.program = encode (.rwr addr value) :: rest)
    (hscript : s.script = .answers v a :: replies) :
    step s = .next (s.transacted (.write addr value a) (writeResponse a)) :=
  (step_of_decode_encode (decode_encode_rwr addr value) hprogram).trans
    (execRwr_of_answers hwritable (s := s.issued) (nextReply_of_script hscript))

/-- A run whose first step gives a next state goes on from there. -/
theorem run_succ_of_step {k : Nat} {s t : State} (h : step s = .next t) :
    Sys2Proof.core.run (k + 1) s = Sys2Proof.core.run k t := by
  have hcore : Sys2Proof.core.step s = .next t := h
  simp only [Host.Core.run, hcore]

/-- Reads of one register return, one after another, whatever values the environment answers with (20_memory.md R57). -/
theorem run_reads {addr : Addr} (hmapped : mapped addr = true) {values : List Word} {s : State}
    (hprogram : s.program = values.map fun _ => encode (.rrd addr))
    (hscript : s.script = values.map fun v => .answers v .ok) :
    ∃ t : State, Sys2Proof.core.run values.length s = .next t ∧ t.responses = s.responses ++ values.map Response.okWord := by
  induction values generalizing s with
  | nil => exact ⟨s, rfl, by simp⟩
  | cons v vs ih =>
    have hstep := step_rrd_of_script hmapped hprogram hscript
    obtain ⟨t, hrun, hresponses⟩ := ih (s := s.transacted (.read addr v) (.okWord v)) (by simp [hprogram]) (by simp [hscript])
    exact ⟨t, (run_succ_of_step hstep).trans hrun, by simp [hresponses]⟩

/-- A value returned whole is returned as its number (30_encoding.md R71). -/
theorem okWord_eq_okNat (v : Word) : Response.okWord v = Claims.okNat v.toNat := by
  rw [Response.okWord, Response.ok, Claims.okNat, BitVec.ofNat_toNat]

end Sys2Proof.Machine

open Sys2Proof Sys2Proof.Machine

/-- Settles O26: the bytes are the remainder and the quotient by 256, and assembling them is appending them. -/
theorem registerBytesAreLittleEndian : Obligations.RegisterBytesAreLittleEndian := by
  refine ⟨fun v => ⟨_, _, rfl, ?_⟩, registerBytes_registerOfBytes⟩
  rw [toNat_lowByte, toNat_highByte, Nat.mod_add_div]

/-- Settles O48: the environment that accepts the write and answers the reads with the two values, whatever was written. -/
theorem readAfterWriteMayReturnAnything : Obligations.ReadAfterWriteMayReturnAnything := by
  intro addr written first second haddr
  refine ⟨[.answers 0 .ok, .answers first .ok, .answers second .ok], fun s hprogram hscript => ?_⟩
  have hwritable : writable addr = true := (writable_iff addr).mpr haddr
  have hwrite := step_rwr_of_script hwritable hprogram hscript
  obtain ⟨t, hreads, hresponses⟩ := run_reads (mapped_of_writable hwritable) (values := [first, second])
    (s := s.transacted (.write addr written .ok) (Claims.okNat 0)) (by simp [hprogram]) (by simp [hscript])
  exact ⟨t, (run_succ_of_step hwrite).trans hreads, by simpa [okWord_eq_okNat] using hresponses⟩

end

section
/-! PROOF. The command format (30_encoding.md R70 to R73): an opcode's row says which operand bits must be zero and how the rest is
read. The decoder accepts a word exactly when a row accepts it, no word is accepted by two rows, and reading inverts writing. -/

namespace Sys2Proof

/-- A row of R72: an opcode, its must-be-zero bits of `cmd.a`, `cmd.b` and `cmd.c` (R73), and the instruction it stands for. -/
structure Format where
  op : BitVec 8
  maskA : Word
  maskB : Word
  maskC : Word
  read : Command → Instr

/-- The sixteen rows of R72. -/
def formats : List Format :=
  [ ⟨0x10, 0, 0, 0xFFFF, fun w => .construct (cmdA w) (cmdB w)⟩,
    ⟨0x11, 0, 0, 0xFFFF, fun w => .toRaw (cmdA w) (cmdB w)⟩,
    ⟨0x12, 0, 0xFFFF, 0xFFFF, fun w => .fromRaw (cmdA w)⟩,
    ⟨0x13, 0, 0, 0xFFFF, fun w => .centilux (cmdA w) (cmdB w)⟩,
    ⟨0x14, 0, 0, 0xFFFF, fun w => .lux (cmdA w) (cmdB w)⟩,
    ⟨0x20, 0, 0xFFFF, 0xFF00, fun w => .fext (cmdA w) (operandLo w) (operandHi w)⟩,
    ⟨0x21, 0, 0, 0xFF00, fun w => .fins (cmdA w) (cmdB w) (operandLo w) (operandHi w)⟩,
    ⟨0x22, 0xFFF0, 0, 0xFFFF, fun w => .edec (operandEnumFid w) (cmdB w)⟩,
    ⟨0x23, 0xFFF0, 0, 0xFFFF, fun w => .eenc (operandEnumFid w) (cmdB w)⟩,
    ⟨0x30, 0xFF00, 0xFFFF, 0xFFFF, fun w => .rdesc (operandAddr w)⟩,
    ⟨0x31, 0xF000, 0xFFFF, 0xFFFF, fun w => .fdesc (operandFid w) (operandAddr w)⟩,
    ⟨0x32, 0xFF00, 0, 0xFFFF, fun w => .rdec (operandAddr w) (cmdB w)⟩,
    ⟨0x33, 0xFF00, 0, 0xFFFF, fun w => .renc (operandAddr w) (cmdB w)⟩,
    ⟨0x34, 0xF000, 0, 0, fun w => .fwr (operandFid w) (operandAddr w) (cmdB w) (cmdC w)⟩,
    ⟨0x40, 0xFF00, 0xFFFF, 0xFFFF, fun w => .rrd (operandAddr w)⟩,
    ⟨0x41, 0xFF00, 0, 0xFFFF, fun w => .rwr (operandAddr w) (cmdB w)⟩ ]

/-- A word is a command of the row: its opcode, and zero in every must-be-zero bit. -/
def Format.Accepts (f : Format) (w : Command) : Prop :=
  cmdOp w = f.op ∧ cmdA w &&& f.maskA = 0 ∧ cmdB w &&& f.maskB = 0 ∧ cmdC w &&& f.maskC = 0

/-! ### Masks, slices and packed operands -/

/-- A mask of the bits from `k` up finds nothing exactly when the slice from `k` up is zero. -/
theorem and_allOnes_shiftLeft_eq_zero_iff {x : Word} {k : Nat} :
    x &&& (BitVec.allOnes 16 <<< k) = 0#16 ↔ x.extractLsb' k (16 - k) = 0#(16 - k) := by
  constructor
  · intro h
    apply BitVec.eq_of_getLsbD_eq
    intro i hi
    have hbit := congrArg (BitVec.getLsbD · (k + i)) h
    simpa [-BitVec.reduceAllOnes, hi, show k + i < 16 by omega] using hbit
  · intro h
    apply BitVec.eq_of_getLsbD_eq
    intro i hi
    by_cases hik : i < k
    · simp [hik]
    · have hbit := congrArg (BitVec.getLsbD · (i - k)) h
      simpa [-BitVec.reduceAllOnes, hi, hik, show i - k < 16 - k by omega, show k + (i - k) = i by omega] using hbit

@[simp] theorem and_0xFFFF_eq_zero_iff {x : Word} : x &&& 0xFFFF#16 = 0#16 ↔ x = 0#16 := by
  rw [show x &&& 0xFFFF#16 = x from BitVec.and_allOnes]

@[simp] theorem and_0xFFF0_eq_zero_iff {x : Word} : x &&& 0xFFF0#16 = 0#16 ↔ x.extractLsb' 4 12 = 0#12 :=
  and_allOnes_shiftLeft_eq_zero_iff (k := 4)

@[simp] theorem and_0xFF00_eq_zero_iff {x : Word} : x &&& 0xFF00#16 = 0#16 ↔ x.extractLsb' 8 8 = 0#8 :=
  and_allOnes_shiftLeft_eq_zero_iff (k := 8)

@[simp] theorem and_0xF000_eq_zero_iff {x : Word} : x &&& 0xF000#16 = 0#16 ↔ x.extractLsb' 12 4 = 0#4 :=
  and_allOnes_shiftLeft_eq_zero_iff (k := 12)

@[simp] theorem packFid_fid (fid : Nat) : (packFid fid).extractLsb' 0 4 = BitVec.ofNat 4 fid :=
  BitVec.extractLsb'_append_eq_right

@[simp] theorem packFid_mustBeZero (fid : Nat) : (packFid fid).extractLsb' 4 12 = 0#12 :=
  BitVec.extractLsb'_append_eq_left

@[simp] theorem packFidAddr_addr (fid : Nat) (addr : Addr) : (packFidAddr fid addr).extractLsb' 0 8 = addr :=
  BitVec.extractLsb'_append_eq_right

@[simp] theorem packFidAddr_fid (fid : Nat) (addr : Addr) : (packFidAddr fid addr).extractLsb' 8 4 = BitVec.ofNat 4 fid :=
  calc (0#4 ++ BitVec.ofNat 4 fid ++ addr).extractLsb' 8 4
      = (0#4 ++ BitVec.ofNat 4 fid).extractLsb' 0 4 := BitVec.extractLsb'_append_eq_of_le (by decide)
    _ = BitVec.ofNat 4 fid := BitVec.extractLsb'_append_eq_right

@[simp] theorem packFidAddr_mustBeZero (fid : Nat) (addr : Addr) : (packFidAddr fid addr).extractLsb' 12 4 = 0#4 :=
  calc (0#4 ++ BitVec.ofNat 4 fid ++ addr).extractLsb' 12 4
      = (0#4 ++ BitVec.ofNat 4 fid).extractLsb' 4 4 := BitVec.extractLsb'_append_eq_of_le (by decide)
    _ = 0#4 := BitVec.extractLsb'_append_eq_left

@[simp] theorem packRange_lo (lo hi : Nat) : (packRange lo hi).extractLsb' 0 4 = BitVec.ofNat 4 lo :=
  BitVec.extractLsb'_append_eq_right

@[simp] theorem packRange_hi (lo hi : Nat) : (packRange lo hi).extractLsb' 4 4 = BitVec.ofNat 4 hi :=
  calc (0#8 ++ BitVec.ofNat 4 hi ++ BitVec.ofNat 4 lo).extractLsb' 4 4
      = (0#8 ++ BitVec.ofNat 4 hi).extractLsb' 0 4 := BitVec.extractLsb'_append_eq_of_le (by decide)
    _ = BitVec.ofNat 4 hi := BitVec.extractLsb'_append_eq_right

@[simp] theorem packRange_mustBeZero (lo hi : Nat) : (packRange lo hi).extractLsb' 8 8 = 0#8 :=
  calc (0#8 ++ BitVec.ofNat 4 hi ++ BitVec.ofNat 4 lo).extractLsb' 8 8
      = (0#8 ++ BitVec.ofNat 4 hi).extractLsb' 4 8 := BitVec.extractLsb'_append_eq_of_le (by decide)
    _ = 0#8 := BitVec.extractLsb'_append_eq_left

/-- An address operand is packed from the address read from it. -/
@[simp] theorem packAddr_operandAddr {w : Command} (h : (cmdA w).extractLsb' 8 8 = 0#8) : packAddr (operandAddr w) = cmdA w := by
  rw [packAddr, operandAddr, ← h]
  exact BitVec.extractLsb'_append_extractLsb'

@[simp] theorem packFid_operandEnumFid {w : Command} (h : (cmdA w).extractLsb' 4 12 = 0#12) : packFid (operandEnumFid w) = cmdA w := by
  rw [packFid, operandEnumFid, BitVec.ofNat_toNat, BitVec.setWidth_eq, ← h]
  exact BitVec.extractLsb'_append_extractLsb'

@[simp] theorem packFidAddr_operands {w : Command} (h : (cmdA w).extractLsb' 12 4 = 0#4) :
    packFidAddr (operandFid w) (operandAddr w) = cmdA w := by
  rw [packFidAddr, operandFid, operandAddr, BitVec.ofNat_toNat, BitVec.setWidth_eq, ← h,
    BitVec.extractLsb'_append_extractLsb'_eq_extractLsb' (by decide)]
  exact BitVec.extractLsb'_append_extractLsb'

@[simp] theorem packRange_operands {w : Command} (h : (cmdC w).extractLsb' 8 8 = 0#8) :
    packRange (operandLo w) (operandHi w) = cmdC w := by
  rw [packRange, operandLo, operandHi, BitVec.ofNat_toNat, BitVec.ofNat_toNat, BitVec.setWidth_eq, BitVec.setWidth_eq, ← h,
    BitVec.extractLsb'_append_extractLsb'_eq_extractLsb' (by decide)]
  exact BitVec.extractLsb'_append_extractLsb'

@[simp] theorem operandEnumFid_lt (w : Command) : operandEnumFid w < 16 := BitVec.isLt _
@[simp] theorem operandFid_lt (w : Command) : operandFid w < 16 := BitVec.isLt _
@[simp] theorem operandLo_lt (w : Command) : operandLo w < 16 := BitVec.isLt _
@[simp] theorem operandHi_lt (w : Command) : operandHi w < 16 := BitVec.isLt _

/-- A word is laid out from its own fields (R70). -/
@[simp] theorem cmdWord_fields (w : Command) : cmdWord (cmdOp w) (cmdA w) (cmdB w) (cmdC w) = w := by
  rw [cmdWord, cmdOp, cmdA, cmdB, cmdC, BitVec.extractLsb'_append_extractLsb'_eq_extractLsb' (by decide),
    BitVec.extractLsb'_append_extractLsb'_eq_extractLsb' (by decide)]
  exact BitVec.extractLsb'_append_extractLsb'

/-- Words are laid out alike from like fields only. -/
theorem cmdWord_inj {op op' : BitVec 8} {a a' b b' c c' : Word} :
    cmdWord op a b c = cmdWord op' a' b' c' ↔ op = op' ∧ a = a' ∧ b = b' ∧ c = c' := by
  constructor
  · intro h
    exact ⟨by simpa using congrArg cmdOp h, by simpa using congrArg cmdA h, by simpa using congrArg cmdB h,
      by simpa using congrArg cmdC h⟩
  · rintro ⟨rfl, rfl, rfl, rfl⟩
    rfl

/-! ### The decoder, row by row -/

/-- The decoder compares opcodes as numbers. -/
theorem cmdOp_eq_iff {w : Command} {op : BitVec 8} : cmdOp w = op ↔ (cmdOp w).toNat = op.toNat :=
  BitVec.toNat_inj.symm

/-- The decoder accepts a word exactly when a row does, and reads it as that row says (R73). -/
theorem decode_eq_ok_iff {w : Command} {i : Instr} : decode w = .ok i ↔ ∃ f ∈ formats, f.Accepts w ∧ f.read w = i := by
  simp only [formats, List.mem_cons, List.not_mem_nil, or_false, exists_eq_or_imp, exists_eq_left, Format.Accepts, cmdOp_eq_iff]
  unfold decode
  split
  case h_17 => simp_all -- no row has this opcode
  all_goals -- the row with this opcode decides
    rename_i hop
    simp [hop, Machine.whenZero_eq_ok, and_assoc]

/-- What a row reads is well formed: its numbers are slices of four bits (R80). -/
theorem wf_read {f : Format} (hf : f ∈ formats) (w : Command) : (f.read w).wf = true := by
  revert f
  simp [formats, Instr.wf]

/-- What a row reads is written in the fields it was read from. -/
theorem encode_read {f : Format} {w : Command} (hf : f ∈ formats) (h : f.Accepts w) : encode (f.read w) = w := by
  obtain ⟨hop, ha, hb, hc⟩ := h
  have hparts : encode (f.read w) = cmdWord f.op (cmdA w) (cmdB w) (cmdC w) := by
    clear hop
    revert f
    simp +contextual [formats, encode]
  rw [hparts, ← hop, cmdWord_fields]

/-- The block reads the encoding of a well-formed instruction as that instruction (R72, R80): each operand is read from where it
was packed, and a number below 16 survives its four bits. -/
theorem decode_encode {i : Instr} (h : i.wf = true) : decode (encode i) = .ok i := by
  cases i
  all_goals
    simp only [Instr.wf, Bool.and_eq_true, decide_eq_true_eq] at h
    simp [decode, encode, whenZero, operandAddr, operandEnumFid, operandFid, operandLo, operandHi, Nat.mod_eq_of_lt, h]

/-! ### The opcode table -/

/-- The row's entry in the opcode table, as (match, mask). -/
def Format.row (f : Format) : Command × Command := (cmdWord f.op 0 0 0, cmdWord 0xFF f.maskA f.maskB f.maskC)

/-- The opcode table lists the rows of R72. -/
theorem tableRows_eq : Claims.tableRows = formats.map Format.row := by
  decide

/-- A word matches a row of the opcode table exactly when the row accepts it (R70). -/
theorem matches_row_iff {f : Format} {w : Command} : w &&& f.row.2 = f.row.1 ↔ f.Accepts w := by
  conv => lhs; lhs; lhs; rw [← cmdWord_fields w]
  rw [Format.row, Laws.cmdWord_and, cmdWord_inj, show cmdOp w &&& 0xFF = cmdOp w from BitVec.and_allOnes]
  rfl

/-- No opcode has two rows. -/
theorem formats_pairwise_op_ne : formats.Pairwise fun f g => f.op ≠ g.op := by
  simp [formats]

/-- In a list whose members exclude each other, at most one satisfies the test. -/
theorem countP_le_one_of_pairwise {α : Type} {test : α → Bool} {xs : List α}
    (h : xs.Pairwise fun x y => ¬ (test x = true ∧ test y = true)) : xs.countP test ≤ 1 := by
  induction h with
  | nil => simp
  | @cons x xs hx _ ih =>
    rw [List.countP_cons]
    split
    case isTrue htest =>
      have hnone : xs.countP test = 0 := List.countP_eq_zero.mpr fun y hy hty => hx y hy ⟨htest, hty⟩
      rw [hnone]
    case isFalse => exact ih

/-- A word matches no row or one. -/
theorem countP_tableRows_le_one (w : Command) : (Claims.tableRows.countP fun row => w &&& row.2 == row.1) ≤ 1 := by
  rw [tableRows_eq, List.countP_map]
  refine countP_le_one_of_pairwise (formats_pairwise_op_ne.imp fun hne hboth => hne ?_)
  simp only [Function.comp_apply, beq_iff_eq, matches_row_iff] at hboth
  obtain ⟨⟨hf, -⟩, ⟨hg, -⟩⟩ := hboth
  exact hf.symm.trans hg

/-- A word is an operation exactly when it matches a row (R73). -/
theorem exists_decode_iff {w : Command} : (∃ i, decode w = .ok i) ↔ ∃ row ∈ Claims.tableRows, w &&& row.2 = row.1 := by
  simp only [tableRows_eq, List.mem_map, decode_eq_ok_iff]
  constructor
  · rintro ⟨-, f, hf, haccepts, -⟩
    exact ⟨f.row, ⟨f, hf, rfl⟩, matches_row_iff.mpr haccepts⟩
  · rintro ⟨-, ⟨f, hf, rfl⟩, hmatch⟩
    exact ⟨_, f, hf, matches_row_iff.mp hmatch, rfl⟩

/-! ### Words that are no operation -/

namespace Machine

/-- A word that does not decode is refused without effect (R73). -/
theorem runCommand_of_error {w : Command} {err : DecodeError} (h : decode w = .error err) (s : State) :
    runCommand w s = .next (s.respond .refuse) := by
  simp [runCommand, h]

/-- The response word's upper three bits are the status code (R71). -/
@[simp] theorem word_status (p : Response) : p.word.extractLsb' 32 3 = p.status.code :=
  BitVec.extractLsb'_append_eq_left

/-- The response word's lower 32 bits are the result (R71). -/
@[simp] theorem word_result (p : Response) : p.word.extractLsb' 0 32 = p.r :=
  BitVec.extractLsb'_append_eq_right

theorem code_lt (st : Status) : st.code.toNat < 5 := by
  cases st <;> decide

end Machine

end Sys2Proof

open Sys2Proof Sys2Proof.Machine

/-- Settles O18: each operand is read from where it was packed. -/
theorem decodeOfEncodeIsTheInstruction : Obligations.DecodeOfEncodeIsTheInstruction :=
  fun _ => decode_encode

/-- Settles O19: a word decodes by the one row that accepts it, and that row's operands are all of its bits. -/
theorem encodeOfDecodeIsTheCommand : Obligations.EncodeOfDecodeIsTheCommand := by
  intro w i h
  obtain ⟨f, hf, haccepts, rfl⟩ := decode_eq_ok_iff.mp h
  exact ⟨wf_read hf w, encode_read hf haccepts⟩

/-- Settles O20: at most one row matches, since their opcodes differ, and one does exactly when the word decodes. -/
theorem decodableWordsAreTheRowsOfTheTable : Obligations.DecodableWordsAreTheRowsOfTheTable := by
  intro w
  have hle := countP_tableRows_le_one w
  have hpos : 0 < (Claims.tableRows.countP fun row => w &&& row.2 == row.1) ↔ ∃ i, decode w = .ok i := by
    rw [List.countP_pos_iff, exists_decode_iff]
    simp only [beq_iff_eq]
  cases hw : decode w with
  | ok i => exact Nat.le_antisymm hle (hpos.mpr ⟨i, hw⟩)
  | error err =>
    have hnone : ¬ ∃ i, decode w = .ok i := by simp [hw]
    exact Nat.eq_zero_of_not_pos fun h => hnone (hpos.mp h)

/-- Settles O21: such a word does not decode. -/
theorem wordsOfNoRowAreRefusedWithoutEffect : Obligations.WordsOfNoRowAreRefusedWithoutEffect := by
  intro s w rest hprogram hnone
  have hstep : step s = runCommand w s.issued := step_of_head?_eq_some (by simp [hprogram])
  cases hw : decode w with
  | ok i =>
    obtain ⟨row, hrow, hmatch⟩ := exists_decode_iff.mp ⟨i, hw⟩
    exact absurd hmatch (hnone row hrow)
  | error err =>
    rw [hstep, runCommand_of_error hw, State.issued, hprogram]
    rfl

/-- Settles O23: the decoder run on each of the words. -/
theorem exampleWordsDecodeAsWritten : Obligations.ExampleWordsDecodeAsWritten := by
  unfold Obligations.ExampleWordsDecodeAsWritten
  decide

/-- Settles O24: the assembler run on each of the lines. -/
theorem writtenExamplesAssembleToTheirWords : Obligations.WrittenExamplesAssembleToTheirWords := by
  unfold Obligations.WrittenExamplesAssembleToTheirWords
  decide

/-- Settles O25: the response word is the status code above the result, and every code is below 5. -/
theorem responseWordCarriesStatusAndResult : Obligations.ResponseWordCarriesStatusAndResult :=
  ⟨fun p => ⟨word_status p, word_result p⟩, rfl, fun p => by simpa only [word_status] using code_lt p.status⟩

end

section
/-! PROOF. The invariant (30_encoding.md R71, 43_bus.md R162, 20_memory.md R58): every response that the block builds carries 0
unless it is OK, so each command adds one such response and at most one legal transaction. -/

namespace Sys2Proof.Machine

/-! ### Every response built carries 0 unless it is OK -/

@[simp] theorem ok_wf (r : Result) : (Response.ok r).wf = true := rfl
@[simp] theorem okWord_wf (v : Word) : (Response.okWord v).wf = true := rfl
@[simp] theorem invalidField_wf : Response.invalidField.wf = true := rfl
@[simp] theorem accessViolation_wf : Response.accessViolation.wf = true := rfl
@[simp] theorem busError_wf : Response.busError.wf = true := rfl
@[simp] theorem refuse_wf : Response.refuse.wf = true := rfl

@[simp] theorem okOrRefuse_wf (v : Option Word) : (Response.okOrRefuse v).wf = true := by
  cases v <;> rfl

@[simp] theorem measurementResponse_wf (m : Option LightMeasurement) (result : LightMeasurement → Result) :
    (measurementResponse m result).wf = true := by
  cases m <;> rfl

@[simp] theorem writeResponse_wf (a : WriteAnswer) : (writeResponse a).wf = true := by
  cases a <;> rfl

@[simp] theorem extractResponse_wf (raw : Word) (lo hi : Nat) : (extractResponse raw lo hi).wf = true := by
  unfold extractResponse
  split <;> simp

@[simp] theorem insertResponse_wf (raw v : Word) (lo hi : Nat) : (insertResponse raw v lo hi).wf = true := by
  unfold insertResponse
  split <;> simp

@[simp] theorem fromRawResponse_wf (c : Config) (raw : Word) : (fromRawResponse c raw).wf = true :=
  measurementResponse_wf _ _

theorem onRegister_wf {k : RegDesc → Response} (h : ∀ d, (k d).wf = true) (addr : Addr) : (onRegister addr k).wf = true := by
  unfold onRegister
  split
  · exact h _
  · rfl

theorem onWritable_wf {k : Response} (h : k.wf = true) (d : RegDesc) : (onWritable d k).wf = true := by
  unfold onWritable
  split
  · rfl
  · exact h

@[simp] theorem fieldDescriptorResponse_wf (fid : Nat) (addr : Addr) : (fieldDescriptorResponse fid addr).wf = true := by
  refine onRegister_wf (fun d => ?_) addr
  split <;> simp

@[simp] theorem decodeRegisterResponse_wf (c : Config) (addr : Addr) (raw : Word) :
    (decodeRegisterResponse c addr raw).wf = true := by
  refine onRegister_wf (fun d => ?_) addr
  split <;> simp

@[simp] theorem encodeConfigurationResponse_wf (c : Config) (v : Word) : (encodeConfigurationResponse c v).wf = true := by
  unfold encodeConfigurationResponse
  split
  · simp
  · split <;> simp

@[simp] theorem encodeRegisterResponse_wf (c : Config) (addr : Addr) (bundle : Word) :
    (encodeRegisterResponse c addr bundle).wf = true := by
  refine onRegister_wf (fun d => onWritable_wf ?_ d) addr
  split <;> simp

@[simp] theorem writeFieldResponse_wf (c : Config) (fid : Nat) (addr : Addr) (base value : Word) :
    (writeFieldResponse c fid addr base value).wf = true := by
  refine onRegister_wf (fun d => onWritable_wf ?_ d) addr
  split
  · rfl
  · split
    · split <;> simp
    · simp

/-! ### What an instruction adds to the outcome -/

/-- An instruction that gives a next state gives one response, which carries 0 unless it is OK (R71). -/
theorem exec_next_responses {i : Instr} {s t : State} (h : exec i s = .next t) :
    ∃ p, t.responses = s.responses ++ [p] ∧ p.wf = true := by
  cases i with
  | rrd addr =>
    rcases execRrd_next h with ⟨-, rfl⟩ | ⟨v, a, -, -, rfl⟩
    · exact ⟨.refuse, rfl, refuse_wf⟩
    · exact ⟨.okWord v, by simp, okWord_wf v⟩
  | rwr addr value =>
    rcases execRwr_next h with ⟨-, rfl⟩ | ⟨-, -, rfl⟩ | ⟨v, a, -, -, rfl⟩
    · exact ⟨.refuse, rfl, refuse_wf⟩
    · exact ⟨.accessViolation, rfl, accessViolation_wf⟩
    · exact ⟨writeResponse a, by simp, writeResponse_wf a⟩
  | fins raw value lo hi =>
    obtain rfl := Host.Outcome.next.inj h
    refine ⟨_, rfl, ?_⟩
    split <;> simp
  | rdesc addr =>
    obtain rfl := Host.Outcome.next.inj h
    exact ⟨_, rfl, onRegister_wf (fun d => ok_wf _) addr⟩
  | _ =>
    obtain rfl := Host.Outcome.next.inj h
    exact ⟨_, rfl, by simp⟩

/-- It makes no transaction or one, which is legal (R58, R162). -/
theorem exec_next_busLog {i : Instr} {s t : State} (h : exec i s = .next t) :
    t.busLog = s.busLog ∨ ∃ e : BusEvent, e.legal = true ∧ t.busLog = s.busLog ++ [e] := by
  rcases exec_next_cases h with ⟨p, rfl⟩ | ⟨e, p, v, a, hlegal, -, rfl⟩
  · exact .inl rfl
  · exact .inr ⟨e, hlegal, by simp⟩

/-! ### The invariant -/

/-- The invariant survives one good response and at most one legal transaction. -/
theorem inv_of_extension {s t : State} (hs : s.Inv) (hresponses : ∃ p, t.responses = s.responses ++ [p] ∧ p.wf = true)
    (hbusLog : t.busLog = s.busLog ∨ ∃ e : BusEvent, e.legal = true ∧ t.busLog = s.busLog ++ [e]) : t.Inv := by
  obtain ⟨hwf, hlegal, hlength⟩ := hs
  obtain ⟨p, hp, hpwf⟩ := hresponses
  have hwf' : ∀ q ∈ t.responses, q.wf = true := by
    simpa [hp, or_imp, forall_and, hpwf] using hwf
  rcases hbusLog with hb | ⟨e, he, hb⟩
  · exact ⟨hwf', by simpa [hb] using hlegal, by simp only [hp, hb, List.length_append]; omega⟩
  · exact ⟨hwf', by simpa [hb, or_imp, forall_and, he] using hlegal, by simpa [hp, hb] using hlength⟩

theorem exec_keeps_inv {i : Instr} {s t : State} (hs : s.Inv) (h : exec i s = .next t) : t.Inv :=
  inv_of_extension hs (exec_next_responses h) (exec_next_busLog h)

/-- A command word keeps the invariant, whether it is an operation or is refused. -/
theorem runCommand_keeps_inv {w : Command} {s t : State} (hs : s.Inv) (h : runCommand w s = .next t) : t.Inv := by
  cases hw : decode w with
  | ok i => exact exec_keeps_inv hs ((runCommand_of_decode hw s).symm.trans h)
  | error err =>
    obtain rfl := Host.Outcome.next.inj ((runCommand_of_error hw s).symm.trans h)
    exact inv_of_extension hs ⟨.refuse, rfl, refuse_wf⟩ (.inl rfl)

end Sys2Proof.Machine

open Sys2Proof Sys2Proof.Machine

/-- Settles O54: an idle step leaves the state as it is; any other runs a command in a state with the same outcome so far. -/
theorem stepKeepsTheInvariant : Obligations.StepKeepsTheInvariant := by
  intro s t hs h
  cases hhead : s.program.head? with
  | none =>
    obtain rfl := Host.Outcome.next.inj ((step_of_program_nil (List.head?_eq_none_iff.mp hhead)).symm.trans h)
    exact hs
  | some w =>
    rw [step_of_head?_eq_some hhead] at h
    exact runCommand_keeps_inv (s := s.issued) hs h

end

section
/-! PROOF. The answers of the operations that the encodings of 30_encoding.md R74, R76, R77 and R82 rest on, in the form in which
the rules give them: TO_RAW, FROM_RAW, RDEC and FWR; and what R76 and R77 say of the bundles they return. -/

namespace Sys2Proof.Machine

open Claims

/-! ### Measurements -/

/-- Numbers below `2^32` are answered as themselves. -/
theorem ok_eq_okNat (r : Result) : Response.ok r = okNat r.toNat := by
  rw [Response.ok, okNat, BitVec.ofNat_toNat, BitVec.setWidth_eq]

/-- The response to a pair, from the number its measurement gives (40_codec.md R100). -/
theorem measurementResponse_construct {e f : Word} {result : LightMeasurement → Result} {n : Nat}
    (h : ∀ m, LightMeasurement.construct e f = some m → (result m).toNat = n) :
    measurementResponse (LightMeasurement.construct e f) result = pairAnswer e f n := by
  unfold pairAnswer
  cases hm : LightMeasurement.construct e f with
  | none => rw [if_neg (construct_eq_none_iff.mp hm)]; rfl
  | some m =>
    obtain ⟨hvalid, -⟩ := construct_eq_some_iff.mp hm
    rw [if_pos hvalid, ← h m hm, ← ok_eq_okNat]
    rfl

/-- TO_RAW answers the exponent above 4095 minus the fractional (R102). -/
theorem exec_toRaw (e f : Word) (s : State) :
    exec (.toRaw e f) s = .next (s.respond (pairAnswer e f (e.toNat * 4096 + (4095 - f.toNat)))) := by
  have hresult : ∀ m, LightMeasurement.construct e f = some m →
      (m.toRaw.setWidth 32).toNat = e.toNat * 4096 + (4095 - f.toNat) := fun m hm => by
    obtain ⟨he, hf⟩ := construct_toNat hm
    rw [BitVec.toNat_setWidth_of_le (by decide), toNat_toRaw, he, hf]
  rw [← measurementResponse_construct hresult]
  rfl

/-- The exponent nibble decoded under a parameter, as a number (R103). -/
theorem toNat_xor_mask (x : ExpXorDec) (raw : Word) : (raw.extractLsb' 12 4 ^^^ x.mask).toNat = decodedExponent x raw := by
  have hnibble : (raw.extractLsb' 12 4).toNat = raw.toNat / 4096 := by
    have := raw.isLt
    rw [BitVec.extractLsb'_toNat, Nat.shiftRight_eq_div_pow]
    omega
  cases x with
  | plain => rw [ExpXorDec.mask, BitVec.xor_zero, hnibble, decodedExponent]
  | inverted =>
    rw [ExpXorDec.mask, show (0xF#4) = BitVec.allOnes 4 from rfl, BitVec.xor_allOnes, BitVec.toNat_not, hnibble, decodedExponent]

/-- The fractional decoded, as a number (R103). -/
theorem toNat_fractional_xor (raw : Word) : (raw.extractLsb' 0 12 ^^^ fracXor).toNat = 4095 - raw.toNat % 4096 := by
  rw [toNat_xor_fracXor, BitVec.extractLsb'_toNat, Nat.shiftRight_zero]

/-- FROM_RAW's response, by the rule (R103). -/
theorem fromRawResponse_eq (c : Config) (raw : Word) : fromRawResponse c raw = fromRawAnswer c.expXorDec raw := by
  have he := toNat_xor_mask c.expXorDec raw
  have hf := toNat_fractional_xor raw
  have hresult : ∀ m, LightMeasurement.fromRaw c.expXorDec raw = some m →
      (m.lmv.setWidth 32).toNat = decodedExponent c.expXorDec raw * 4096 + (4095 - raw.toNat % 4096) := fun m hm => by
    obtain ⟨hme, hmf⟩ := construct_toNat hm
    rw [BitVec.toNat_setWidth_of_le (by decide), toNat_lmv, hme, hmf, BitVec.toNat_setWidth_of_le (by decide),
      BitVec.toNat_setWidth_of_le (by decide), he, hf]
  refine (measurementResponse_construct hresult).trans ?_
  unfold pairAnswer fromRawAnswer
  simp only [BitVec.toNat_setWidth_of_le (show 4 ≤ 16 by decide), BitVec.toNat_setWidth_of_le (show 12 ≤ 16 by decide), he, hf]
  simp only [show 4095 - raw.toNat % 4096 ≤ 4095 from Nat.sub_le _ _, and_true]

theorem exec_fromRaw (raw : Word) (s : State) :
    exec (.fromRaw raw) s = .next (s.respond (fromRawAnswer s.config.expXorDec raw)) := by
  rw [← fromRawResponse_eq]
  rfl

/-! ### Fields of a word -/

/-- A statement about numbers below `n` holds of the words below `n`. -/
theorem of_forall_ofNat {P : Word → Prop} {n : Nat} (h : ∀ k < n, P (BitVec.ofNat 16 k)) {p : Word} (hp : p.toNat < n) : P p := by
  simpa using h p.toNat hp

/-- A field put back where it was taken from changes nothing (41_fields.md R124). -/
@[simp] theorem insertField_extractField {raw : Word} {lo hi : Nat} (hle : lo ≤ hi) :
    insertField raw (extractField raw lo hi) lo hi = raw := by
  apply BitVec.eq_of_getLsbD_eq
  intro i hi16
  have hfit : (extractField raw lo hi).toNat < 2 ^ (hi - lo + 1) := by
    rw [toNat_extractField]
    exact Nat.mod_lt _ (Nat.two_pow_pos _)
  rw [getLsbD_insertField hle hfit i hi16, getLsbD_extractField]
  split_ifs with hin
  · simp [show i - lo < 16 by omega, show i - lo < hi - lo + 1 by omega, show lo + (i - lo) = i by omega]
  · rfl

/-- A field just inserted is read back (R124). -/
theorem extractField_insertField_same {raw v : Word} {lo hi : Nat} (hle : lo ≤ hi) (hhi : hi ≤ 15)
    (hfit : v.toNat < 2 ^ (hi - lo + 1)) : extractField (insertField raw v lo hi) lo hi = v := by
  apply BitVec.eq_of_getLsbD_eq
  intro i hi16
  rw [getLsbD_extractField]
  by_cases hin : i < hi - lo + 1
  · rw [getLsbD_insertField hle hfit (lo + i) (by omega)]
    simp [hi16, hin, show lo + i ≤ hi by omega]
  · have hhigh : v.getLsbD i = false := by
      rw [← BitVec.testBit_toNat]
      exact Nat.testBit_lt_two_pow (Nat.lt_of_lt_of_le hfit (Nat.pow_le_pow_right (by omega) (by omega)))
    simp [hin, hhigh]

/-- A field apart from the one inserted is what it was (R124). -/
theorem extractField_insertField_disjoint {raw v : Word} {lo hi lo' hi' : Nat} (hle : lo ≤ hi)
    (hfit : v.toNat < 2 ^ (hi - lo + 1)) (hle' : lo' ≤ hi') (hhi' : hi' ≤ 15) (hdisjoint : hi < lo' ∨ hi' < lo) :
    extractField (insertField raw v lo hi) lo' hi' = extractField raw lo' hi' := by
  apply BitVec.eq_of_getLsbD_eq
  intro i hi16
  rw [getLsbD_extractField, getLsbD_extractField]
  by_cases hin : i < hi' - lo' + 1
  · rw [getLsbD_insertField hle hfit (lo' + i) (by omega), if_neg (by omega)]
  · simp [hin]

/-! ### The decoded Configuration -/

/-- What the mode bits decode to: the pattern itself, but 2 for the catch-all's second pattern (10_state.md R33). -/
def resolvedMode (p : Word) : Word := if p = 3 then 2 else p

theorem enumDecode_faultCount {p : Word} (hp : p.toNat < 4) : enumDecode 0 p = some p :=
  of_forall_ofNat (P := fun p => enumDecode 0 p = some p) (by decide) hp

theorem enumDecode_mode {p : Word} (hp : p.toNat < 4) : enumDecode 8 p = some (resolvedMode p) :=
  of_forall_ofNat (P := fun p => enumDecode 8 p = some (resolvedMode p)) (by decide) hp

theorem enumDecode_time {p : Word} (hp : p.toNat < 2) : enumDecode 9 p = some p :=
  of_forall_ofNat (P := fun p => enumDecode 9 p = some p) (by decide) hp

theorem resolvedMode_lt {p : Word} (hp : p.toNat < 4) : (resolvedMode p).toNat < 4 :=
  of_forall_ofNat (P := fun p => (resolvedMode p).toNat < 4) (by decide) hp

/-- The bundle of a raw Configuration: its mode bits resolved, every other bit its own (30_encoding.md R77). -/
def decodedCfg (raw : Word) : Word := insertField raw (resolvedMode (extractField raw 9 10)) 9 10

theorem toNat_mode (raw : Word) : (extractField raw 9 10).toNat = raw.toNat / 512 % 4 :=
  toNat_extractField raw 9 10

theorem mode_lt (raw : Word) : (extractField raw 9 10).toNat < 4 := by
  rw [toNat_mode]
  omega

/-- RDEC's Configuration case never fails, and only the mode can change (42_regmap.md R142). -/
theorem decodeConfiguration_eq (raw : Word) : decodeConfiguration raw = some (decodedCfg raw) := by
  have hcount : enumDecode 0 (extractField raw 0 1) = some (extractField raw 0 1) :=
    enumDecode_faultCount (by rw [toNat_extractField]; omega)
  have hmode := enumDecode_mode (mode_lt raw)
  have htime : enumDecode 9 (extractField raw 11 11) = some (extractField (decodedCfg raw) 11 11) := by
    rw [decodedCfg, extractField_insertField_disjoint (by decide) (resolvedMode_lt (mode_lt raw)) (by decide) (by decide)
      (by decide)]
    exact enumDecode_time (by rw [toNat_extractField]; omega)
  simp only [decodeConfiguration, hcount, hmode, htime, Option.bind_eq_bind, Option.bind_some]
  rw [insertField_extractField (by decide)]
  exact congrArg some (insertField_extractField (by decide))

/-- The mode bits as a two-bit slice. -/
theorem mode_eq_three_iff {raw : Word} : extractField raw 9 10 = 3 ↔ raw.toNat / 512 % 4 = 3 := by
  rw [← toNat_mode, ← BitVec.toNat_inj]
  rfl

theorem slice_eq_three_iff {raw : Word} : raw.extractLsb' 9 2 = 3 ↔ raw.toNat / 512 % 4 = 3 := by
  rw [← BitVec.toNat_inj, BitVec.extractLsb'_toNat, Nat.shiftRight_eq_div_pow]
  rfl

/-- The mode of a bundle is resolved. -/
theorem mode_decodedCfg (raw : Word) : extractField (decodedCfg raw) 9 10 = resolvedMode (extractField raw 9 10) :=
  extractField_insertField_same (by decide) (by decide) (resolvedMode_lt (mode_lt raw))

/-- A bundle as a number: 512 less than a raw value whose mode bits are 0b11, else the raw value (R142). -/
theorem toNat_decodedCfg (raw : Word) :
    (decodedCfg raw).toNat = if raw.toNat / 512 % 4 = 3 then raw.toNat - 512 else raw.toNat := by
  split_ifs with h
  · have hmode := congrArg BitVec.toNat (mode_decodedCfg raw)
    have hfit := resolvedMode_lt (mode_lt raw)
    have hlow : extractField (decodedCfg raw) 0 8 = extractField raw 0 8 :=
      extractField_insertField_disjoint (by decide) hfit (by decide) (by decide) (by decide)
    have hhigh : extractField (decodedCfg raw) 11 15 = extractField raw 11 15 :=
      extractField_insertField_disjoint (by decide) hfit (by decide) (by decide) (by decide)
    rw [mode_eq_three_iff.mpr h, toNat_mode] at hmode
    rw [← BitVec.toNat_inj, toNat_extractField, toNat_extractField] at hlow hhigh
    have h2 : (resolvedMode 3).toNat = 2 := rfl
    have := (decodedCfg raw).isLt
    have := raw.isLt
    omega
  · rw [decodedCfg, resolvedMode, if_neg (mode_eq_three_iff.not.mpr h), insertField_extractField (by decide)]

/-- Every bit of a bundle but bit 9 is the raw value's (R77). -/
theorem getLsbD_decodedCfg {raw : Word} {i : Nat} (hi : i < 16) (hne : i ≠ 9) : (decodedCfg raw).getLsbD i = raw.getLsbD i := by
  have hbit : (resolvedMode (extractField raw 9 10)).getLsbD 1 = (extractField raw 9 10).getLsbD 1 :=
    of_forall_ofNat (P := fun p => (resolvedMode p).getLsbD 1 = p.getLsbD 1) (by decide) (mode_lt raw)
  rw [decodedCfg, getLsbD_insertField (by decide) (resolvedMode_lt (mode_lt raw)) i hi]
  split_ifs with hin
  · obtain rfl : i = 10 := by omega
    rw [hbit, getLsbD_extractField]
    rfl
  · rfl

/-! ### Registers -/

theorem desc_eq_none_iff {addr : Addr} : desc addr = none ↔ addr ∉ mappedAddrs := by
  rw [← Option.not_isSome_iff_eq_none, desc_isSome_iff]
  rfl

theorem mapped_iff {addr : Addr} : mapped addr = true ↔ addr ∈ mappedAddrs :=
  desc_isSome_iff addr

/-- The registers that are mapped and not writable are the read-only ones (R27). -/
theorem mem_readOnlyAddrs_iff {addr : Addr} : addr ∈ readOnlyAddrs ↔ addr ∈ mappedAddrs ∧ addr ∉ writableAddrs := by
  revert addr
  decide

/-- RDEC's response, by the rule (R142). -/
theorem decodeRegisterResponse_eq (c : Config) (addr : Addr) (raw : Word) :
    decodeRegisterResponse c addr raw = rdecAnswer c.expXorDec addr raw := by
  by_cases hmapped : addr ∈ mappedAddrs
  · simp only [mappedAddrs, List.mem_cons, List.not_mem_nil, or_false] at hmapped
    rcases hmapped with rfl | rfl | rfl | rfl | rfl | rfl
    case inr.inl =>
      have hcfg : decodeRegisterResponse c 0x01 raw = .okOrRefuse (decodeConfiguration raw) := rfl
      rw [hcfg, decodeConfiguration_eq, Response.okOrRefuse, okWord_eq_okNat, toNat_decodedCfg]
      rfl
    · exact fromRawResponse_eq c raw
    · exact fromRawResponse_eq c raw
    · exact fromRawResponse_eq c raw
    · exact okWord_eq_okNat raw
    · exact okWord_eq_okNat raw
  · have hanswer : rdecAnswer c.expXorDec addr raw = refused := by
      simp [mappedAddrs] at hmapped
      simp [rdecAnswer, hmapped]
    rw [hanswer, decodeRegisterResponse, onRegister, desc_eq_none_iff.mpr hmapped]
    rfl

theorem exec_rdec (addr : Addr) (raw : Word) (s : State) :
    exec (.rdec addr raw) s = .next (s.respond (rdecAnswer s.config.expXorDec addr raw)) := by
  rw [← decodeRegisterResponse_eq]
  rfl

/-- A field as `writeFields` lists it. -/
def FieldDesc.writeField (f : FieldDesc) : Nat × Nat × Bool := (f.lo, f.hi, f.markedRo)

/-- The fields a write to a writable register may name are those of its layout (R29, R30). -/
theorem writeFields_eq {addr : Addr} (h : addr ∈ writableAddrs) :
    ∃ d, desc addr = some d ∧ d.access = .rw ∧ writeFields addr = d.layout.fields.map FieldDesc.writeField := by
  simp only [writableAddrs, List.mem_cons, List.not_mem_nil, or_false] at h
  rcases h with rfl | rfl | rfl <;> exact ⟨_, rfl, rfl, rfl⟩

/-- A value put into a range, by the rule (R121, R144). -/
theorem insertResponse_eq (raw v : Word) (lo hi : Nat) :
    insertResponse raw v lo hi =
      if v.toNat > 2 ^ (hi - lo + 1) - 1 then refused
      else okNat ((raw &&& ~~~ (BitVec.ofNat 16 (2 ^ (hi - lo + 1) - 1) <<< lo)) ||| (v <<< lo)).toNat := by
  rw [insertResponse, fitsField, ← okWord_eq_okNat]
  simp only [decide_eq_true_eq, ← Nat.not_lt, ite_not]
  rfl

/-- FWR's response, by the rule (R144). -/
theorem writeFieldResponse_eq (c : Config) (fid : Nat) (addr : Addr) (base v : Word) :
    writeFieldResponse c fid addr base v = fwrAnswer c.roFieldPolicy fid addr base v := by
  unfold fwrAnswer
  by_cases hro : addr ∈ readOnlyAddrs
  · rw [if_pos hro]
    simp only [readOnlyAddrs, List.mem_cons, List.not_mem_nil, or_false] at hro
    rcases hro with rfl | rfl | rfl <;> rfl
  rw [if_neg hro]
  by_cases hrw : addr ∈ writableAddrs
  · obtain ⟨d, hd, haccess, hfields⟩ := writeFields_eq hrw
    rw [if_pos hrw, hfields, List.getElem?_map]
    simp only [writeFieldResponse, onRegister, hd, onWritable, haccess, Layout.field?]
    cases hf : d.layout.fields[fid]? with
    | none => rfl
    | some f =>
      simp only [Option.map_some, FieldDesc.writeField]
      cases hmark : f.markedRo with
      | true =>
        cases c.roFieldPolicy with
        | reject => rfl
        | ignore => exact okWord_eq_okNat base
      | false => exact insertResponse_eq base v f.lo f.hi
  · have hunmapped : addr ∉ mappedAddrs := fun h => hro (mem_readOnlyAddrs_iff.mpr ⟨h, hrw⟩)
    rw [if_neg hrw, writeFieldResponse, onRegister, desc_eq_none_iff.mpr hunmapped]
    rfl

theorem exec_fwr (fid : Nat) (addr : Addr) (base v : Word) (s : State) :
    exec (.fwr fid addr base v) s = .next (s.respond (fwrAnswer s.config.roFieldPolicy fid addr base v)) := by
  rw [← writeFieldResponse_eq]
  rfl

/-! ### What an operation answers in every state -/

/-- An operation's answer in every state is one. -/
theorem gives_unique {c : Config} {i : Instr} {p q : Response} (hp : Gives c i p) (hq : Gives c i q) : p = q := by
  have h := (hp { State.reset with config := c } rfl).symm.trans (hq { State.reset with config := c } rfl)
  simpa using h

/-- A measurement's bundle, as a result, holds an exponent of at most 11 (30_encoding.md R76). -/
theorem exponent_of_lmv_result (m : LightMeasurement) : (m.lmv.setWidth 32).toNat / 4096 ≤ 11 := by
  have := m.inRange
  have := m.fractional.isLt
  rw [BitVec.toNat_setWidth_of_le (by decide), toNat_lmv]
  omega

/-- An OK answer that is a bundle holds an exponent of at most 11. -/
theorem exponent_of_bundleResponse {m : Option LightMeasurement} {r : Result}
    (h : measurementResponse m (fun m => m.lmv.setWidth 32) = ⟨.ok, r⟩) : r.toNat / 4096 ≤ 11 := by
  cases m with
  | none => cases h
  | some m =>
    obtain rfl : m.lmv.setWidth 32 = r := congrArg Response.r h
    exact exponent_of_lmv_result m

end Sys2Proof.Machine

open Sys2Proof Sys2Proof.Machine Sys2Proof.Claims

/-- Settles O35: CONSTRUCT, FROM_RAW and RDEC of a MEAS register all answer with the bundle of a measurement. -/
theorem returnedBundlesHoldValidExponents : Obligations.ReturnedBundlesHoldValidExponents := by
  intro i c r hi hgives
  have hbundle : ∃ m, Gives c i (measurementResponse m fun m => m.lmv.setWidth 32) := by
    rcases hi with ⟨e, f, rfl⟩ | ⟨raw, rfl⟩ | ⟨addr, raw, haddr, rfl⟩
    · exact ⟨LightMeasurement.construct e f, fun _ _ => rfl⟩
    · exact ⟨LightMeasurement.fromRaw c.expXorDec raw, by rintro s rfl; rfl⟩
    · refine ⟨LightMeasurement.fromRaw c.expXorDec raw, ?_⟩
      rintro s rfl
      simp only [List.mem_cons, List.not_mem_nil, or_false] at haddr
      rcases haddr with rfl | rfl | rfl <;> rfl
  obtain ⟨m, hm⟩ := hbundle
  exact exponent_of_bundleResponse (gives_unique hm hgives)

/-- Settles O39: only the mode field can change, from 0b11 to 0b10. -/
theorem decodedConfigurationChangesOnlyTheCatchAllPattern : Obligations.DecodedConfigurationChangesOnlyTheCatchAllPattern := by
  intro c raw
  refine ⟨decodedCfg raw, ?_, fun i => getLsbD_decodedCfg, ?_, ?_⟩
  · rintro s rfl
    rw [exec_rdec, toNat_decodedCfg]
    rfl
  · rw [slice_eq_three_iff, Ne, ← BitVec.toNat_inj, toNat_decodedCfg]
    split_ifs with h
    · simp only [h, iff_true]
      omega
    · simp [h]
  · rw [Ne, slice_eq_three_iff, toNat_decodedCfg]
    split_ifs <;> omega

end

section
/-! PROOF. The pseudo-operations (30_encoding.md R82): a list of commands is followed one command at a time, and what is recorded of
each is what the rules say it answers. -/

namespace Sys2Proof.Machine

open Claims

/-- A state with responses and transactions added and the environment's replies `script` to come. -/
def State.extend (s : State) (script : List EnvReply) (ps : List Response) (es : List BusEvent) : State :=
  { s with script := script, responses := s.responses ++ ps, busLog := s.busLog ++ es }

section
variable (s : State) (script script' : List EnvReply) (p : Response) (ps ps' : List Response) (es es' : List BusEvent)

@[simp] theorem extend_extend :
    (s.extend script ps es).extend script' ps' es' = s.extend script' (ps ++ ps') (es ++ es') := by
  simp [State.extend]

theorem respond_eq_extend : s.respond p = s.extend s.script [p] [] := by
  simp [State.respond, State.extend]

@[simp] theorem lastResponse_extend : (s.extend script [p] es).lastResponse = some p := by
  simp [State.lastResponse, State.extend]

end

/-! ### Following a list of commands -/

/-- A command placed by the host is the one the next step executes (70_reset_and_hazards.md R193). -/
theorem step_place {i : Instr} (hwf : i.wf = true) (s : State) : step (s.place (encode i)) = exec i s :=
  step_of_decode_encode (decode_encode hwf) (place_program s _)

/-- A command answered OK is followed by the rest, given its `$`. -/
theorem issueAll_extend_of_ok {c : Word → Instr} {rest : List (Word → Instr)} {dollar : Word} {s : State} {p : Response}
    {script script' : List EnvReply} {ps : List Response} {es es' : List BusEvent} (hwf : (c dollar).wf = true)
    (hexec : exec (c dollar) s = .next (s.extend script [p] es)) (hok : p.status = .ok)
    (hrest : issueAll rest p.dollar (s.extend script [p] es) = .next ((s.extend script [p] es).extend script' ps es')) :
    issueAll (c :: rest) dollar s = .next (s.extend script' (p :: ps) (es ++ es')) := by
  rw [issueAll_cons_of_ok ((step_place hwf s).trans hexec) (lastResponse_extend s script p es) hok, hrest, extend_extend]
  rfl

/-- A command not answered OK is the last. -/
theorem issueAll_extend_of_not_ok {c : Word → Instr} {rest : List (Word → Instr)} {dollar : Word} {s : State} {p : Response}
    {script : List EnvReply} {es : List BusEvent} (hwf : (c dollar).wf = true)
    (hexec : exec (c dollar) s = .next (s.extend script [p] es)) (hok : p.status ≠ .ok) :
    issueAll (c :: rest) dollar s = .next (s.extend script [p] es) :=
  issueAll_cons_of_not_ok ((step_place hwf s).trans hexec) (lastResponse_extend s script p es) hok

/-- The last command of a list ends it whatever it is answered. -/
theorem issueAll_singleton {c : Word → Instr} {dollar : Word} {s t : State} (hwf : (c dollar).wf = true)
    (hexec : exec (c dollar) s = .next t) : issueAll [c] dollar s = .next t := by
  rw [issueAll, step_place hwf, hexec]
  simp only [issueAll, ite_self]
  split <;> rfl

/-! ### What the commands add -/

@[simp] theorem dollar_okNat (v : Word) : (okNat v.toNat).dollar = v := by
  rw [← okWord_eq_okNat, Response.okWord, Response.ok, Response.dollar]
  exact BitVec.setWidth_setWidth_of_le v (by decide)

theorem afterReply_of_script {s : State} {reply : EnvReply} {rest : List EnvReply} (h : s.script = reply :: rest) :
    s.afterReply = { s with script := rest } := by
  simp [State.afterReply, h]

/-- RRD of a mapped register whose read the script answers (43_bus.md R160). -/
theorem exec_rrd_of_script {addr : Addr} {v : Word} {a : WriteAnswer} {rest : List EnvReply} {s : State}
    (haddr : addr ∈ mappedAddrs) (hscript : s.script = .answers v a :: rest) :
    exec (.rrd addr) s = .next (s.extend rest [okNat v.toNat] [.read addr v]) := by
  have hexec := execRrd_of_answers (mapped_iff.mpr haddr) (nextReply_of_script hscript)
  rw [afterReply_of_script hscript, okWord_eq_okNat] at hexec
  exact hexec

/-- RRD of an unmapped address (R160). -/
theorem exec_rrd_unmapped {addr : Addr} (haddr : addr ∉ mappedAddrs) (s : State) :
    exec (.rrd addr) s = .next (s.extend s.script [refused] []) := by
  rw [← respond_eq_extend, exec, execRrd, desc_eq_none_iff.mpr haddr]
  rfl

theorem writeResponse_eq (a : WriteAnswer) : writeResponse a = writeAnswerResponse a := by
  cases a <;> rfl

/-- RWR of a writable register whose write the script answers (43_bus.md R161). -/
theorem exec_rwr_of_script {addr : Addr} {value v : Word} {a : WriteAnswer} {rest : List EnvReply} {s : State}
    (haddr : addr ∈ writableAddrs) (hscript : s.script = .answers v a :: rest) :
    exec (.rwr addr value) s = .next (s.extend rest [writeAnswerResponse a] [.write addr value a]) := by
  have hexec := execRwr_of_answers (value := value) ((writable_iff addr).mpr haddr) (nextReply_of_script hscript)
  rw [afterReply_of_script hscript, writeResponse_eq] at hexec
  exact hexec

/-- The row of a read-only register. -/
theorem desc_of_mem_readOnlyAddrs {addr : Addr} (h : addr ∈ readOnlyAddrs) : ∃ d, desc addr = some d ∧ d.access = .ro := by
  simp only [readOnlyAddrs, List.mem_cons, List.not_mem_nil, or_false] at h
  rcases h with rfl | rfl | rfl <;> exact ⟨_, rfl, rfl⟩

/-- RWR of any other address (R161): gated where it is mapped, refused where it is not. -/
theorem exec_rwr_not_writable {addr : Addr} (haddr : addr ∉ writableAddrs) (value : Word) (s : State) :
    exec (.rwr addr value) s = .next (s.extend s.script [if addr ∈ readOnlyAddrs then violation else refused] []) := by
  rw [← respond_eq_extend, exec, execRwr]
  by_cases hro : addr ∈ readOnlyAddrs
  · obtain ⟨d, hd, haccess⟩ := desc_of_mem_readOnlyAddrs hro
    rw [if_pos hro, hd]
    simp only [haccess]
    rfl
  · have hunmapped : addr ∉ mappedAddrs := fun h => hro (mem_readOnlyAddrs_iff.mpr ⟨h, haddr⟩)
    rw [if_neg hro, desc_eq_none_iff.mpr hunmapped]
    rfl

/-- FWR adds its answer alone (42_regmap.md R144). -/
theorem exec_fwr_extend (fid : Nat) (addr : Addr) (base v : Word) (s : State) :
    exec (.fwr fid addr base v) s = .next (s.extend s.script [fwrAnswer s.config.roFieldPolicy fid addr base v] []) := by
  rw [exec_fwr, respond_eq_extend]

/-- TO_RAW's raw value of a valid pair. -/
def rawOf (e f : Word) : Word := BitVec.ofNat 16 (e.toNat * 4096 + (4095 - f.toNat))

theorem toNat_rawOf {e f : Word} (he : e.toNat ≤ 11) : (rawOf e f).toNat = e.toNat * 4096 + (4095 - f.toNat) := by
  rw [rawOf, BitVec.toNat_ofNat]
  omega

theorem exec_toRaw_of_valid {e f : Word} (he : e.toNat ≤ 11) (hf : f.toNat ≤ 4095) (s : State) :
    exec (.toRaw e f) s = .next (s.extend s.script [okNat (rawOf e f).toNat] []) := by
  rw [exec_toRaw, pairAnswer, if_pos ⟨he, hf⟩, toNat_rawOf he, respond_eq_extend]

theorem exec_toRaw_of_not_valid {e f : Word} (h : ¬ (e.toNat ≤ 11 ∧ f.toNat ≤ 4095)) (s : State) :
    exec (.toRaw e f) s = .next (s.extend s.script [invalid] []) := by
  rw [exec_toRaw, pairAnswer, if_neg h, respond_eq_extend]

/-- FROM_RAW's answer to TO_RAW's raw value (40_codec.md R108). -/
theorem fromRawAnswer_rawOf {e f : Word} (he : e.toNat ≤ 11) (hf : f.toNat ≤ 4095) (x : ExpXorDec) :
    fromRawAnswer x (rawOf e f) =
      match x with
      | .plain => okNat (e.toNat * 4096 + f.toNat)
      | .inverted => if e.toNat ≤ 3 then invalid else okNat ((15 - e.toNat) * 4096 + f.toNat) := by
  have hquot : (rawOf e f).toNat / 4096 = e.toNat := by rw [toNat_rawOf he]; omega
  have hfrac : 4095 - (rawOf e f).toNat % 4096 = f.toNat := by rw [toNat_rawOf he]; omega
  cases x with
  | plain => simp [fromRawAnswer, decodedExponent, hquot, hfrac, he]
  | inverted =>
    have hrange : 15 - e.toNat ≤ 11 ↔ ¬ e.toNat ≤ 3 := by omega
    simp only [fromRawAnswer, decodedExponent, hquot, hfrac, hrange, ite_not]

/-! ### The pseudo-operations -/

/-- RTRIP of a valid pair. -/
theorem rtrip_of_valid {e f : Word} (he : e.toNat ≤ 11) (hf : f.toNat ≤ 4095) (s : State) :
    Runs (.rtrip e f) s s.script [okNat (rawOf e f).toNat, fromRawAnswer s.config.expXorDec (rawOf e f)] [] := by
  refine issueAll_extend_of_ok (es := []) rfl (exec_toRaw_of_valid he hf s) rfl (issueAll_singleton rfl ?_)
  rw [dollar_okNat, exec_fromRaw, respond_eq_extend]
  rfl

/-- WRLM of a valid pair: TO_RAW, then what RWR of the raw value adds. -/
theorem wrlm_of_valid {addr : Addr} {e f : Word} {s : State} {script : List EnvReply} {p : Response} {es : List BusEvent}
    (he : e.toNat ≤ 11) (hf : f.toNat ≤ 4095)
    (hrwr : ∀ t : State, t.script = s.script → exec (.rwr addr (rawOf e f)) t = .next (t.extend script [p] es)) :
    Runs (.wrlm addr e f) s script [okNat (rawOf e f).toNat, p] es := by
  refine issueAll_extend_of_ok (es := []) rfl (exec_toRaw_of_valid he hf s) rfl (issueAll_singleton rfl ?_)
  rw [dollar_okNat]
  exact hrwr _ rfl

/-- RDLM of a mapped register. -/
theorem rdlm_of_mapped {addr : Addr} {raw : Word} {a : WriteAnswer} {rest : List EnvReply} {s : State}
    (haddr : addr ∈ mappedAddrs) (hscript : s.script = .answers raw a :: rest) :
    Runs (.rdlm addr) s rest [okNat raw.toNat, rdecAnswer s.config.expXorDec addr raw] [.read addr raw] := by
  refine issueAll_extend_of_ok (es := [.read addr raw]) rfl (exec_rrd_of_script haddr hscript) rfl (issueAll_singleton rfl ?_)
  rw [dollar_okNat, exec_rdec, respond_eq_extend]
  rfl

/-- SETF, once it has read the register: what FWR of the value read, and what comes after, add. -/
theorem setf_of_mapped {fid : Nat} {addr : Addr} {old value : Word} {a : WriteAnswer} {rest script : List EnvReply} {s : State}
    {ps : List Response} {es : List BusEvent} (haddr : addr ∈ mappedAddrs) (hscript : s.script = .answers old a :: rest)
    (hrest : ∀ t : State, t.script = rest → t.config = s.config →
      issueAll [fun d => .fwr fid addr d value, fun d => .rwr addr d] old t = .next (t.extend script ps es)) :
    Runs (.setf fid addr value) s script (okNat old.toNat :: ps) (.read addr old :: es) := by
  refine issueAll_extend_of_ok (es := [.read addr old]) rfl (exec_rrd_of_script haddr hscript) rfl ?_
  rw [dollar_okNat]
  exact hrest _ rfl rfl

/-- SETF goes on to write what FWR answers; a field id below 16 can be carried by its command. -/
theorem setf_writes {fid : Nat} {addr : Addr} {old new value v : Word} {a : WriteAnswer} {rest : List EnvReply} {t : State}
    (haddr : addr ∈ writableAddrs) (hfid : fid < 16) (hscript : t.script = .answers v a :: rest)
    (hfwr : fwrAnswer t.config.roFieldPolicy fid addr old value = okNat new.toNat) :
    issueAll [fun d => .fwr fid addr d value, fun d => .rwr addr d] old t =
      .next (t.extend rest [okNat new.toNat, writeAnswerResponse a] [.write addr new a]) := by
  have hexec := exec_fwr_extend fid addr old value t
  rw [hfwr] at hexec
  refine issueAll_extend_of_ok (es := []) (decide_eq_true hfid) hexec rfl (issueAll_singleton rfl ?_)
  rw [dollar_okNat]
  exact exec_rwr_of_script haddr hscript

/-- The registers that can be written can be read. -/
theorem mem_mappedAddrs_of_mem_writableAddrs {addr : Addr} (h : addr ∈ writableAddrs) : addr ∈ mappedAddrs :=
  mapped_iff.mp (mapped_of_writable ((writable_iff addr).mpr h))

end Sys2Proof.Machine

open Sys2Proof Sys2Proof.Machine Sys2Proof.Claims

/-- Settles O57: each pseudo-operation goes on from an OK answer with its `$` and ends at any other. -/
theorem pseudoOperationsIssueTheirCommandsInOrder : Obligations.PseudoOperationsIssueTheirCommandsInOrder := by
  refine ⟨fun e f s he hf => ?_, fun e f s h => ?_, fun fid addr old new value a rest s haddr hfid hscript hfwr => ?_,
    fun fid addr old value a rest s haddr hfid hscript hfwr => ?_, fun fid addr value s haddr => ?_, fun addr e f s h => ?_,
    fun addr e f old a rest s he hf haddr hscript => ?_, fun addr e f s he hf haddr => ?_,
    fun addr raw a rest s haddr hscript => ?_, fun addr s haddr => ?_⟩
  -- RTRIP: to its end, and stopped by an invalid pair.
  · have hruns := rtrip_of_valid he hf s
    rw [fromRawAnswer_rawOf he hf] at hruns
    exact ⟨rawOf e f, toNat_rawOf he, hruns⟩
  · exact issueAll_extend_of_not_ok rfl (exec_toRaw_of_not_valid h s) nofun
  -- SETF: to its end, stopped by FWR, and stopped at an unmapped address.
  · refine setf_of_mapped (mem_mappedAddrs_of_mem_writableAddrs haddr) hscript fun t htscript htconfig => ?_
    exact setf_writes haddr hfid htscript (htconfig ▸ hfwr)
  · refine setf_of_mapped haddr hscript fun t htscript htconfig => ?_
    rw [← htconfig] at hfwr ⊢
    exact htscript ▸ issueAll_extend_of_not_ok (decide_eq_true hfid) (exec_fwr_extend fid addr old value t) hfwr
  · exact issueAll_extend_of_not_ok rfl (exec_rrd_unmapped haddr s) nofun
  -- WRLM: stopped by an invalid pair, to its end, and stopped by RWR's gate.
  · exact issueAll_extend_of_not_ok rfl (exec_toRaw_of_not_valid h s) nofun
  · exact ⟨rawOf e f, toNat_rawOf he, wrlm_of_valid he hf fun t ht => exec_rwr_of_script haddr (ht.trans hscript)⟩
  · exact ⟨rawOf e f, toNat_rawOf he, wrlm_of_valid he hf fun t ht => ht ▸ exec_rwr_not_writable haddr (rawOf e f) t⟩
  -- RDLM: to its end, and stopped at an unmapped address.
  · exact rdlm_of_mapped haddr hscript
  · exact issueAll_extend_of_not_ok rfl (exec_rrd_unmapped haddr s) nofun

end

section
/-! PROOF. How the block reads a command of a given opcode (30_encoding.md R70, R73): a row of the command format accepts it, or no
row does. -/

namespace Sys2Proof

open Machine Claims

/-- An opcode has one row. -/
theorem format_eq_of_op_eq {f g : Format} (hf : f ∈ formats) (hg : g ∈ formats) (hop : f.op = g.op) : f = g :=
  List.inj_on_of_nodup_map (List.pairwise_map.mpr formats_pairwise_op_ne) hf hg hop

/-- A word with a row's opcode that the row does not accept is no operation (R73). -/
theorem exists_decode_error {f : Format} {w : Command} (hf : f ∈ formats) (hop : cmdOp w = f.op) (h : ¬ f.Accepts w) :
    ∃ err, decode w = .error err := by
  cases hw : decode w with
  | error err => exact ⟨err, rfl⟩
  | ok i =>
    obtain ⟨g, hg, haccepts, -⟩ := decode_eq_ok_iff.mp hw
    obtain rfl := format_eq_of_op_eq hf hg (hop.symm.trans haccepts.1)
    exact absurd haccepts h

/-- The block reads a row's opcode as that row says, where `someSet` names the row's must-be-zero bits. -/
theorem readsCommand_of_mem_formats {f : Format} (hf : f ∈ formats) {someSet : Command → Prop}
    (hset : ∀ w, ¬ someSet w ↔ cmdA w &&& f.maskA = 0 ∧ cmdB w &&& f.maskB = 0 ∧ cmdC w &&& f.maskC = 0) :
    ReadsCommand f.op someSet f.read := by
  intro s w rest hprogram hop
  have hissued : s.issued = { s with program := rest } := by simp [State.issued, hprogram]
  have hstep : step s = runCommand w { s with program := rest } := hissued ▸ step_of_head?_eq_some (by simp [hprogram])
  constructor
  · intro hsome
    obtain ⟨err, herr⟩ := exists_decode_error hf hop fun haccepts => (hset w).mpr haccepts.2 hsome
    exact hstep.trans (runCommand_of_error herr _)
  · intro hnone
    have hdecode : decode w = .ok (f.read w) := decode_eq_ok_iff.mpr ⟨f, hf, ⟨hop, (hset w).mp hnone⟩, rfl⟩
    exact hstep.trans (runCommand_of_decode hdecode _)

/-- The must-be-zero bits of the operations on a pair are all of `cmd.c`. -/
theorem pair_mustBeZero_iff (w : Command) :
    ¬ w.extractLsb' 0 16 ≠ 0 ↔ cmdA w &&& 0 = 0 ∧ cmdB w &&& 0 = 0 ∧ cmdC w &&& 0xFFFF#16 = 0#16 := by
  rw [and_0xFFFF_eq_zero_iff]
  simp [cmdC]

/-- Two slices side by side are zero when each is. -/
theorem append_eq_zero_iff {m n : Nat} {x : BitVec m} {y : BitVec n} : x ++ y = 0#(m + n) ↔ x = 0#m ∧ y = 0#n := by
  constructor
  · intro h
    constructor
    · rw [← BitVec.extractLsb'_append_eq_left (a := x) (b := y), h, BitVec.extractLsb'_zero]
    · rw [← BitVec.extractLsb'_append_eq_right (a := x) (b := y), h, BitVec.extractLsb'_zero]
  · rintro ⟨rfl, rfl⟩
    exact BitVec.zero_append_zero

/-- The must-be-zero bits of FROM_RAW are all of `cmd.b` and `cmd.c`. -/
theorem fromRaw_mustBeZero_iff (w : Command) :
    ¬ w.extractLsb' 0 32 ≠ 0 ↔ cmdA w &&& 0 = 0 ∧ cmdB w &&& 0xFFFF#16 = 0#16 ∧ cmdC w &&& 0xFFFF#16 = 0#16 := by
  have hsplit : w.extractLsb' 0 32 = cmdB w ++ cmdC w :=
    (BitVec.extractLsb'_append_extractLsb'_eq_extractLsb' (x := w) (show 16 = 0 + 16 from rfl)).symm
  have hzero : cmdB w ++ cmdC w = (0 : BitVec 32) ↔ cmdB w = 0#16 ∧ cmdC w = 0#16 := append_eq_zero_iff
  rw [and_0xFFFF_eq_zero_iff, and_0xFFFF_eq_zero_iff, hsplit, not_not, hzero]
  simp

end Sys2Proof

end

section
/-! PROOF. The measurement codec (40_codec.md): CONSTRUCT, TO_RAW, FROM_RAW, CENTILUX and LUX in the form of the rules, and what
TO_RAW and FROM_RAW make of each other's answers. -/

namespace Sys2Proof.Machine

open Claims

/-! ### The answers to a pair -/

/-- CONSTRUCT answers the number of the bundle (R101). -/
theorem exec_construct (e f : Word) (s : State) :
    exec (.construct e f) s = .next (s.respond (pairAnswer e f (e.toNat * 4096 + f.toNat))) := by
  have hresult : ∀ m, LightMeasurement.construct e f = some m → (m.lmv.setWidth 32).toNat = e.toNat * 4096 + f.toNat := by
    intro m hm
    obtain ⟨he, hf⟩ := construct_toNat hm
    rw [BitVec.toNat_setWidth_of_le (by decide), toNat_lmv, he, hf]
  rw [← measurementResponse_construct hresult]
  rfl

/-- A measurement's centilux is the product of its pair (R104). -/
theorem toNat_centilux_of_construct {e f : Word} {m : LightMeasurement} (h : LightMeasurement.construct e f = some m) :
    m.centilux.toNat = 2 ^ e.toNat * f.toNat := by
  obtain ⟨he, hf⟩ := construct_toNat h
  rw [toNat_centilux, he, hf]

theorem exec_centilux (e f : Word) (s : State) :
    exec (.centilux e f) s = .next (s.respond (pairAnswer e f (2 ^ e.toNat * f.toNat))) := by
  rw [← measurementResponse_construct fun _ => toNat_centilux_of_construct]
  rfl

/-- The product of the largest valid pair bounds them all (R104). -/
theorem centilux_le {e f : Word} (he : e.toNat ≤ 11) (hf : f.toNat ≤ 4095) : 2 ^ e.toNat * f.toNat ≤ 8386560 :=
  Nat.mul_le_mul (Nat.pow_le_pow_right (by decide) he) hf

/-- A valid pair is that of a measurement. -/
theorem exists_construct_of_valid {e f : Word} (h : valid e f) : ∃ m, LightMeasurement.construct e f = some m :=
  Option.isSome_iff_exists.mp (construct_isSome_iff.mpr h)

/-- A pair that is not valid is answered INVALID_FIELD, whatever the operation gives a measurement (R100). -/
theorem measurementResponse_of_not_valid {e f : Word} (h : ¬ valid e f) (result : LightMeasurement → Result) :
    measurementResponse (LightMeasurement.construct e f) result = invalid := by
  rw [construct_eq_none_iff.mpr h]
  rfl

/-- A valid pair is answered OK (R100). -/
theorem measurementResponse_of_valid {e f : Word} (h : valid e f) (result : LightMeasurement → Result) :
    ∃ r, measurementResponse (LightMeasurement.construct e f) result = ⟨.ok, r⟩ := by
  obtain ⟨m, hm⟩ := exists_construct_of_valid h
  exact ⟨result m, by rw [hm]; rfl⟩

/-- The operations on a pair differ only in the result they give its measurement (R100). -/
theorem exec_pairOperation {e f : Word} {i : Instr} (hi : i ∈ [Instr.construct e f, .toRaw e f, .centilux e f, .lux e f]) :
    ∃ result, ∀ s, exec i s = .next (s.respond (measurementResponse (LightMeasurement.construct e f) result)) := by
  simp only [List.mem_cons, List.not_mem_nil, or_false] at hi
  rcases hi with rfl | rfl | rfl | rfl <;> exact ⟨_, fun _ => rfl⟩

/-! ### The raw value bit by bit -/

/-- A raw value is the bundle with the fractional's bits inverted (R102). -/
theorem lmv_xor (m : LightMeasurement) : m.lmv ^^^ 0x0FFF#16 = m.toRaw := by
  rw [LightMeasurement.lmv, LightMeasurement.toRaw, show 0x0FFF#16 = 0#4 ++ fracXor from rfl, BitVec.xor_append, BitVec.xor_zero]

/-- The bits of a 4-bit number above a 12-bit one. -/
theorem getLsbD_append_4_12 (e : BitVec 4) (f : BitVec 12) (i : Nat) :
    (e ++ f : BitVec 16).getLsbD i = if i < 12 then f.getLsbD i else e.getLsbD (i - 12) :=
  BitVec.getLsbD_append

/-- The rule's shift, XOR and mask pack a 4-bit and a 12-bit number, the latter inverted (R102). -/
theorem pack_eq_append (e f : Word) :
    (e <<< 12) ||| ((f ^^^ 0x0FFF#16) &&& 0x0FFF#16) = e.setWidth 4 ++ (f.setWidth 12 ^^^ fracXor) := by
  have hmask : ∀ i, (0x0FFF#16).getLsbD i = decide (i < 12) := fun i => by
    rw [show 0x0FFF#16 = BitVec.ofNat 16 (ones 12) from rfl, getLsbD_ofNat_ones, Bool.eq_iff_iff]
    simp
    omega
  have hfrac : ∀ i, fracXor.getLsbD i = decide (i < 12) := fun i => by
    rw [show fracXor = BitVec.allOnes 12 from rfl, BitVec.getLsbD_allOnes]
  apply BitVec.eq_of_getLsbD_eq
  intro i hi
  rw [getLsbD_append_4_12]
  simp only [BitVec.getLsbD_or, BitVec.getLsbD_and, BitVec.getLsbD_xor, BitVec.getLsbD_shiftLeft,
    BitVec.getLsbD_setWidth, hmask, hfrac]
  split_ifs with hlow
  · simp [hlow]
  · simp [hlow, hi, show i - 12 < 4 by omega]

theorem pack_eq_toRaw {e f : Word} {m : LightMeasurement} (h : LightMeasurement.construct e f = some m) :
    (e <<< 12) ||| ((f ^^^ 0x0FFF#16) &&& 0x0FFF#16) = m.toRaw := by
  obtain ⟨-, he, hf⟩ := construct_eq_some_iff.mp h
  rw [pack_eq_append, LightMeasurement.toRaw, he, hf]

/-- The bundle of a valid pair, from its number. -/
theorem ofNat_eq_lmv {e f : Word} {m : LightMeasurement} (h : LightMeasurement.construct e f = some m) :
    BitVec.ofNat 16 (e.toNat * 4096 + f.toNat) = m.lmv := by
  obtain ⟨he, hf⟩ := construct_toNat h
  rw [← he, ← hf, ← toNat_lmv, BitVec.ofNat_toNat, BitVec.setWidth_eq]

/-- TO_RAW answers the raw value that the rule packs (R102). -/
theorem exec_toRaw_pack (e f : Word) (s : State) :
    exec (.toRaw e f) s =
      .next (s.respond (pairAnswer e f ((e <<< 12) ||| ((f ^^^ 0x0FFF#16) &&& 0x0FFF#16)).toNat)) := by
  have hresult : ∀ m, LightMeasurement.construct e f = some m →
      (m.toRaw.setWidth 32).toNat = ((e <<< 12) ||| ((f ^^^ 0x0FFF#16) &&& 0x0FFF#16)).toNat := fun m hm => by
    rw [BitVec.toNat_setWidth_of_le (by decide), pack_eq_toRaw hm]
  rw [← measurementResponse_construct hresult]
  rfl

/-! ### Encoding, then decoding, and the other way round -/

theorem gives_toRaw {e f : Word} (he : e.toNat ≤ 11) (hf : f.toNat ≤ 4095) (c : Config) :
    Gives c (.toRaw e f) (okNat (e.toNat * 4096 + (4095 - f.toNat))) := fun s _ => by
  rw [exec_toRaw, pairAnswer, if_pos ⟨he, hf⟩]
  rfl

theorem gives_fromRaw (raw : Word) (c : Config) : Gives c (.fromRaw raw) (fromRawAnswer c.expXorDec raw) :=
  fun s hs => hs ▸ exec_fromRaw raw s

/-- Results of 32 bits are told apart by their numbers. -/
theorem okNat_inj {m n : Nat} (hm : m < 2 ^ 32) (hn : n < 2 ^ 32) : okNat m = okNat n ↔ m = n := by
  simp only [okNat, Response.mk.injEq, true_and, ← BitVec.toNat_inj, BitVec.toNat_ofNat, Nat.mod_eq_of_lt hm, Nat.mod_eq_of_lt hn]

/-- XORing the exponent nibble of a raw value as FROM_RAW does, and nothing else (R109). -/
theorem toNat_xor_mask_append (x : ExpXorDec) (raw : Word) :
    (raw ^^^ (x.mask ++ 0#12)).toNat = decodedExponent x raw * 4096 + raw.toNat % 4096 := by
  have hraw : raw = raw.extractLsb' 12 4 ++ raw.extractLsb' 0 12 :=
    (BitVec.extractLsb'_append_extractLsb' (w := 4) (len := 12)).symm
  conv => lhs; rw [hraw, BitVec.xor_append, BitVec.xor_zero]
  rw [toNat_append_4_12, toNat_xor_mask, BitVec.extractLsb'_toNat, Nat.shiftRight_zero]

/-- The pair decoded from a raw value, as words. -/
theorem exists_decodedPair (x : ExpXorDec) (raw : Word) :
    ∃ e f : Word, e.toNat = decodedExponent x raw ∧ f.toNat = 4095 - raw.toNat % 4096 := by
  refine ⟨(raw.extractLsb' 12 4 ^^^ x.mask).setWidth 16, (raw.extractLsb' 0 12 ^^^ fracXor).setWidth 16, ?_, ?_⟩
  · rw [BitVec.toNat_setWidth_of_le (by decide), toNat_xor_mask]
  · rw [BitVec.toNat_setWidth_of_le (by decide), toNat_fractional_xor]

/-- The exponent nibble from which FROM_RAW decodes the exponent `e` (R103). -/
def encodedNibble (x : ExpXorDec) (e : Nat) : Nat :=
  match x with
  | .plain => e
  | .inverted => 15 - e

theorem encodedNibble_le {x : ExpXorDec} {e : Nat} (he : e ≤ 11) : encodedNibble x e ≤ 15 := by
  cases x
  · exact Nat.le_trans he (by decide)
  · exact Nat.sub_le 15 e

/-- The nibble is the one XORed by the parameter. -/
theorem decodedExponent_eq_iff {x : ExpXorDec} {raw : Word} {e : Nat} (he : e ≤ 11) :
    decodedExponent x raw = e ↔ raw.toNat / 4096 = encodedNibble x e := by
  cases x with
  | plain => exact Iff.rfl
  | inverted =>
    have := raw.isLt
    simp only [decodedExponent, encodedNibble]
    omega

/-- The raw value from which FROM_RAW decodes a pair (R109). -/
def rawUnder (x : ExpXorDec) (e f : Word) : Word := BitVec.ofNat 16 (encodedNibble x e.toNat * 4096 + (4095 - f.toNat))

theorem eq_rawUnder_iff {x : ExpXorDec} {raw e f : Word} (he : e.toNat ≤ 11) (hf : f.toNat ≤ 4095) :
    raw = rawUnder x e f ↔ decodedExponent x raw = e.toNat ∧ 4095 - raw.toNat % 4096 = f.toNat := by
  have hnibble := encodedNibble_le (x := x) he
  rw [decodedExponent_eq_iff he, ← BitVec.toNat_inj, rawUnder, BitVec.toNat_ofNat]
  omega

/-- FROM_RAW answers a valid pair for that raw value alone (R109). -/
theorem fromRawAnswer_eq_okNat_iff {x : ExpXorDec} {raw e f : Word} (he : e.toNat ≤ 11) (hf : f.toNat ≤ 4095) :
    fromRawAnswer x raw = okNat (e.toNat * 4096 + f.toNat) ↔ raw = rawUnder x e f := by
  rw [eq_rawUnder_iff he hf, fromRawAnswer]
  split_ifs with hle
  · rw [okNat_inj (by omega) (by omega)]
    omega
  · simp only [invalid, okNat, Response.mk.injEq, reduceCtorEq, false_and, false_iff]
    omega

end Sys2Proof.Machine

open Sys2Proof Sys2Proof.Machine Sys2Proof.Claims

/-- Settles O1: the number of the bundle is the rule's. -/
theorem constructAnswersTheBundleOfAValidPair : Obligations.ConstructAnswersTheBundleOfAValidPair :=
  ⟨exec_construct, readsCommand_of_mem_formats (f := formats[0]) (List.getElem_mem _) pair_mustBeZero_iff⟩

/-- Settles O2: the rule packs the measurement's raw value, which is its bundle with the fractional inverted. -/
theorem toRawPacksTheExponentAndTheInvertedFractional : Obligations.ToRawPacksTheExponentAndTheInvertedFractional := by
  refine ⟨exec_toRaw_pack, fun e f he hf => ?_,
    readsCommand_of_mem_formats (f := formats[1]) (List.getElem_mem _) pair_mustBeZero_iff⟩
  obtain ⟨m, hm⟩ := exists_construct_of_valid ⟨he, hf⟩
  rw [pack_eq_toRaw hm, ofNat_eq_lmv hm, lmv_xor]

/-- Settles O3: FROM_RAW's answer is the rule's under both parameters. -/
theorem fromRawUnpacksThenValidatesUnderBothParameters : Obligations.FromRawUnpacksThenValidatesUnderBothParameters :=
  ⟨exec_fromRaw, readsCommand_of_mem_formats (f := formats[2]) (List.getElem_mem _) fromRaw_mustBeZero_iff⟩

/-- Settles O4: the product does not wrap. -/
theorem centiluxIsTheFractionalScaledByTheExponent : Obligations.CentiluxIsTheFractionalScaledByTheExponent :=
  ⟨exec_centilux, fun _ _ => centilux_le,
    readsCommand_of_mem_formats (f := formats[3]) (List.getElem_mem _) pair_mustBeZero_iff⟩

/-- Settles O31: the product is monotone in both factors, and below half its maximum for an exponent below 11. -/
theorem centiluxIsMonotoneWithOneMaximum : Obligations.CentiluxIsMonotoneWithOneMaximum := by
  refine ⟨fun e f => 2 ^ e.toNat * f.toNat, fun e f he hf s => ?_, fun e₁ f₁ e₂ f₂ he₁ hf₁ he₂ hf₂ =>
    ⟨centilux_le he₁ hf₁, fun he hf => ?_, fun hf => ?_, fun he hf => ?_, fun hf => ?_, ?_⟩⟩
  · rw [exec_centilux, pairAnswer, if_pos ⟨he, hf⟩]
    rfl
  · exact Nat.mul_le_mul (Nat.pow_le_pow_right (by decide) he) hf
  · exact Nat.mul_lt_mul_of_pos_left hf (Nat.two_pow_pos _)
  · exact Nat.mul_lt_mul_of_pos_right (Nat.pow_lt_pow_right (by decide) he) hf
  · simp only [hf, Nat.mul_zero]
  · constructor
    · intro (hmax : 2 ^ e₁.toNat * f₁.toNat = 8386560)
      have hexponent : e₁.toNat = 11 := by
        by_contra hne
        have hle : 2 ^ e₁.toNat * f₁.toNat ≤ 2 ^ 10 * 4095 :=
          Nat.mul_le_mul (Nat.pow_le_pow_right (by decide) (by omega)) hf₁
        omega
      rw [hexponent] at hmax
      omega
    · rintro ⟨he, hf⟩
      simp only [he, hf]
      decide

/-- Settles O32: each of the four answers from the measurement of the pair, where there is one. -/
theorem pairOperationsShareTheWholeWidthCheck : Obligations.PairOperationsShareTheWholeWidthCheck := by
  intro e f c i hi
  obtain ⟨result, hexec⟩ := exec_pairOperation hi
  have hgives : Gives c i _ := fun s _ => hexec s
  refine ⟨fun hwide => ?_, fun he hf => ?_⟩
  · rwa [measurementResponse_of_not_valid (by rintro ⟨he, hf⟩; omega)] at hgives
  · obtain ⟨r, hr⟩ := measurementResponse_of_valid ⟨he, hf⟩ result
    exact ⟨r, hr ▸ hgives⟩

/-- Settles O33: TO_RAW's raw value holds the exponent itself, which FROM_RAW under 0xF takes from 15; and no number is 15 minus
itself. -/
theorem encodeThenDecodeOfAPair : Obligations.EncodeThenDecodeOfAPair := by
  intro e f policy he hf
  have hanswer := fun x => gives_fromRaw (rawOf e f) ⟨x, policy⟩
  simp only [fromRawAnswer_rawOf he hf] at hanswer
  refine ⟨rawOf e f, fun c => ?_, hanswer .plain, fun hhigh => ?_, fun hlow => ?_, ?_⟩
  · rw [toNat_rawOf he]
    exact gives_toRaw he hf c
  · simpa only [if_neg (show ¬ e.toNat ≤ 3 by omega)] using hanswer .inverted
  · simpa only [if_pos hlow] using hanswer .inverted
  · rw [Ne, okNat_inj (by omega) (by omega)]
    omega

/-- Settles O34: encoding puts back the exponent that was decoded, and an answer determines the exponent nibble and the
fractional it was decoded from. -/
theorem decodeThenEncodeOfARawValue : Obligations.DecodeThenEncodeOfARawValue := by
  refine ⟨fun raw policy x => ⟨fun hle => ?_, fun hgt => ?_⟩, fun x policy e f he hf => ?_⟩
  · obtain ⟨e, f, he, hf⟩ := exists_decodedPair x raw
    have hfromRaw := gives_fromRaw raw ⟨x, policy⟩
    have htoRaw := gives_toRaw (he.trans_le hle) (hf.trans_le (Nat.sub_le _ _)) ⟨x, policy⟩
    rw [fromRawAnswer, if_pos hle, ← he, ← hf] at hfromRaw
    rw [he, hf, Nat.sub_sub_self (by omega), ← toNat_xor_mask_append] at htoRaw
    refine ⟨e, f, hfromRaw, he.trans_le hle, hf.trans_le (Nat.sub_le _ _), ?_⟩
    cases x <;> exact htoRaw
  · have hfromRaw := gives_fromRaw raw ⟨x, policy⟩
    rwa [fromRawAnswer, if_neg (Nat.not_le.mpr hgt)] at hfromRaw
  · refine ⟨rawUnder x e f, ?_, fun raw' hraw' => ?_⟩
    · rw [← (fromRawAnswer_eq_okNat_iff (x := x) he hf).mpr rfl]
      exact gives_fromRaw _ _
    · exact (fromRawAnswer_eq_okNat_iff he hf).mp (gives_unique (gives_fromRaw raw' ⟨x, policy⟩) hraw')

/-- Settles O58: the measurement's centilux is 1600. -/
theorem renderingsOfTheSourcesExample : Obligations.RenderingsOfTheSourcesExample := by
  intro m hm
  have hcentilux : m.centilux.toNat = 1600 := toNat_centilux_of_construct hm
  rw [LightMeasurement.renderCompact, LightMeasurement.renderDefault, hcentilux]
  exact ⟨rfl, rfl⟩

end

section
/-! PROOF. Which operations read which parameter (40_codec.md R112, 41_fields.md R126, 42_regmap.md R149): an operation that does not
touch the bus answers from the parameters, and `EXP_XOR_DEC` and `RO_FIELD_POLICY` each enter two answers alone. -/

namespace Sys2Proof.Machine

open Claims

/-- An operation that answers `response` of the parameters, whatever else the state holds. -/
def AnswersBy (i : Instr) (response : Config → Response) : Prop := ∀ s, exec i s = .next (s.respond (response s.config))

theorem AnswersBy.gives {i : Instr} {response : Config → Response} (h : AnswersBy i response) (c : Config) :
    Gives c i (response c) :=
  fun s hs => hs ▸ h s

/-- What such an operation answers under some parameters it answers under others that `response` does not tell apart. -/
theorem AnswersBy.gives_congr {i : Instr} {response : Config → Response} {c c' : Config} {p : Response} (h : AnswersBy i response)
    (hresponse : response c' = response c) (hp : Gives c i p) : Gives c' i p := by
  rw [gives_unique hp (h.gives c), ← hresponse]
  exact h.gives c'

/-- `EXP_XOR_DEC` does not reach the answer. -/
def IgnoresExpXorDec (response : Config → Response) : Prop := ∀ c x, response { c with expXorDec := x } = response c

/-- `RO_FIELD_POLICY` does not reach the answer. -/
def IgnoresRoFieldPolicy (response : Config → Response) : Prop :=
  ∀ c policy, response { c with roFieldPolicy := policy } = response c

/-- RDEC decodes an exponent only at the registers of layout MEAS (42_regmap.md R142). -/
theorem decodeRegisterResponse_ignoresExpXorDec {addr : Addr} (h : addr ∉ ([0x00, 0x02, 0x03] : List Addr)) (raw : Word) :
    IgnoresExpXorDec fun c => decodeRegisterResponse c addr raw := by
  intro c x
  have hmeas : ¬ (addr = 0x00 ∨ addr = 0x02 ∨ addr = 0x03) := by simpa using h
  simp only [decodeRegisterResponse_eq, rdecAnswer, if_neg hmeas]

/-- What each operation that does not touch the bus answers, and which parameters reach it. -/
theorem exists_answersBy {i : Instr} (h : touchesBus i = false) :
    ∃ response, AnswersBy i response ∧
      ((∀ raw, i ≠ .fromRaw raw) → (∀ a raw, a ∈ ([0x00, 0x02, 0x03] : List Addr) → i ≠ .rdec a raw) →
        IgnoresExpXorDec response) ∧
      ((∀ a v, i ≠ .renc a v) → (∀ fid a b v, i ≠ .fwr fid a b v) → IgnoresRoFieldPolicy response) := by
  cases i with
  | rrd | rwr => cases h
  | fromRaw raw =>
    exact ⟨fun c => fromRawResponse c raw, fun _ => rfl, fun hne => absurd rfl (hne raw), fun _ _ _ _ => rfl⟩
  | rdec addr raw =>
    refine ⟨fun c => decodeRegisterResponse c addr raw, fun _ => rfl, fun _ hne => ?_, fun _ _ _ _ => rfl⟩
    exact decodeRegisterResponse_ignoresExpXorDec (fun hmem => hne addr raw hmem rfl) raw
  | renc addr bundle =>
    exact ⟨fun c => encodeRegisterResponse c addr bundle, fun _ => rfl, fun _ _ _ _ => rfl,
      fun hne => absurd rfl (hne addr bundle)⟩
  | fwr fid addr base value =>
    exact ⟨fun c => writeFieldResponse c fid addr base value, fun _ => rfl, fun _ _ _ _ => rfl,
      fun _ hne => absurd rfl (hne fid addr base value)⟩
  | _ => exact ⟨fun _ => _, fun _ => rfl, fun _ _ _ _ => rfl, fun _ _ _ _ => rfl⟩

end Sys2Proof.Machine

open Sys2Proof Sys2Proof.Machine Sys2Proof.Claims

/-- Settles O52: the operation's answer is a function of the parameters that ignores the one changed. -/
theorem parametersReachOnlyTheirOperations : Obligations.ParametersReachOnlyTheirOperations := by
  intro i c p hbus hp
  obtain ⟨response, hanswers, hexp, hpolicy⟩ := exists_answersBy hbus
  exact ⟨fun hfromRaw hrdec x => hanswers.gives_congr (hexp hfromRaw hrdec c x) hp,
    fun hrenc hfwr policy => hanswers.gives_congr (hpolicy hrenc hfwr c policy) hp⟩

end

section
/-! PROOF. Binary32 (40_codec.md R106): every finite pattern stands for a significand times a power of two, in the order of the
patterns; rounding takes the nearest multiple of the power of two at the quotient's place, and no pattern off those multiples is
nearer. -/

namespace Sys2Proof.Machine

open Claims

/-! ### The value of a pattern -/

/-- A pattern with sign bit 0, read as the significand `k` times `2^d`: the exponent field is `d`, and one more for a normal
number, whose significand has its 24th bit. -/
theorem exists_f32Units (b : Result) (hb : b.toNat < 2 ^ 31) :
    ∃ d k, b.toNat = d * 2 ^ 23 + k ∧ k < 2 ^ 24 ∧ (d = 0 ∨ 2 ^ 23 ≤ k) ∧ f32Units b = k * 2 ^ d := by
  have hexpo : (b.extractLsb' 23 8).toNat = b.toNat / 2 ^ 23 := by
    rw [BitVec.extractLsb'_toNat, Nat.shiftRight_eq_div_pow]
    omega
  have hfrac : (b.extractLsb' 0 23).toNat = b.toNat % 2 ^ 23 := by
    rw [BitVec.extractLsb'_toNat, Nat.shiftRight_zero]
  rw [f32Units, hexpo, hfrac]
  by_cases hsub : b.toNat / 2 ^ 23 = 0
  · refine ⟨0, b.toNat % 2 ^ 23, by omega, by omega, .inl rfl, ?_⟩
    rw [if_pos hsub, Nat.pow_zero, Nat.mul_one]
  · refine ⟨b.toNat / 2 ^ 23 - 1, 2 ^ 23 + b.toNat % 2 ^ 23, by omega, by omega, .inr (by omega), ?_⟩
    rw [if_neg hsub]

/-- Values of the form above are in the order of the patterns. -/
theorem mul_two_pow_lt_of_lt {d k d' k' : Nat} (h : d * 2 ^ 23 + k < d' * 2 ^ 23 + k') (hk : k < 2 ^ 24)
    (hd : d = 0 ∨ 2 ^ 23 ≤ k) (hk' : k' < 2 ^ 24) (hd' : d' = 0 ∨ 2 ^ 23 ≤ k') : k * 2 ^ d < k' * 2 ^ d' := by
  rcases Nat.lt_trichotomy d d' with hlt | rfl | hgt
  · calc k * 2 ^ d < 2 ^ 24 * 2 ^ d := Nat.mul_lt_mul_of_pos_right hk (Nat.two_pow_pos d)
      _ = 2 ^ 23 * 2 ^ (d + 1) := by ring
      _ ≤ k' * 2 ^ d' := Nat.mul_le_mul (by omega) (Nat.pow_le_pow_right (by decide) hlt)
  · exact Nat.mul_lt_mul_of_pos_right (by omega) (Nat.two_pow_pos d)
  · omega

/-- A greater pattern stands for a greater value. -/
theorem f32Units_lt_of_lt {b b' : Result} (hb' : b'.toNat < 2 ^ 31) (h : b.toNat < b'.toNat) : f32Units b < f32Units b' := by
  obtain ⟨d, k, hpattern, hk, hd, hunits⟩ := exists_f32Units b (h.trans hb')
  obtain ⟨d', k', hpattern', hk', hd', hunits'⟩ := exists_f32Units b' hb'
  rw [hpattern, hpattern'] at h
  rw [hunits, hunits']
  exact mul_two_pow_lt_of_lt h hk hd hk' hd'

/-- Different patterns stand for different values. -/
theorem f32Units_inj {b b' : Result} (hb : b.toNat < 2 ^ 31) (hb' : b'.toNat < 2 ^ 31) (h : f32Units b = f32Units b') : b = b' := by
  rcases Nat.lt_trichotomy b.toNat b'.toNat with hlt | heq | hgt
  · exact absurd h (f32Units_lt_of_lt hb' hlt).ne
  · exact BitVec.eq_of_toNat_eq heq
  · exact absurd h (f32Units_lt_of_lt hb hgt).ne'

/-- The pattern of a significand and a power of two; a significand of `2^24` carries into the exponent field. -/
theorem f32Units_of_toNat_eq {b : Result} {d k : Nat} (hb : b.toNat = d * 2 ^ 23 + k) (hlt : b.toNat < 2 ^ 31) (hk : k ≤ 2 ^ 24)
    (hd : d = 0 ∨ 2 ^ 23 ≤ k) : f32Units b = k * 2 ^ d := by
  obtain ⟨d', k', hpattern, hk', hd', hunits⟩ := exists_f32Units b hlt
  rw [hunits]
  rcases Nat.lt_or_eq_of_le hk with hlt24 | rfl
  · obtain ⟨rfl, rfl⟩ : d' = d ∧ k' = k := by omega
    rfl
  · obtain ⟨rfl, rfl⟩ : d' = d + 1 ∧ k' = 2 ^ 23 := by omega
    ring

/-- The value of a pattern is a multiple of `2^d`, or too small to have bit `d + 23`. -/
theorem two_pow_dvd_f32Units_or_lt (b : Result) (hb : b.toNat < 2 ^ 31) (d : Nat) :
    2 ^ d ∣ f32Units b ∨ 0 < d ∧ f32Units b < 2 ^ 23 * 2 ^ d := by
  obtain ⟨d', k, -, hk, -, hunits⟩ := exists_f32Units b hb
  rw [hunits]
  rcases Nat.lt_or_ge d' d with hlt | hge
  · refine .inr ⟨by omega, ?_⟩
    calc k * 2 ^ d' < 2 ^ 24 * 2 ^ d' := Nat.mul_lt_mul_of_pos_right hk (Nat.two_pow_pos d')
      _ = 2 ^ 23 * 2 ^ (d' + 1) := by ring
      _ ≤ 2 ^ 23 * 2 ^ d := Nat.mul_le_mul_left _ (Nat.pow_le_pow_right (by decide) hlt)
  · exact .inl (Dvd.dvd.mul_left (Nat.pow_dvd_pow 2 hge) k)

/-! ### The nearest multiple -/

/-- No multiple is nearer than the rounded one, and where another is as near the rounded one is even. -/
theorem roundHalfEven_nearest {num den : Nat} (hden : 0 < den) (m : Nat) :
    Nat.dist (roundHalfEven num den * den) num ≤ Nat.dist (m * den) num ∧
      (Nat.dist (m * den) num = Nat.dist (roundHalfEven num den * den) num → m ≠ roundHalfEven num den →
        roundHalfEven num den % 2 = 0) := by
  obtain ⟨hle, hge, heven⟩ := roundHalfEven_spec num den hden
  simp only [Nat.dist]
  generalize roundHalfEven num den = k at *
  rcases Nat.lt_trichotomy m k with hlt | rfl | hgt
  · have hstep : m * den + den ≤ k * den := Nat.succ_mul m den ▸ Nat.mul_le_mul_right den hlt
    exact ⟨by omega, fun htie _ => heven (by omega)⟩
  · exact ⟨Nat.le_refl _, fun _ hne => absurd rfl hne⟩
  · have hstep : k * den + den ≤ m * den := Nat.succ_mul k den ▸ Nat.mul_le_mul_right den hgt
    exact ⟨by omega, fun htie _ => heven (by omega)⟩

/-- Rounding does not pass a multiple above the number. -/
theorem roundHalfEven_le {n D m : Nat} (hD : 0 < D) (h : n < m * D) : roundHalfEven n D ≤ m := by
  obtain ⟨hle, -, -⟩ := roundHalfEven_spec n D hD
  by_contra hgt
  have hstep : m * D + D ≤ roundHalfEven n D * D := Nat.succ_mul m D ▸ Nat.mul_le_mul_right D (Nat.not_le.mp hgt)
  omega

/-- Nor does it pass one below. -/
theorem le_roundHalfEven {n D m : Nat} (hD : 0 < D) (h : m * D ≤ n) : m ≤ roundHalfEven n D := by
  obtain ⟨-, hge, -⟩ := roundHalfEven_spec n D hD
  by_contra hlt
  have hstep : roundHalfEven n D * D + D ≤ m * D := Nat.succ_mul _ D ▸ Nat.mul_le_mul_right D (Nat.not_le.mp hlt)
  omega

/-- Of two numbers below a third the smaller is farther from it. -/
theorem dist_lt_dist {a b n : Nat} (hab : a < b) (hbn : b ≤ n) : Nat.dist b n < Nat.dist a n := by
  rw [Nat.dist_eq_sub_of_le hbn, Nat.dist_eq_sub_of_le (hab.le.trans hbn)]
  omega

/-- A multiple is rounded to itself. -/
theorem roundHalfEven_of_dvd {num den : Nat} (hden : 0 < den) (h : den ∣ num) : roundHalfEven num den * den = num := by
  rw [roundHalfEven, Nat.mod_eq_zero_of_dvd h]
  simp only [Nat.mul_zero, Nat.not_lt_zero, hden.ne, false_and, or_self, if_false]
  exact Nat.div_mul_cancel h

theorem roundHalfEven_mul_right {num den s : Nat} (hs : 0 < s) : roundHalfEven (num * s) (den * s) = roundHalfEven num den := by
  have hlt : den * s < 2 * (num % den * s) ↔ den < 2 * (num % den) := by
    rw [← Nat.mul_assoc, Nat.mul_lt_mul_right hs]
  have heq : 2 * (num % den * s) = den * s ↔ 2 * (num % den) = den := by
    rw [← Nat.mul_assoc, Nat.mul_left_inj hs.ne']
  simp only [roundHalfEven, Nat.mul_div_mul_right _ _ hs, Nat.mul_mod_mul_right, hlt, heq]

/-! ### Rounding a quotient -/

/-- The bits of a quotient, in units of 2^-149, below the 24 that are kept. -/
def f32Dropped (num den : Nat) : Nat := Nat.log2 (num * 2 ^ 149 / den) - 23

/-- The significand to which they are rounded. -/
def f32Significand (num den : Nat) : Nat := roundHalfEven (num * 2 ^ 149) (den * 2 ^ f32Dropped num den)

theorem f32Round_eq (num den : Nat) :
    f32Round num den = BitVec.ofNat 32 (min (f32Dropped num den * 2 ^ 23 + f32Significand num den) 0x7F800000) :=
  rfl

/-- A quotient is rounded in lowest terms or in any other. -/
theorem f32Round_mul_right {num den s : Nat} (hs : 0 < s) : f32Round (num * s) (den * s) = f32Round num den := by
  have hnum : num * s * 2 ^ 149 = num * 2 ^ 149 * s := Nat.mul_right_comm _ _ _
  have hdropped : f32Dropped (num * s) (den * s) = f32Dropped num den := by
    rw [f32Dropped, hnum, Nat.mul_div_mul_right _ _ hs, f32Dropped]
  have hsignificand : f32Significand (num * s) (den * s) = f32Significand num den := by
    rw [f32Significand, hdropped, hnum, Nat.mul_right_comm den s, roundHalfEven_mul_right hs, f32Significand]
  rw [f32Round_eq, f32Round_eq, hdropped, hsignificand]

section
variable {num den : Nat}

/-- The quotient has at most 24 bits above those dropped. -/
theorem lt_two_pow_dropped (hden : 0 < den) : num * 2 ^ 149 < 2 ^ 24 * (den * 2 ^ f32Dropped num den) := by
  have hlog : num * 2 ^ 149 / den < 2 ^ (Nat.log2 (num * 2 ^ 149 / den) + 1) := Nat.lt_log2_self
  have hpow : 2 ^ (Nat.log2 (num * 2 ^ 149 / den) + 1) ≤ 2 ^ (24 + f32Dropped num den) :=
    Nat.pow_le_pow_right (by decide) (by unfold f32Dropped; omega)
  calc num * 2 ^ 149 < 2 ^ (24 + f32Dropped num den) * den := (Nat.div_lt_iff_lt_mul hden).mp (hlog.trans_le hpow)
    _ = 2 ^ 24 * (den * 2 ^ f32Dropped num den) := by ring

/-- Where bits are dropped the quotient has no fewer than 24 above them. -/
theorem two_pow_dropped_le (hden : 0 < den) (hdropped : 0 < f32Dropped num den) :
    2 ^ 23 * (den * 2 ^ f32Dropped num den) ≤ num * 2 ^ 149 := by
  have hlog : Nat.log2 (num * 2 ^ 149 / den) = 23 + f32Dropped num den := by
    unfold f32Dropped at *
    omega
  have hne : num * 2 ^ 149 / den ≠ 0 := fun hzero => by
    rw [hzero, Nat.log2_zero] at hlog
    omega
  have hle : 2 ^ (23 + f32Dropped num den) ≤ num * 2 ^ 149 / den := hlog ▸ Nat.log2_self_le hne
  calc 2 ^ 23 * (den * 2 ^ f32Dropped num den) = 2 ^ (23 + f32Dropped num den) * den := by ring
    _ ≤ num * 2 ^ 149 := (Nat.le_div_iff_mul_le hden).mp hle

/-- A quotient below `2^(24 + j)` drops at most `j` bits. -/
theorem f32Dropped_le (hden : 0 < den) {j : Nat} (h : num * 2 ^ 149 < den * 2 ^ (24 + j)) : f32Dropped num den ≤ j := by
  rcases Nat.eq_zero_or_pos (f32Dropped num den) with hzero | hpos
  · omega
  · have hlt : den * 2 ^ (23 + f32Dropped num den) < den * 2 ^ (24 + j) :=
      calc den * 2 ^ (23 + f32Dropped num den) = 2 ^ 23 * (den * 2 ^ f32Dropped num den) := by ring
        _ ≤ num * 2 ^ 149 := two_pow_dropped_le hden hpos
        _ < den * 2 ^ (24 + j) := h
    have hexp := (Nat.pow_lt_pow_iff_right (by decide)).mp (Nat.lt_of_mul_lt_mul_left hlt)
    omega

theorem f32Significand_le (hden : 0 < den) : f32Significand num den ≤ 2 ^ 24 :=
  roundHalfEven_le (Nat.mul_pos hden (Nat.two_pow_pos _)) (lt_two_pow_dropped hden)

/-- The significand is that of a normal number, unless no bit is dropped. -/
theorem le_f32Significand (hden : 0 < den) : f32Dropped num den = 0 ∨ 2 ^ 23 ≤ f32Significand num den :=
  (Nat.eq_zero_or_pos _).imp_right fun hpos =>
    le_roundHalfEven (Nat.mul_pos hden (Nat.two_pow_pos _)) (two_pow_dropped_le hden hpos)

/-- No multiple of the last place kept is nearer than the significand, and where another is as near the significand is even. -/
theorem f32Significand_nearest (hden : 0 < den) (m : Nat) :
    Nat.dist (f32Significand num den * (den * 2 ^ f32Dropped num den)) (num * 2 ^ 149) ≤
        Nat.dist (m * (den * 2 ^ f32Dropped num den)) (num * 2 ^ 149) ∧
      (Nat.dist (m * (den * 2 ^ f32Dropped num den)) (num * 2 ^ 149) =
          Nat.dist (f32Significand num den * (den * 2 ^ f32Dropped num den)) (num * 2 ^ 149) →
        m ≠ f32Significand num den → f32Significand num den % 2 = 0) :=
  roundHalfEven_nearest (Nat.mul_pos hden (Nat.two_pow_pos _)) m

/-- The pattern of a quotient well inside the finite range. -/
theorem toNat_f32Round (hden : 0 < den) (h : num < den * 2 ^ 100) :
    (f32Round num den).toNat = f32Dropped num den * 2 ^ 23 + f32Significand num den ∧ (f32Round num den).toNat < 0x7F800000 := by
  have hdropped : f32Dropped num den ≤ 225 := f32Dropped_le hden <|
    calc num * 2 ^ 149 < den * 2 ^ 100 * 2 ^ 149 := Nat.mul_lt_mul_of_pos_right h (Nat.two_pow_pos 149)
      _ = den * 2 ^ (24 + 225) := by ring
  have hsignificand := f32Significand_le (num := num) hden
  rw [f32Round_eq, BitVec.toNat_ofNat]
  omega

theorem f32Units_f32Round (hden : 0 < den) (h : num < den * 2 ^ 100) :
    f32Units (f32Round num den) = f32Significand num den * 2 ^ f32Dropped num den := by
  obtain ⟨hpattern, hfinite⟩ := toNat_f32Round hden h
  exact f32Units_of_toNat_eq hpattern (by omega) (f32Significand_le hden) (le_f32Significand hden)

/-- The statements' distance as one between natural numbers. -/
theorem distance_eq_dist (num den : Nat) (b : Result) : distance num den b = Nat.dist (f32Units b * den) (num * 2 ^ 149) := by
  have hcast : distance num den b = (((f32Units b * den : Nat) : Int) - (num * 2 ^ 149 : Nat)).natAbs := by
    rw [distance]
    push_cast
    rfl
  rw [hcast, Nat.dist]
  omega

/-- The distance of a pattern whose value is a multiple of `2^d`. -/
theorem distance_of_units_eq {b : Result} {m d : Nat} (h : f32Units b = m * 2 ^ d) :
    distance num den b = Nat.dist (m * (den * 2 ^ d)) (num * 2 ^ 149) := by
  rw [distance_eq_dist, h, Nat.mul_assoc, Nat.mul_comm (2 ^ d)]

/-- The rounded quotient is the nearest pattern, with the even fraction where another is as near (R106). -/
theorem isNearest_f32Round (hden : 0 < den) (h : num < den * 2 ^ 100) : IsNearest num den (f32Round num den) := by
  obtain ⟨hpattern, hfinite⟩ := toNat_f32Round hden h
  have hunits := f32Units_f32Round hden h
  refine ⟨hfinite, fun b hb => ?_⟩
  rw [distance_of_units_eq hunits]
  rcases two_pow_dvd_f32Units_or_lt b (by omega) (f32Dropped num den) with ⟨m, hm⟩ | ⟨hpos, hlt⟩
  · have hm' : f32Units b = m * 2 ^ f32Dropped num den := hm.trans (Nat.mul_comm _ _)
    obtain ⟨hle, heven⟩ := f32Significand_nearest (num := num) hden m
    rw [distance_of_units_eq hm']
    refine ⟨hle, fun htie hne => ?_⟩
    have hother : m ≠ f32Significand num den := fun heq =>
      hne (f32Units_inj (by omega) (by omega) (by rw [hm', hunits, heq]))
    have hsignificand : f32Significand num den % 2 = 0 := heven htie hother
    omega
  · have hbelow : f32Units b * den < 2 ^ 23 * (den * 2 ^ f32Dropped num den) :=
      calc f32Units b * den < 2 ^ 23 * 2 ^ f32Dropped num den * den := Nat.mul_lt_mul_of_pos_right hlt hden
        _ = 2 ^ 23 * (den * 2 ^ f32Dropped num den) := by ring
    obtain ⟨hle, -⟩ := f32Significand_nearest (num := num) hden (2 ^ 23)
    have hfar := Nat.lt_of_le_of_lt hle (dist_lt_dist hbelow (two_pow_dropped_le hden hpos))
    rw [← distance_eq_dist] at hfar
    exact ⟨hfar.le, fun htie => absurd htie hfar.ne'⟩

theorem f32Round_zero (den : Nat) : f32Round 0 den = 0 := by
  simp [f32Round, roundHalfEven]

/-- The rounded quotient is exact when it is a multiple of the last place kept. -/
theorem f32Units_f32Round_of_dvd (hden : 0 < den) (h : num < den * 2 ^ 100)
    (hdvd : den * 2 ^ f32Dropped num den ∣ num * 2 ^ 149) :
    f32Units (f32Round num den) * den = num * 2 ^ 149 := by
  rw [f32Units_f32Round hden h, Nat.mul_assoc, Nat.mul_comm _ den]
  exact roundHalfEven_of_dvd (Nat.mul_pos hden (Nat.two_pow_pos _)) hdvd

/-- A quotient of at least `2^-126` is rounded to a normal number. -/
theorem le_toNat_f32Round (hden : 0 < den) (h : num < den * 2 ^ 100) (hnormal : den ≤ num * 2 ^ 126) :
    2 ^ 23 ≤ (f32Round num den).toNat := by
  rw [(toNat_f32Round hden h).1]
  rcases Nat.eq_zero_or_pos (f32Dropped num den) with hzero | hpos
  · have hle : 2 ^ 23 * (den * 2 ^ f32Dropped num den) ≤ num * 2 ^ 149 := by
      rw [hzero]
      omega
    have hsignificand : 2 ^ 23 ≤ f32Significand num den := le_roundHalfEven (Nat.mul_pos hden (Nat.two_pow_pos _)) hle
    omega
  · omega

end

/-! ### Lux -/

theorem f32Units_hundred : f32Units f32Hundred = 100 * 2 ^ 149 := rfl

/-- Centilux is exact in binary32 (R106). -/
theorem f32Units_u32ToF32 {c : Result} (h : c.toNat ≤ 8386560) : f32Units (u32ToF32 c) = c.toNat * 2 ^ 149 := by
  have hdropped : f32Dropped c.toNat 1 ≤ 149 := f32Dropped_le (by decide) (by omega)
  have hdvd : 1 * 2 ^ f32Dropped c.toNat 1 ∣ c.toNat * 2 ^ 149 := by
    rw [Nat.one_mul]
    exact Dvd.dvd.mul_left (Nat.pow_dvd_pow 2 hdropped) _
  rw [u32ToF32, ← f32Units_f32Round_of_dvd (by decide) (by omega) hdvd, Nat.mul_one]

/-- The division of R105 rounds the quotient by 100 once. -/
theorem f32Div_u32ToF32 {c : Result} (h : c.toNat ≤ 8386560) : f32Div (u32ToF32 c) f32Hundred = f32Round c.toNat 100 := by
  rw [f32Div, f32Units_u32ToF32 h, f32Units_hundred, f32Round_mul_right (Nat.two_pow_pos 149)]

/-- A hundredth of centilux is exact for a multiple of 25 alone: the significand has room for the other factor, 4 (R106). -/
theorem f32Round_hundred_exact_iff {n : Nat} (h : n ≤ 8386560) :
    f32Units (f32Round n 100) * 100 = n * 2 ^ 149 ↔ n % 25 = 0 := by
  rw [← Nat.dvd_iff_mod_eq_zero]
  constructor
  · intro hexact
    have hdvd : 25 ∣ n * 2 ^ 149 := hexact ▸ Dvd.dvd.mul_left (by decide) _
    exact Nat.Coprime.dvd_of_dvd_mul_right (Nat.Coprime.pow_right 149 (by decide)) hdvd
  · intro hdvd
    have hdropped : f32Dropped n 100 ≤ 147 := f32Dropped_le (by decide) (by omega)
    refine f32Units_f32Round_of_dvd (by decide) (by omega) ?_
    have hfactor : 100 * 2 ^ f32Dropped n 100 = 25 * 2 ^ (2 + f32Dropped n 100) := by ring
    rw [hfactor]
    exact Nat.mul_dvd_mul hdvd (Nat.pow_dvd_pow 2 (by omega))

/-- The result of LUX, from the product (R105). -/
theorem lux_of_construct {e f : Word} {m : LightMeasurement} (h : LightMeasurement.construct e f = some m) :
    m.lux = f32Round (2 ^ e.toNat * f.toNat) 100 := by
  obtain ⟨⟨he, hf⟩, -⟩ := construct_eq_some_iff.mp h
  have hcentilux := toNat_centilux_of_construct h
  rw [LightMeasurement.lux, f32Div_u32ToF32 (hcentilux ▸ centilux_le he hf), hcentilux]

end Sys2Proof.Machine

open Sys2Proof Sys2Proof.Machine Sys2Proof.Claims

/-- Settles O5: LUX answers the rounded quotient, which is the nearest pattern. -/
theorem luxIsCentiluxOverAHundredNearestBinary32 : Obligations.LuxIsCentiluxOverAHundredNearestBinary32 := by
  refine ⟨fun e f s he hf => ?_, fun e f s hinvalid => ?_,
    readsCommand_of_mem_formats (f := formats[4]) (List.getElem_mem _) pair_mustBeZero_iff⟩
  · obtain ⟨m, hm⟩ := exists_construct_of_valid ⟨he, hf⟩
    have hle := centilux_le he hf
    refine ⟨f32Round (2 ^ e.toNat * f.toNat) 100, isNearest_f32Round (by decide) (by omega), ?_⟩
    rw [← lux_of_construct hm, exec, execLux, hm]
    rfl
  · rw [exec, execLux, measurementResponse_of_not_valid hinvalid]
    rfl

/-- Settles O30: centilux and 100 are exact, so the division rounds the quotient c / 100 once. -/
theorem luxDivisionIsCorrectlyRounded : Obligations.LuxDivisionIsCorrectlyRounded := by
  refine ⟨f32Units_hundred, fun c hc => ?_⟩
  have hbound : c.toNat < 100 * 2 ^ 100 := by omega
  have hnormal : c ≠ 0 → 2 ^ 23 ≤ (f32Round c.toNat 100).toNat := fun hne => by
    have hpos : c.toNat ≠ 0 := fun hzero => hne (BitVec.eq_of_toNat_eq hzero)
    exact le_toNat_f32Round (by decide) hbound (by omega)
  rw [show (0x42C80000 : Result) = f32Hundred from rfl, f32Div_u32ToF32 hc]
  refine ⟨f32Units_u32ToF32 hc, isNearest_f32Round (by decide) hbound, ⟨fun hzero => ?_, ?_⟩, hnormal,
    f32Round_hundred_exact_iff hc⟩
  · by_contra hne
    have hle := hnormal hne
    rw [hzero] at hle
    exact absurd hle (by decide)
  · rintro rfl
    exact f32Round_zero 100

end

section
/-! PROOF. The field operations (41_fields.md): FEXT, FINS, EDEC and EENC in the form of the rules, how the block reads their
commands, and what each operation makes of another's answer. -/

namespace Sys2Proof

open Machine Claims

/-! ### The operands of the four commands (30_encoding.md R72, R80) -/

/-- A slice of `cmd.a` is a slice of the command. -/
theorem extractLsb'_cmdA (w : Command) {start len : Nat} (h : start + len ≤ 16) :
    (cmdA w).extractLsb' start len = w.extractLsb' (32 + start) len := by
  apply BitVec.eq_of_getLsbD_eq
  intro i hi
  simp [cmdA, hi, show start + i < 16 by omega, Nat.add_assoc]

/-- A slice of `cmd.c` is a slice of the command. -/
theorem extractLsb'_cmdC (w : Command) {start len : Nat} (h : start + len ≤ 16) :
    (cmdC w).extractLsb' start len = w.extractLsb' start len :=
  BitVec.extractLsb'_extractLsb'_of_le h

theorem operandLo_eq (w : Command) : operandLo w = (w.extractLsb' 0 4).toNat :=
  congrArg BitVec.toNat (extractLsb'_cmdC w (by decide))

theorem operandHi_eq (w : Command) : operandHi w = (w.extractLsb' 4 4).toNat :=
  congrArg BitVec.toNat (extractLsb'_cmdC w (by decide))

theorem operandEnumFid_eq (w : Command) : operandEnumFid w = (w.extractLsb' 32 4).toNat :=
  congrArg BitVec.toNat (extractLsb'_cmdA w (by decide))

/-- The must-be-zero bits of FINS are those of `cmd.c` above the range. -/
theorem fins_mustBeZero_iff (w : Command) :
    ¬ w.extractLsb' 8 8 ≠ 0 ↔ cmdA w &&& 0 = 0 ∧ cmdB w &&& 0 = 0 ∧ cmdC w &&& 0xFF00#16 = 0#16 := by
  rw [and_0xFF00_eq_zero_iff, extractLsb'_cmdC w (by decide)]
  simp

/-- FEXT has no value, so `cmd.b` must be zero too. -/
theorem fext_mustBeZero_iff (w : Command) :
    ¬ (w.extractLsb' 16 16 ≠ 0 ∨ w.extractLsb' 8 8 ≠ 0) ↔
      cmdA w &&& 0 = 0 ∧ cmdB w &&& 0xFFFF#16 = 0#16 ∧ cmdC w &&& 0xFF00#16 = 0#16 := by
  rw [and_0xFFFF_eq_zero_iff, and_0xFF00_eq_zero_iff, extractLsb'_cmdC w (by decide)]
  simp [cmdB]

/-- The must-be-zero bits of EDEC and EENC are those of `cmd.a` above the field id, and all of `cmd.c`. -/
theorem enum_mustBeZero_iff (w : Command) :
    ¬ (w.extractLsb' 36 12 ≠ 0 ∨ w.extractLsb' 0 16 ≠ 0) ↔
      cmdA w &&& 0xFFF0#16 = 0#16 ∧ cmdB w &&& 0 = 0 ∧ cmdC w &&& 0xFFFF#16 = 0#16 := by
  rw [and_0xFFF0_eq_zero_iff, and_0xFFFF_eq_zero_iff, extractLsb'_cmdA w (by decide)]
  simp [cmdC]

namespace Machine

/-! ### FEXT and FINS -/

/-- FEXT's response, by the rule (41_fields.md R120). -/
theorem extractResponse_eq (raw : Word) (lo hi : Nat) :
    extractResponse raw lo hi = if lo > hi then refused else okNat (raw.toNat / 2 ^ lo % 2 ^ (hi - lo + 1)) := by
  rw [extractResponse, okWord_eq_okNat, toNat_extractField]
  rfl

theorem exec_fext (raw : Word) (lo hi : Nat) (s : State) :
    exec (.fext raw lo hi) s = .next (s.respond (extractResponse raw lo hi)) := rfl

theorem gives_fext {lo hi : Nat} (hle : lo ≤ hi) (raw : Word) (c : Config) :
    Gives c (.fext raw lo hi) (okNat (extractField raw lo hi).toNat) := fun s _ => by
  rw [exec_fext, extractResponse, if_neg (Nat.not_lt.mpr hle), okWord_eq_okNat]
  rfl

/-- A value that fits a range is inserted (R121). -/
theorem exec_fins_of_fits {lo hi : Nat} {v : Word} (hle : lo ≤ hi) (hfit : v.toNat < 2 ^ (hi - lo + 1)) (raw : Word) (s : State) :
    exec (.fins raw v lo hi) s = .next (s.respond (okNat (insertField raw v lo hi).toNat)) := by
  rw [exec, execFins, if_neg (Nat.not_lt.mpr hle), insertResponse, if_pos (fitsField_iff.mpr hfit), okWord_eq_okNat]

/-- A reversed range, or a value too wide for the range, is refused (R121). -/
theorem exec_fins_refused {lo hi : Nat} {v : Word} (h : hi < lo ∨ 2 ^ (hi - lo + 1) ≤ v.toNat) (raw : Word) (s : State) :
    exec (.fins raw v lo hi) s = .next (s.respond refused) := by
  rw [exec, execFins]
  split_ifs with hreversed
  · rfl
  · have hwide : ¬ fitsField v lo hi = true := fun hfit => by
      have := fitsField_iff.mp hfit
      omega
    rw [insertResponse, if_neg hwide]
    rfl

theorem gives_fins {lo hi : Nat} {v : Word} (hle : lo ≤ hi) (hfit : v.toNat < 2 ^ (hi - lo + 1)) (raw : Word) (c : Config) :
    Gives c (.fins raw v lo hi) (okNat (insertField raw v lo hi).toNat) :=
  fun s _ => exec_fins_of_fits hle hfit raw s

theorem extractField_lt (raw : Word) (lo hi : Nat) : (extractField raw lo hi).toNat < 2 ^ (hi - lo + 1) := by
  rw [toNat_extractField]
  exact Nat.mod_lt _ (Nat.two_pow_pos _)

/-- The last value inserted into a field is the one that stays (R124). -/
theorem insertField_insertField_same {raw v v' : Word} {lo hi : Nat} (hle : lo ≤ hi) (hfit : v.toNat < 2 ^ (hi - lo + 1))
    (hfit' : v'.toNat < 2 ^ (hi - lo + 1)) : insertField (insertField raw v lo hi) v' lo hi = insertField raw v' lo hi := by
  apply BitVec.eq_of_getLsbD_eq
  intro i hi16
  rw [getLsbD_insertField hle hfit' i hi16, getLsbD_insertField hle hfit' i hi16]
  split_ifs with hin
  · rfl
  · rw [getLsbD_insertField hle hfit i hi16, if_neg hin]

/-- An operation that answers with a word answers with one word. -/
theorem gives_okNat_unique {c : Config} {i : Instr} {x y : Word} (hx : Gives c i (okNat x.toNat)) (hy : Gives c i (okNat y.toNat)) :
    x = y :=
  BitVec.eq_of_toNat_eq ((okNat_inj (by omega) (by omega)).mp (gives_unique hx hy))

/-! ### EDEC and EENC -/

/-- Three fields of layout CFG are enumerations (10_state.md R30, R32 to R34). -/
theorem enumField?_eq_none {fid : Nat} (h0 : fid ≠ 0) (h8 : fid ≠ 8) (h9 : fid ≠ 9) : enumField? fid = none := by
  by_cases hfid : fid < Layout.cfg.fields.length
  · have hfields : ∀ k < Layout.cfg.fields.length, k ≠ 0 → k ≠ 8 → k ≠ 9 → enumField? k = none := by decide
    exact hfields fid hfid h0 h8 h9
  · rw [enumField?, Layout.field?, List.getElem?_eq_none (Nat.not_lt.mp hfid)]

/-- A pattern too wide for its field has no variant (R122). -/
theorem enumDecode_of_wide {fid : Nat} {f : FieldDesc} {e : EnumDesc} {p : Word} (hfield : enumField? fid = some (f, e))
    (hwide : 2 ^ f.width ≤ p.toNat) : enumDecode fid p = none := by
  have hfit : ¬ fitsField p f.lo f.hi = true := fun h => Nat.not_lt.mpr hwide (fitsField_iff.mp h)
  simp only [enumDecode, hfield, if_neg hfit]

/-- A number above every code is no variant's code (R123). -/
theorem patternOf_eq_none {e : EnumDesc} {n : Nat} {k : Word} (hentries : ∀ x ∈ e.entries, x.2.code.toNat < n)
    (hcatchAll : ∀ c ∈ e.catchAll, c.variant.code.toNat < n) (hk : n ≤ k.toNat) : e.patternOf k = none := by
  have hne : ∀ code : Word, code.toNat < n → ¬ (code == k) = true := fun code hlt heq => by
    rw [eq_of_beq heq] at hlt
    omega
  rw [EnumDesc.patternOf, List.find?_eq_none.mpr fun x hx => hne _ (hentries x hx)]
  have hfilter : e.catchAll.filter (fun c => c.variant.code == k) = none :=
    Option.filter_eq_none_iff.mpr fun c hc => hne _ (hcatchAll c hc)
  simp only [hfilter, Option.map_none]

theorem enumEncode_of_enumField? {fid : Nat} {f : FieldDesc} {e : EnumDesc} (hfield : enumField? fid = some (f, e)) (k : Word) :
    enumEncode fid k = e.patternOf k := by
  simp only [enumEncode, hfield]

/-- The enumerated fields of layout CFG: field id, width and number of variants (10_state.md R30, R32 to R34). -/
def enumSizes : List (Nat × Nat × Nat) := [(0, 2, 4), (8, 2, 3), (9, 1, 2)]

section
variable {fid width codes : Nat} {k p : Word}

/-- The tables of the model have these sizes. -/
theorem exists_enumField?_of_mem_enumSizes (h : (fid, width, codes) ∈ enumSizes) :
    ∃ f e, enumField? fid = some (f, e) ∧ f.width = width ∧ (∀ x ∈ e.entries, x.2.code.toNat < codes) ∧
      ∀ c ∈ e.catchAll, c.variant.code.toNat < codes := by
  simp only [enumSizes, List.mem_cons, List.not_mem_nil, or_false, Prod.mk.injEq] at h
  rcases h with ⟨rfl, rfl, rfl⟩ | ⟨rfl, rfl, rfl⟩ | ⟨rfl, rfl, rfl⟩ <;> exact ⟨_, _, rfl, rfl, by decide, by decide⟩

/-- The code of a pattern is its own number, but 2 for the catch-all's second pattern (R122). -/
def decodedCode (fid : Nat) (p : Word) : Word := if fid = 8 ∧ p = 3 then 2 else p

theorem toNat_decodedCode (fid : Nat) (p : Word) :
    (decodedCode fid p).toNat = if fid = 8 ∧ p = 3 then 2 else p.toNat :=
  apply_ite BitVec.toNat _ _ _

/-- Every pattern of the width has a code (R122, R125). -/
theorem enumDecode_of_lt (h : (fid, width, codes) ∈ enumSizes) (hp : p.toNat < 2 ^ width) :
    enumDecode fid p = some (decodedCode fid p) := by
  simp only [enumSizes, List.mem_cons, List.not_mem_nil, or_false, Prod.mk.injEq] at h
  rcases h with ⟨rfl, rfl, rfl⟩ | ⟨rfl, rfl, rfl⟩ | ⟨rfl, rfl, rfl⟩
  · simpa [decodedCode] using enumDecode_faultCount hp
  · simpa [decodedCode, resolvedMode] using enumDecode_mode hp
  · simpa [decodedCode] using enumDecode_time hp

/-- A wider pattern has none (R122). -/
theorem enumDecode_of_le (h : (fid, width, codes) ∈ enumSizes) (hp : 2 ^ width ≤ p.toNat) : enumDecode fid p = none := by
  obtain ⟨f, e, hfield, rfl, -, -⟩ := exists_enumField?_of_mem_enumSizes h
  exact enumDecode_of_wide hfield hp

/-- Every code is its variant's pattern, by `CONT_ENC` for the catch-all's (R123). -/
theorem enumEncode_of_lt (h : (fid, width, codes) ∈ enumSizes) (hk : k.toNat < codes) : enumEncode fid k = some k := by
  have hcodes : ∀ row ∈ enumSizes, ∀ n < row.2.2, enumEncode row.1 (BitVec.ofNat 16 n) = some (BitVec.ofNat 16 n) := by decide
  exact of_forall_ofNat (P := fun k => enumEncode fid k = some k) (hcodes _ h) hk

/-- A number that is no variant's code has no pattern (R123). -/
theorem enumEncode_of_le (h : (fid, width, codes) ∈ enumSizes) (hk : codes ≤ k.toNat) : enumEncode fid k = none := by
  obtain ⟨f, e, hfield, -, hentries, hcatchAll⟩ := exists_enumField?_of_mem_enumSizes h
  rw [enumEncode_of_enumField? hfield, patternOf_eq_none hentries hcatchAll hk]

/-- The code of a pattern of the width is a variant's code. -/
theorem decodedCode_lt (h : (fid, width, codes) ∈ enumSizes) (hp : p.toNat < 2 ^ width) : (decodedCode fid p).toNat < codes := by
  have hcodes : ∀ row ∈ enumSizes, ∀ n < 2 ^ row.2.1, (decodedCode row.1 (BitVec.ofNat 16 n)).toNat < row.2.2 := by decide
  exact of_forall_ofNat (P := fun p => (decodedCode fid p).toNat < codes) (hcodes _ h) hp

/-- A variant's code, taken as a pattern, is a pattern of the width and decodes to itself (R125). -/
theorem decodedCode_of_lt (h : (fid, width, codes) ∈ enumSizes) (hk : k.toNat < codes) :
    k.toNat < 2 ^ width ∧ decodedCode fid k = k := by
  have hcodes : ∀ row ∈ enumSizes, ∀ n < row.2.2,
      (BitVec.ofNat 16 n).toNat < 2 ^ row.2.1 ∧ decodedCode row.1 (BitVec.ofNat 16 n) = BitVec.ofNat 16 n := by decide
  exact of_forall_ofNat (P := fun k => k.toNat < 2 ^ width ∧ decodedCode fid k = k) (hcodes _ h) hk

/-- EDEC's response at an enumerated field whose largest pattern is `top` (R122). -/
theorem okOrRefuse_enumDecode {top : Nat} (h : (fid, width, codes) ∈ enumSizes) (htop : 2 ^ width = top + 1) :
    Response.okOrRefuse (enumDecode fid p) = if p.toNat ≤ top then okNat (decodedCode fid p).toNat else refused := by
  split_ifs with hp
  · rw [enumDecode_of_lt h (by omega)]
    exact okWord_eq_okNat _
  · rw [enumDecode_of_le h (by omega)]
    rfl

/-- EENC's response at an enumerated field whose largest code is `top` (R123). -/
theorem okOrRefuse_enumEncode {top : Nat} (h : (fid, width, top + 1) ∈ enumSizes) :
    Response.okOrRefuse (enumEncode fid k) = if k.toNat ≤ top then okNat k.toNat else refused := by
  split_ifs with hk
  · rw [enumEncode_of_lt h (by omega)]
    exact okWord_eq_okNat k
  · rw [enumEncode_of_le h (by omega)]
    rfl

end

/-- The code of a pattern of `convertion_mode`, as the rule lists it (R122). -/
theorem toNat_decodedCode_mode {p : Word} (hp : p.toNat ≤ 3) :
    (decodedCode 8 p).toNat = if p.toNat ≤ 1 then p.toNat else 2 :=
  of_forall_ofNat (P := fun p => (decodedCode 8 p).toNat = if p.toNat ≤ 1 then p.toNat else 2) (n := 4) (by decide)
    (Nat.lt_succ_of_le hp)

/-- EDEC's response, by the rule (R122). -/
theorem okOrRefuse_enumDecode_eq (fid : Nat) (p : Word) : Response.okOrRefuse (enumDecode fid p) = edecAnswer fid p := by
  by_cases h0 : fid = 0
  · subst h0
    exact okOrRefuse_enumDecode (fid := 0) (width := 2) (codes := 4) (top := 3) (by decide) rfl
  by_cases h8 : fid = 8
  · subst h8
    have hanswer : edecAnswer 8 p = if p.toNat ≤ 1 then okNat p.toNat else if p.toNat ≤ 3 then okNat 2 else refused := rfl
    rw [hanswer, okOrRefuse_enumDecode (fid := 8) (width := 2) (codes := 3) (top := 3) (by decide) rfl]
    by_cases hp : p.toNat ≤ 3
    · rw [if_pos hp, if_pos hp, toNat_decodedCode_mode hp, apply_ite okNat]
    · rw [if_neg hp, if_neg hp, if_neg fun h => hp (h.trans (by decide))]
  by_cases h9 : fid = 9
  · subst h9
    exact okOrRefuse_enumDecode (fid := 9) (width := 1) (codes := 2) (top := 1) (by decide) rfl
  · rw [edecAnswer, if_neg h0, if_neg h8, if_neg h9, enumDecode, enumField?_eq_none h0 h8 h9]
    rfl

/-- EENC's response, by the rule (R123). -/
theorem okOrRefuse_enumEncode_eq (fid : Nat) (k : Word) : Response.okOrRefuse (enumEncode fid k) = eencAnswer fid k := by
  by_cases h0 : fid = 0
  · subst h0
    exact okOrRefuse_enumEncode (fid := 0) (width := 2) (top := 3) (by decide)
  by_cases h8 : fid = 8
  · subst h8
    exact okOrRefuse_enumEncode (fid := 8) (width := 2) (top := 2) (by decide)
  by_cases h9 : fid = 9
  · subst h9
    exact okOrRefuse_enumEncode (fid := 9) (width := 1) (top := 1) (by decide)
  · rw [eencAnswer, if_neg h0, if_neg h8, if_neg h9, enumEncode, enumField?_eq_none h0 h8 h9]
    rfl

theorem exec_edec (fid : Nat) (p : Word) (s : State) :
    exec (.edec fid p) s = .next (s.respond (.okOrRefuse (enumDecode fid p))) := rfl

theorem exec_eenc (fid : Nat) (k : Word) (s : State) :
    exec (.eenc fid k) s = .next (s.respond (.okOrRefuse (enumEncode fid k))) := rfl

theorem gives_edec {fid : Nat} {p k : Word} (h : enumDecode fid p = some k) (c : Config) :
    Gives c (.edec fid p) (okNat k.toNat) := fun s _ => by
  rw [exec_edec, h, Response.okOrRefuse, okWord_eq_okNat]
  rfl

theorem gives_eenc {fid : Nat} {k p : Word} (h : enumEncode fid k = some p) (c : Config) :
    Gives c (.eenc fid k) (okNat p.toNat) := fun s _ => by
  rw [exec_eenc, h, Response.okOrRefuse, okWord_eq_okNat]
  rfl

end Machine

end Sys2Proof

open Sys2Proof Sys2Proof.Machine Sys2Proof.Claims

/-- Settles O6: the extracted field is the rule's quotient and remainder. -/
theorem fieldExtractionShiftsAndMasks : Obligations.FieldExtractionShiftsAndMasks := by
  refine ⟨fun raw lo hi s => ?_, ?_⟩
  · rw [exec_fext, extractResponse_eq]
    rfl
  · simp only [← operandLo_eq, ← operandHi_eq]
    exact readsCommand_of_mem_formats (f := formats[5]) (List.getElem_mem _) fext_mustBeZero_iff

/-- Settles O7: the number whose bits are described is the raw value with the field inserted. -/
theorem fieldInsertionReplacesExactlyTheRange : Obligations.FieldInsertionReplacesExactlyTheRange := by
  refine ⟨fun raw v lo hi s hle _ hv => ?_, fun raw v lo hi s h => exec_fins_refused (by omega) raw s, ?_⟩
  · have hfit := Nat.lt_of_le_pred (Nat.two_pow_pos _) hv
    exact ⟨insertField raw v lo hi, getLsbD_insertField hle hfit, exec_fins_of_fits hle hfit raw s⟩
  · simp only [← operandLo_eq, ← operandHi_eq]
    exact readsCommand_of_mem_formats (f := formats[6]) (List.getElem_mem _) fins_mustBeZero_iff

/-- Settles O8: the response read off the tables is the rule's list. -/
theorem enumerationDecodeResultsInFull : Obligations.EnumerationDecodeResultsInFull := by
  refine ⟨fun fid p s => ?_, ?_⟩
  · rw [exec_edec, okOrRefuse_enumDecode_eq]
    rfl
  · simp only [← operandEnumFid_eq]
    exact readsCommand_of_mem_formats (f := formats[7]) (List.getElem_mem _) enum_mustBeZero_iff

/-- Settles O9: the response read off the tables is the rule's list. -/
theorem enumerationEncodeResultsInFull : Obligations.EnumerationEncodeResultsInFull := by
  refine ⟨fun fid k s => ?_, ?_⟩
  · rw [exec_eenc, okOrRefuse_enumEncode_eq]
    rfl
  · simp only [← operandEnumFid_eq]
    exact readsCommand_of_mem_formats (f := formats[8]) (List.getElem_mem _) enum_mustBeZero_iff

/-- Settles O36: each law is the one of `extractField` and `insertField`, an answer being that of the operation alone. -/
theorem extractionAndInsertionLaws : Obligations.ExtractionAndInsertionLaws := by
  intro c raw v lo hi hle hhi hv
  have hfit := Nat.lt_of_le_pred (Nat.two_pow_pos _) hv
  refine ⟨insertField raw v lo hi, gives_fins hle hfit raw c, ?_, fun old hold => ?_,
    fun lo' hi' hle' hhi' hdisjoint y hy => ?_, fun v' y hv' hy => ?_⟩
  · have h := gives_fext hle (insertField raw v lo hi) c
    rwa [extractField_insertField_same hle hhi hfit] at h
  · obtain rfl := gives_okNat_unique (gives_fext hle raw c) hold
    have h := gives_fins hle (extractField_lt raw lo hi) raw c
    rwa [insertField_extractField hle] at h
  · rw [gives_okNat_unique hy (gives_fext hle' raw c),
      ← extractField_insertField_disjoint (raw := raw) hle hfit hle' hhi' hdisjoint]
    exact gives_fext hle' _ c
  · have hfit' := Nat.lt_of_le_pred (Nat.two_pow_pos _) hv'
    rw [gives_okNat_unique hy (gives_fins hle hfit' raw c), ← insertField_insertField_same (raw := raw) hle hfit hfit']
    exact gives_fins hle hfit' _ c

/-- Settles O37: a code encodes as its own number, which decodes to it; a pattern decodes to a code. -/
theorem enumerationCodingLaws : Obligations.EnumerationCodingLaws := by
  intro c fid width codes h
  refine ⟨fun k hk => ⟨k, gives_eenc (enumEncode_of_lt h hk) c, ?_⟩, fun p hp => ⟨decodedCode fid p, ?_, ?_⟩⟩
  · obtain ⟨hwidth, hcode⟩ := decodedCode_of_lt h hk
    have hdecode := enumDecode_of_lt h hwidth
    rw [hcode] at hdecode
    exact gives_edec hdecode c
  · exact gives_edec (enumDecode_of_lt h hp) c
  · rw [← toNat_decodedCode]
    exact gives_eenc (enumEncode_of_lt h (decodedCode_lt h hp)) c

end

section
/-! PROOF. The register map (42_regmap.md): how the block reads the five commands, and the answers of RDESC, FDESC, RDEC, RENC and
FWR in the form of the rules. -/

namespace Sys2Proof

open Machine Claims

/-! ### The operands of the commands (30_encoding.md R72, R80) -/

theorem operandAddr_eq (w : Command) : operandAddr w = w.extractLsb' 32 8 :=
  extractLsb'_cmdA w (by decide)

theorem operandFid_eq (w : Command) : operandFid w = (w.extractLsb' 40 4).toNat :=
  congrArg BitVec.toNat (extractLsb'_cmdA w (by decide))

/-- The must-be-zero bits of RDEC, RENC and RWR are those of `cmd.a` above the address, and all of `cmd.c`. -/
theorem addrAndWord_mustBeZero_iff (w : Command) :
    ¬ (w.extractLsb' 40 8 ≠ 0 ∨ w.extractLsb' 0 16 ≠ 0) ↔
      cmdA w &&& 0xFF00#16 = 0#16 ∧ cmdB w &&& 0 = 0 ∧ cmdC w &&& 0xFFFF#16 = 0#16 := by
  rw [and_0xFF00_eq_zero_iff, and_0xFFFF_eq_zero_iff, extractLsb'_cmdA w (by decide)]
  simp [cmdC]

/-- The must-be-zero bits of FWR are those of `cmd.a` above the field id. -/
theorem fwr_mustBeZero_iff (w : Command) :
    ¬ w.extractLsb' 44 4 ≠ 0 ↔ cmdA w &&& 0xF000#16 = 0#16 ∧ cmdB w &&& 0 = 0 ∧ cmdC w &&& 0 = 0 := by
  rw [and_0xF000_eq_zero_iff, extractLsb'_cmdA w (by decide)]
  simp

/-- RDESC has no operand but the address. -/
theorem addr_mustBeZero_iff (w : Command) :
    ¬ (w.extractLsb' 40 8 ≠ 0 ∨ w.extractLsb' 0 32 ≠ 0) ↔
      cmdA w &&& 0xFF00#16 = 0#16 ∧ cmdB w &&& 0xFFFF#16 = 0#16 ∧ cmdC w &&& 0xFFFF#16 = 0#16 := by
  rw [not_or, fromRaw_mustBeZero_iff, and_0xFF00_eq_zero_iff, extractLsb'_cmdA w (by decide)]
  simp

/-- FDESC has no operands but the field id and the address. -/
theorem fidAddr_mustBeZero_iff (w : Command) :
    ¬ (w.extractLsb' 44 4 ≠ 0 ∨ w.extractLsb' 0 32 ≠ 0) ↔
      cmdA w &&& 0xF000#16 = 0#16 ∧ cmdB w &&& 0xFFFF#16 = 0#16 ∧ cmdC w &&& 0xFFFF#16 = 0#16 := by
  rw [not_or, fromRaw_mustBeZero_iff, and_0xF000_eq_zero_iff, extractLsb'_cmdA w (by decide)]
  simp

namespace Machine

/-! ### RDESC and FDESC -/

theorem onRegister_of_desc {addr : Addr} {d : RegDesc} (h : desc addr = some d) (k : RegDesc → Response) : onRegister addr k = k d := by
  rw [onRegister, h]

theorem onRegister_of_unmapped {addr : Addr} (h : addr ∉ mappedAddrs) (k : RegDesc → Response) : onRegister addr k = refused := by
  rw [onRegister, desc_eq_none_iff.mpr h]
  rfl

/-- The row of a mapped address. -/
theorem exists_desc_of_mem_mappedAddrs {addr : Addr} (h : addr ∈ mappedAddrs) : ∃ d, desc addr = some d :=
  Option.isSome_iff_exists.mp (mapped_iff.mpr h)

theorem exec_rdesc (addr : Addr) (s : State) : exec (.rdesc addr) s = .next (s.respond (rdescAnswer addr)) := by
  have hexec : exec (.rdesc addr) s = .next (s.respond (onRegister addr fun d => .ok d.descriptorWord)) := rfl
  rw [hexec]
  by_cases hmapped : addr ∈ mappedAddrs
  · simp only [mappedAddrs, List.mem_cons, List.not_mem_nil, or_false] at hmapped
    rcases hmapped with rfl | rfl | rfl | rfl | rfl | rfl <;> rfl
  · have hanswer : rdescAnswer addr = refused := by
      simp [mappedAddrs] at hmapped
      simp [rdescAnswer, hmapped]
    rw [onRegister_of_unmapped hmapped, hanswer]

/-- The rule's list of a register's field descriptor words is the layout's (R141). -/
theorem fieldWords_eq {addr : Addr} {d : RegDesc} (h : desc addr = some d) :
    fieldWords addr = d.layout.fields.map fun f => (fieldDescriptorWord d f).toNat := by
  obtain ⟨hmem, rfl⟩ := desc_eq_some h
  rcases registers_cases hmem with rfl | rfl | rfl | rfl | rfl | rfl <;> rfl

theorem fieldWords_of_unmapped {addr : Addr} (h : addr ∉ mappedAddrs) : fieldWords addr = [] := by
  simp [mappedAddrs] at h
  simp [fieldWords, h]

/-- FDESC's response, by the rule (R141). -/
theorem fieldDescriptorResponse_eq (fid : Nat) (addr : Addr) : fieldDescriptorResponse fid addr = fdescAnswer fid addr := by
  rw [fieldDescriptorResponse, fdescAnswer]
  by_cases hmapped : addr ∈ mappedAddrs
  · obtain ⟨d, hd⟩ := exists_desc_of_mem_mappedAddrs hmapped
    rw [onRegister_of_desc hd, fieldWords_eq hd, List.getElem?_map, Layout.field?]
    cases d.layout.fields[fid]? with
    | none => rfl
    | some f => exact ok_eq_okNat _
  · rw [onRegister_of_unmapped hmapped, fieldWords_of_unmapped hmapped]
    rfl

theorem exec_fdesc (fid : Nat) (addr : Addr) (s : State) :
    exec (.fdesc fid addr) s = .next (s.respond (fdescAnswer fid addr)) := by
  rw [← fieldDescriptorResponse_eq]
  rfl

/-! ### The bits of a field, as a mask sees them -/

/-- Masking a field leaves it in its place. -/
theorem and_fieldMask (v : Word) (lo hi : Nat) : v &&& fieldMask lo hi = extractField v lo hi <<< lo := by
  apply BitVec.eq_of_getLsbD_eq
  intro i hi16
  rw [fieldMask, BitVec.getLsbD_and, BitVec.getLsbD_shiftLeft, BitVec.getLsbD_shiftLeft, getLsbD_ofNat_ones, getLsbD_extractField]
  by_cases hlo : i < lo
  · simp [hlo]
  · rw [show lo + (i - lo) = i by omega]
    simp [hlo, hi16, Bool.and_comm]

theorem extractField_and_fieldMask (v : Word) (lo hi : Nat) : extractField (v &&& fieldMask lo hi) lo hi = extractField v lo hi := by
  apply BitVec.eq_of_getLsbD_eq
  intro i hi16
  rw [getLsbD_extractField, getLsbD_extractField, fieldMask, BitVec.getLsbD_and, BitVec.getLsbD_shiftLeft, getLsbD_ofNat_ones]
  by_cases htop : lo + i < 16
  · by_cases hwidth : i < hi - lo + 1 <;> simp [htop, hi16, hwidth]
  · simp [BitVec.getLsbD_of_ge v (lo + i) (by omega)]

/-- Two words agree under a field's mask when they agree in the field. -/
theorem and_fieldMask_eq_iff {v w : Word} {lo hi : Nat} :
    v &&& fieldMask lo hi = w &&& fieldMask lo hi ↔ extractField v lo hi = extractField w lo hi := by
  constructor
  · intro h
    rw [← extractField_and_fieldMask v, h, extractField_and_fieldMask]
  · intro h
    rw [and_fieldMask, and_fieldMask, h]

/-- Masking a field out is inserting zero. -/
theorem and_not_fieldMask (v : Word) (lo hi : Nat) : v &&& ~~~ fieldMask lo hi = insertField v 0 lo hi := by
  simp [insertField]

/-! ### The flag bits of a Configuration, 5 to 8 (10_state.md R30) -/

theorem flags_eq_iff {v w : Word} : v &&& 0x01E0#16 = w &&& 0x01E0#16 ↔ extractField v 5 8 = extractField w 5 8 :=
  and_fieldMask_eq_iff (lo := 5) (hi := 8)

theorem flags_eq_zero_iff {v : Word} : v &&& 0x01E0#16 = 0 ↔ extractField v 5 8 = 0 :=
  flags_eq_iff (w := 0)

theorem flags_div_eq_zero_iff {v : Word} : v.toNat / 32 % 16 = 0 ↔ extractField v 5 8 = 0 := by
  rw [← BitVec.toNat_inj, toNat_extractField]
  rfl

theorem flags_slice_eq_zero_iff {v : Word} : v.extractLsb' 5 4 = 0 ↔ extractField v 5 8 = 0 := by
  rw [← flags_div_eq_zero_iff, ← BitVec.toNat_inj, BitVec.extractLsb'_toNat, Nat.shiftRight_eq_div_pow]
  rfl

/-- A bundle with its flag bits dropped. -/
theorem and_not_flags (v : Word) : v &&& 0xFE1F#16 = insertField v 0 5 8 :=
  and_not_fieldMask v 5 8

/-- Dropping flag bits that are clear changes nothing. -/
theorem insertField_zero_of_flags_clear {v : Word} (h : extractField v 5 8 = 0) : insertField v 0 5 8 = v := by
  rw [← h]
  exact insertField_extractField (by decide)

theorem flags_insertField_zero (v : Word) : extractField (insertField v 0 5 8) 5 8 = 0 :=
  extractField_insertField_same (by decide) (by decide) (by decide)

theorem mode_insertField_flags (v : Word) : extractField (insertField v 0 5 8) 9 10 = extractField v 9 10 :=
  extractField_insertField_disjoint (by decide) (by decide) (by decide) (by decide) (by decide)

/-! ### RENC -/

theorem toNat_exponentField (v : Word) : (extractField v 12 15).toNat = v.toNat / 4096 := by
  rw [toNat_extractField]
  omega

theorem toNat_fractionalField (v : Word) : (extractField v 0 11).toNat = v.toNat % 4096 := by
  rw [toNat_extractField]
  omega

/-- The measurement a bundle carries, encoded (R143). -/
theorem measurementResponse_ofLmv (v : Word) :
    measurementResponse (LightMeasurement.ofLmv v) (fun m => m.toRaw.setWidth 32) =
      if v.toNat / 4096 ≤ 11 then okNat (v.toNat / 4096 * 4096 + (4095 - v.toNat % 4096)) else invalid := by
  have hresult : ∀ m, LightMeasurement.ofLmv v = some m →
      (m.toRaw.setWidth 32).toNat = v.toNat / 4096 * 4096 + (4095 - v.toNat % 4096) := fun m hm => by
    obtain ⟨he, hf⟩ := construct_toNat hm
    rw [BitVec.toNat_setWidth_of_le (by decide), toNat_toRaw, he, hf, toNat_exponentField, toNat_fractionalField]
  refine (measurementResponse_construct hresult).trans ?_
  rw [pairAnswer, toNat_exponentField, toNat_fractionalField]
  simp only [show v.toNat % 4096 ≤ 4095 by omega, and_true]

/-- A bundle is its own encoding, but the mode's code 3 names no variant (R143). -/
theorem encodeConfiguration_eq (v : Word) : encodeConfiguration v = if extractField v 9 10 = 3 then none else some v := by
  have hcount : enumEncode 0 (extractField v 0 1) = some (extractField v 0 1) :=
    enumEncode_of_lt (fid := 0) (width := 2) (codes := 4) (by decide) (extractField_lt v 0 1)
  have htime : enumEncode 9 (extractField v 11 11) = some (extractField v 11 11) :=
    enumEncode_of_lt (fid := 9) (width := 1) (codes := 2) (by decide) (extractField_lt v 11 11)
  have hmode : enumEncode 8 (extractField v 9 10) = if extractField v 9 10 = 3 then none else some (extractField v 9 10) :=
    of_forall_ofNat (P := fun p => enumEncode 8 p = if p = 3 then none else some p) (n := 4) (by decide) (mode_lt v)
  simp only [encodeConfiguration, hcount, hmode, htime, Option.bind_eq_bind, Option.bind_some]
  split_ifs
  · rfl
  · simp

/-- RENC's response for a Configuration with its flag bits clear, by the rule (R143). -/
theorem okOrRefuse_encodeConfiguration (v : Word) : Response.okOrRefuse (encodeConfiguration v) = cfgvAnswer v := by
  rw [encodeConfiguration_eq, cfgvAnswer]
  simp only [mode_eq_three_iff]
  split_ifs
  · rfl
  · exact okWord_eq_okNat v

theorem rencAnswer_of_flags_clear {v : Word} (h : extractField v 5 8 = 0) (policy : RoFieldPolicy) :
    rencAnswer policy 0x01 v = cfgvAnswer v :=
  if_pos (flags_div_eq_zero_iff.mpr h)

/-- A set flag bit is an attempt (R146, R147). -/
theorem rencAnswer_reject {v : Word} (h : extractField v 5 8 ≠ 0) : rencAnswer .reject 0x01 v = violation :=
  if_neg (flags_div_eq_zero_iff.not.mpr h)

/-- Under IGNORE the flag bits are as if they were clear (R146). -/
theorem rencAnswer_ignore (v : Word) : rencAnswer .ignore 0x01 v = cfgvAnswer (insertField v 0 5 8) := by
  by_cases h : extractField v 5 8 = 0
  · rw [rencAnswer_of_flags_clear h, insertField_zero_of_flags_clear h]
  · rw [← and_not_flags]
    exact if_neg (flags_div_eq_zero_iff.not.mpr h)

/-- RENC's response for a Configuration: the field gate, then the encoding (R143, R146). -/
theorem encodeConfigurationResponse_eq (c : Config) (v : Word) :
    encodeConfigurationResponse c v = rencAnswer c.roFieldPolicy 0x01 v := by
  unfold encodeConfigurationResponse
  by_cases h : extractField v 5 8 = 0
  · rw [rencAnswer_of_flags_clear h, ← okOrRefuse_encodeConfiguration]
    exact if_pos (flags_eq_zero_iff.mpr h)
  · refine (if_neg (flags_eq_zero_iff.not.mpr h)).trans ?_
    cases c.roFieldPolicy with
    | reject => exact (rencAnswer_reject h).symm
    | ignore =>
      rw [rencAnswer_ignore, ← okOrRefuse_encodeConfiguration, ← and_not_flags]
      rfl

theorem rencAnswer_of_unmapped {addr : Addr} (h : addr ∉ mappedAddrs) (policy : RoFieldPolicy) (v : Word) :
    rencAnswer policy addr v = refused := by
  simp [mappedAddrs] at h
  simp [rencAnswer, readOnlyAddrs, h]

/-- RENC's response, by the rule (R143). -/
theorem encodeRegisterResponse_eq (c : Config) (addr : Addr) (v : Word) :
    encodeRegisterResponse c addr v = rencAnswer c.roFieldPolicy addr v := by
  by_cases hmapped : addr ∈ mappedAddrs
  · simp only [mappedAddrs, List.mem_cons, List.not_mem_nil, or_false] at hmapped
    rcases hmapped with rfl | rfl | rfl | rfl | rfl | rfl
    case inr.inl => exact encodeConfigurationResponse_eq c v
    case inr.inr.inl => exact measurementResponse_ofLmv v
    case inr.inr.inr.inl => exact measurementResponse_ofLmv v
    all_goals rfl -- the read-only registers
  · rw [encodeRegisterResponse, onRegister_of_unmapped hmapped, rencAnswer_of_unmapped hmapped]

theorem exec_renc (addr : Addr) (v : Word) (s : State) :
    exec (.renc addr v) s = .next (s.respond (rencAnswer s.config.roFieldPolicy addr v)) := by
  rw [← encodeRegisterResponse_eq]
  rfl

end Machine

end Sys2Proof

open Sys2Proof Sys2Proof.Machine Sys2Proof.Claims

/-- Settles O10: the six words are those of the six rows of the table. -/
theorem registerDescriptorLookupAnswersTheSixWords : Obligations.RegisterDescriptorLookupAnswersTheSixWords := by
  refine ⟨exec_rdesc, ?_⟩
  simp only [← operandAddr_eq]
  exact readsCommand_of_mem_formats (f := formats[9]) (List.getElem_mem _) addr_mustBeZero_iff

/-- Settles O11: the list of a register's words is its layout's. -/
theorem fieldDescriptorLookupResultsInFull : Obligations.FieldDescriptorLookupResultsInFull := by
  refine ⟨exec_fdesc, ?_⟩
  simp only [← operandAddr_eq, ← operandFid_eq]
  exact readsCommand_of_mem_formats (f := formats[10]) (List.getElem_mem _) fidAddr_mustBeZero_iff

/-- Settles O12: RDEC's answer is the rule's at every address. -/
theorem registerDecodeByLayout : Obligations.RegisterDecodeByLayout := by
  refine ⟨exec_rdec, ?_⟩
  simp only [← operandAddr_eq]
  exact readsCommand_of_mem_formats (f := formats[11]) (List.getElem_mem _) addrAndWord_mustBeZero_iff

/-- Settles O13: RENC's answer is the rule's at every address. -/
theorem registerEncodeThroughTheGates : Obligations.RegisterEncodeThroughTheGates := by
  refine ⟨exec_renc, ?_⟩
  simp only [← operandAddr_eq]
  exact readsCommand_of_mem_formats (f := formats[12]) (List.getElem_mem _) addrAndWord_mustBeZero_iff

/-- Settles O14: FWR's answer is the rule's at every address and field id. -/
theorem fieldWriteThroughTheGates : Obligations.FieldWriteThroughTheGates := by
  refine ⟨exec_fwr, ?_⟩
  simp only [← operandAddr_eq, ← operandFid_eq]
  exact readsCommand_of_mem_formats (f := formats[13]) (List.getElem_mem _) fwr_mustBeZero_iff

end

section
/-! PROOF. The generic decoder (42_regmap.md R142) run over the layout of Configuration: each field it places is that field of RDEC's
own bundle, and the fields of a layout make up the whole word. -/

namespace Sys2Proof.Machine

open Claims

/-! ### Copying a word field by field -/

/-- `v` with one field copied from `w`. -/
def copyField (w v : Word) (f : FieldDesc) : Word := insertField v (extractField w f.lo f.hi) f.lo f.hi

theorem getLsbD_copyField {f : FieldDesc} (hf : f.wellFormed = true) (w v : Word) {i : Nat} (hi : i < 16) :
    (copyField w v f).getLsbD i = if f.covers i = true then w.getLsbD i else v.getLsbD i := by
  obtain ⟨hle, -, -⟩ := fieldDesc_wellFormed_iff.mp hf
  simp only [covers_iff]
  rw [copyField, getLsbD_insertField hle (extractField_lt w f.lo f.hi) i hi]
  split_ifs with hin
  · rw [getLsbD_extractField]
    simp [show i - f.lo < 16 by omega, show i - f.lo < f.hi - f.lo + 1 by omega, show f.lo + (i - f.lo) = i by omega]
  · rfl

/-- Copying fields one after another copies the bits they cover. -/
theorem getLsbD_foldl_copyField {fs : List FieldDesc} (hfs : ∀ f ∈ fs, f.wellFormed = true) (w v : Word) {i : Nat} (hi : i < 16) :
    (fs.foldl (copyField w) v).getLsbD i = if ∃ f ∈ fs, f.covers i = true then w.getLsbD i else v.getLsbD i := by
  induction fs generalizing v with
  | nil => simp
  | cons f fs ih =>
    rw [List.foldl_cons, ih fun g hg => hfs g (List.mem_cons_of_mem f hg), getLsbD_copyField (hfs f List.mem_cons_self) w v hi]
    by_cases hf : f.covers i = true <;> simp [hf]

/-- Copying all fields of a layout copies the word (10_state.md R28). -/
theorem foldl_copyField_layout (l : Layout) (w v : Word) : l.fields.foldl (copyField w) v = w := by
  obtain ⟨hfields, hbits⟩ := layout_tiles_iff.mp (layout_tiles l)
  apply BitVec.eq_of_getLsbD_eq
  intro i hi
  obtain ⟨f, hf, hcovers, -⟩ := exists_unique_of_countP_eq_one (hbits i hi)
  rw [getLsbD_foldl_copyField hfields w v hi, if_pos ⟨f, hf, hcovers⟩]

/-! ### The decoder's fields -/

/-- A decoder that copies each field from `w` gives the word with all of them copied. -/
theorem foldl_decodeFieldInto {fs : List FieldDesc} {raw w : Word}
    (h : ∀ f ∈ fs, ∀ v, decodeFieldInto raw (some v) f = some (copyField w v f)) (v : Word) :
    fs.foldl (decodeFieldInto raw) (some v) = some (fs.foldl (copyField w) v) := by
  induction fs generalizing v with
  | nil => rfl
  | cons f fs ih =>
    rw [List.foldl_cons, h f List.mem_cons_self, ih fun g hg => h g (List.mem_cons_of_mem f hg), List.foldl_cons]

/-- A field that is no enumeration is copied from the raw value. -/
theorem decodeFieldInto_of_not_enumeration {f : FieldDesc} (h : f.kind.code ≠ 2) (raw v : Word) :
    decodeFieldInto raw (some v) f = some (copyField raw v f) := by
  cases hkind : f.kind with
  | enumeration e => exact absurd (congrArg FieldKind.code hkind) h
  | plain => simp [decodeFieldInto, hkind, copyField]
  | boolean => simp [decodeFieldInto, hkind, copyField]

theorem kind_of_enumField? {fid : Nat} {f : FieldDesc} {e : EnumDesc} (h : enumField? fid = some (f, e)) : f.kind = .enumeration e := by
  unfold enumField? at h
  split at h
  · split at h <;> simp_all
  · cases h

/-- An enumerated field is resolved as EDEC resolves it (R142). -/
theorem decodeFieldInto_of_enumField? {fid : Nat} {f : FieldDesc} {e : EnumDesc} (h : enumField? fid = some (f, e)) (raw v : Word) :
    decodeFieldInto raw (some v) f =
      (enumDecode fid (extractField raw f.lo f.hi)).map fun code => insertField v code f.lo f.hi := by
  have hfit : fitsField (extractField raw f.lo f.hi) f.lo f.hi = true := fitsField_iff.mpr (extractField_lt raw f.lo f.hi)
  simp only [decodeFieldInto, kind_of_enumField? h, enumDecode, h, if_pos hfit]
  cases e.variantOf (extractField raw f.lo f.hi) <;> rfl

/-- The fields of Configuration: three enumerations, and others that lie apart from the mode (R30). -/
theorem cfg_fields_cases : ∀ f ∈ Layout.cfg.fields, (f.kind.code ≠ 2 ∧ (10 < f.lo ∨ f.hi < 9)) ∨
    Layout.cfg.field? 0 = some f ∨ Layout.cfg.field? 8 = some f ∨ Layout.cfg.field? 9 = some f := by
  decide

/-- A field apart from the mode is the raw value's (R77). -/
theorem copyField_decodedCfg {f : FieldDesc} (hf : f.wellFormed = true) (h : 10 < f.lo ∨ f.hi < 9) (raw v : Word) :
    copyField (decodedCfg raw) v f = copyField raw v f := by
  obtain ⟨hle, hhi, -⟩ := fieldDesc_wellFormed_iff.mp hf
  rw [copyField, copyField, decodedCfg,
    extractField_insertField_disjoint (by decide) (resolvedMode_lt (mode_lt raw)) hle hhi h]

/-- An enumerated field whose pattern in `raw` decodes to the field of `w` is copied from `w`. -/
theorem decodeFieldInto_of_enumDecode {fid : Nat} {f : FieldDesc} {e : EnumDesc} {raw w : Word} (h : enumField? fid = some (f, e))
    (hdecode : enumDecode fid (extractField raw f.lo f.hi) = some (extractField w f.lo f.hi)) (v : Word) :
    decodeFieldInto raw (some v) f = some (copyField w v f) := by
  rw [decodeFieldInto_of_enumField? h, hdecode]
  rfl

/-- The decoder places each field of RDEC's bundle. -/
theorem decodeFieldInto_cfg (raw : Word) : ∀ f ∈ Layout.cfg.fields, ∀ v,
    decodeFieldInto raw (some v) f = some (copyField (decodedCfg raw) v f) := by
  intro f hf v
  obtain ⟨hwf, -⟩ := layout_tiles_iff.mp (layout_tiles .cfg)
  rcases cfg_fields_cases f hf with ⟨hkind, hapart⟩ | ⟨⟨⟩⟩ | ⟨⟨⟩⟩ | ⟨⟨⟩⟩
  · rw [copyField_decodedCfg (hwf f hf) hapart]
    exact decodeFieldInto_of_not_enumeration hkind raw v
  · rw [copyField_decodedCfg (hwf _ hf) (by decide)]
    exact decodeFieldInto_of_enumDecode (fid := 0) rfl (enumDecode_faultCount (extractField_lt raw 0 1)) v
  · refine decodeFieldInto_of_enumDecode (fid := 8) rfl ?_ v
    rw [mode_decodedCfg]
    exact enumDecode_mode (mode_lt raw)
  · rw [copyField_decodedCfg (hwf _ hf) (by decide)]
    exact decodeFieldInto_of_enumDecode (fid := 9) rfl (enumDecode_time (extractField_lt raw 11 11)) v

end Sys2Proof.Machine

open Sys2Proof Sys2Proof.Machine Sys2Proof.Claims

/-- Settles O38: the generic decoder copies every field of RDEC's bundle. -/
theorem configurationDecodeIsTheGenericDecoder : Obligations.ConfigurationDecodeIsTheGenericDecoder := by
  refine fun raw s => ⟨decodedCfg raw, ?_, ?_⟩
  · rw [decodeByLayout, foldl_decodeFieldInto (decodeFieldInto_cfg raw), foldl_copyField_layout]
  · rw [exec_rdec, toNat_decodedCfg]
    rfl

end

section
/-! PROOF. The laws of the register map (42_regmap.md R145 to R148): what RDEC, RENC and FWR make of each other's answers, and the
two write gates, of the register and of the field. -/

namespace Sys2Proof.Machine

open Claims

theorem gives_rdec (addr : Addr) (raw : Word) (c : Config) : Gives c (.rdec addr raw) (rdecAnswer c.expXorDec addr raw) :=
  fun s hs => hs ▸ exec_rdec addr raw s

theorem gives_renc (addr : Addr) (v : Word) (c : Config) : Gives c (.renc addr v) (rencAnswer c.roFieldPolicy addr v) :=
  fun s hs => hs ▸ exec_renc addr v s

theorem gives_fwr (fid : Nat) (addr : Addr) (base v : Word) (c : Config) :
    Gives c (.fwr fid addr base v) (fwrAnswer c.roFieldPolicy fid addr base v) :=
  fun s hs => hs ▸ exec_fwr fid addr base v s

/-! ### RDEC of Configuration -/

theorem gives_rdec_cfg (raw : Word) (c : Config) : Gives c (.rdec 0x01 raw) (okNat (decodedCfg raw).toNat) := by
  rw [toNat_decodedCfg]
  exact gives_rdec 0x01 raw c

theorem resolvedMode_ne_three (p : Word) : resolvedMode p ≠ 3 := by
  unfold resolvedMode
  split_ifs with h
  · decide
  · exact h

/-- A mode other than 0b11 is kept, and with it the word (R142). -/
theorem decodedCfg_of_mode_ne {raw : Word} (h : extractField raw 9 10 ≠ 3) : decodedCfg raw = raw := by
  rw [decodedCfg, resolvedMode, if_neg h, insertField_extractField (by decide)]

theorem mode_decodedCfg_ne_three (raw : Word) : extractField (decodedCfg raw) 9 10 ≠ 3 := by
  rw [mode_decodedCfg]
  exact resolvedMode_ne_three _

/-- A bundle decodes to itself (R148 (a)). -/
theorem decodedCfg_decodedCfg (raw : Word) : decodedCfg (decodedCfg raw) = decodedCfg raw :=
  decodedCfg_of_mode_ne (mode_decodedCfg_ne_three raw)

theorem flags_decodedCfg (raw : Word) : extractField (decodedCfg raw) 5 8 = extractField raw 5 8 :=
  extractField_insertField_disjoint (by decide) (resolvedMode_lt (mode_lt raw)) (by decide) (by decide) (by decide)

/-- The catch-all's second pattern loses bit 9 (R33, R142). -/
theorem decodedCfg_of_mode_eq_three {raw : Word} (h : extractField raw 9 10 = 3) : decodedCfg raw = raw &&& 0xFDFF#16 := by
  have hmask : raw &&& 0xFDFF#16 = insertField raw 0 9 9 := and_not_fieldMask raw 9 9
  rw [hmask]
  apply BitVec.eq_of_getLsbD_eq
  intro i hi
  rw [getLsbD_insertField (by decide) (by decide) i hi]
  by_cases hbit : i = 9
  · subst hbit
    rw [decodedCfg, h, getLsbD_insertField (by decide) (by decide) 9 hi]
    rfl
  · rw [getLsbD_decodedCfg hi hbit, if_neg (by omega)]

/-- The raw value that RENC gives for a bundle just decoded (R148 (b)). -/
theorem flagsDropped_decodedCfg (raw : Word) :
    insertField (decodedCfg raw) 0 5 8 = if raw.extractLsb' 9 2 = 3 then raw &&& 0xFC1F#16 else raw &&& 0xFE1F#16 := by
  rw [← and_not_flags]
  simp only [slice_eq_three_iff, ← mode_eq_three_iff]
  split_ifs with h
  · rw [decodedCfg_of_mode_eq_three h, BitVec.and_assoc]
    rfl
  · rw [decodedCfg_of_mode_ne h]

/-! ### RENC of Configuration -/

theorem cfgvAnswer_of_mode_ne {v : Word} (h : extractField v 9 10 ≠ 3) : cfgvAnswer v = okNat v.toNat := by
  rw [cfgvAnswer, if_neg (mode_eq_three_iff.not.mp h)]

/-- RENC of a decoded bundle, under IGNORE (R148 (b)). -/
theorem rencAnswer_ignore_decodedCfg (raw : Word) :
    rencAnswer .ignore 0x01 (decodedCfg raw) = okNat (insertField (decodedCfg raw) 0 5 8).toNat := by
  have hmode : extractField (insertField (decodedCfg raw) 0 5 8) 9 10 ≠ 3 := by
    rw [mode_insertField_flags]
    exact mode_decodedCfg_ne_three raw
  rw [rencAnswer_ignore, cfgvAnswer_of_mode_ne hmode]

/-- RENC of a decoded bundle, under REJECT (R148 (b)). -/
theorem rencAnswer_reject_decodedCfg (raw : Word) :
    rencAnswer .reject 0x01 (decodedCfg raw) =
      if raw.extractLsb' 5 4 = 0 then okNat (insertField (decodedCfg raw) 0 5 8).toNat else violation := by
  simp only [flags_slice_eq_zero_iff, ← flags_decodedCfg raw]
  split_ifs with h
  · rw [rencAnswer_of_flags_clear h, insertField_zero_of_flags_clear h, cfgvAnswer_of_mode_ne (mode_decodedCfg_ne_three raw)]
  · exact rencAnswer_reject h

/-! ### RENC and RDEC of a limit register -/

theorem rencAnswer_limit {addr : Addr} (haddr : addr = 0x02 ∨ addr = 0x03) (policy : RoFieldPolicy) (v : Word) :
    rencAnswer policy addr v =
      if v.toNat / 4096 ≤ 11 then okNat (v.toNat / 4096 * 4096 + (4095 - v.toNat % 4096)) else invalid := by
  rcases haddr with rfl | rfl <;> rfl

theorem rdecAnswer_limit {addr : Addr} (haddr : addr = 0x02 ∨ addr = 0x03) (x : ExpXorDec) (raw : Word) :
    rdecAnswer x addr raw = fromRawAnswer x raw :=
  if_pos (.inr haddr)

/-- A valid bundle has TO_RAW's raw value of its pair, which decodes as FROM_RAW's does (R148 (c)). -/
theorem exists_raw_of_limit {addr : Addr} {v : Word} (haddr : addr = 0x02 ∨ addr = 0x03) (hexp : v.toNat / 4096 ≤ 11) :
    ∃ raw : Word, (∀ policy, rencAnswer policy addr v = okNat raw.toNat) ∧ rdecAnswer .plain addr raw = okNat v.toNat ∧
      rdecAnswer .inverted addr raw =
        if v.toNat / 4096 ≤ 3 then invalid else okNat ((15 - v.toNat / 4096) * 4096 + v.toNat % 4096) := by
  have he := toNat_exponentField v
  have hf := toNat_fractionalField v
  have hle := he.trans_le hexp
  have hdecode := fromRawAnswer_rawOf (e := extractField v 12 15) (f := extractField v 0 11) hle (by omega)
  refine ⟨rawOf (extractField v 12 15) (extractField v 0 11), fun policy => ?_, ?_, ?_⟩
  · rw [rencAnswer_limit haddr, if_pos hexp, toNat_rawOf hle, he, hf]
  · rw [rdecAnswer_limit haddr, hdecode]
    simp only [he, hf, Nat.div_add_mod']
  · rw [rdecAnswer_limit haddr, hdecode]
    simp only [he, hf]

/-! ### FWR of a writable register -/

/-- Answers with a word are told apart by the word. -/
theorem okNat_toNat_inj {x y : Word} (h : okNat x.toNat = okNat y.toNat) : x = y :=
  BitVec.eq_of_toNat_eq ((okNat_inj (by omega) (by omega)).mp h)

/-- An insertion answered OK is one of a value that fits (R121). -/
theorem insertResponse_eq_okNat {base v x : Word} {lo hi : Nat} (h : insertResponse base v lo hi = okNat x.toNat) :
    v.toNat < 2 ^ (hi - lo + 1) ∧ insertField base v lo hi = x := by
  unfold insertResponse at h
  split_ifs at h with hfit
  · rw [okWord_eq_okNat] at h
    exact ⟨fitsField_iff.mp hfit, okNat_toNat_inj h⟩
  · cases h

section
variable {addr : Addr} {fid lo hi : Nat} {base v : Word} {policy : RoFieldPolicy}

theorem not_mem_readOnlyAddrs (h : addr ∈ writableAddrs) : addr ∉ readOnlyAddrs :=
  fun hro => (mem_readOnlyAddrs_iff.mp hro).2 h

theorem fwrAnswer_of_no_field (haddr : addr ∈ writableAddrs) (hfield : (writeFields addr)[fid]? = none) :
    fwrAnswer policy fid addr base v = refused := by
  simp [fwrAnswer, not_mem_readOnlyAddrs haddr, haddr, hfield]

/-- A field marked RO follows the policy, whatever the value (R144, R146). -/
theorem fwrAnswer_of_marked (haddr : addr ∈ writableAddrs) (hfield : (writeFields addr)[fid]? = some (lo, hi, true)) :
    fwrAnswer policy fid addr base v = match policy with | .reject => violation | .ignore => okNat base.toNat := by
  cases policy <;> simp only [fwrAnswer, if_neg (not_mem_readOnlyAddrs haddr), if_pos haddr, hfield]

/-- Any other field is inserted as FINS inserts it (R144). -/
theorem fwrAnswer_of_unmarked (haddr : addr ∈ writableAddrs) (hfield : (writeFields addr)[fid]? = some (lo, hi, false)) :
    fwrAnswer policy fid addr base v = insertResponse base v lo hi := by
  simp only [fwrAnswer, if_neg (not_mem_readOnlyAddrs haddr), if_pos haddr, hfield, insertResponse_eq]

/-- The fields a write may name lie in the register (R28). -/
theorem le_of_mem_writeFields {ro : Bool} (haddr : addr ∈ writableAddrs) (hfield : (lo, hi, ro) ∈ writeFields addr) : lo ≤ hi := by
  obtain ⟨d, -, -, hfields⟩ := writeFields_eq haddr
  rw [hfields] at hfield
  obtain ⟨f, hf, hrow⟩ := List.mem_map.mp hfield
  obtain ⟨hwf, -⟩ := layout_tiles_iff.mp (layout_tiles d.layout)
  obtain ⟨hle, -, -⟩ := fieldDesc_wellFormed_iff.mp (hwf f hf)
  cases hrow
  exact hle

end

/-- FWR of a writable field is FINS of its range (R148 (d)). -/
theorem exec_fwr_eq_exec_fins {addr : Addr} {fid lo hi : Nat} (haddr : addr ∈ writableAddrs)
    (hfield : (writeFields addr)[fid]? = some (lo, hi, false)) (base v : Word) (s : State) :
    exec (.fwr fid addr base v) s = exec (.fins base v lo hi) s := by
  have hle := le_of_mem_writeFields haddr (List.mem_of_getElem? hfield)
  have hfins : exec (.fins base v lo hi) s = .next (s.respond (if hi < lo then .refuse else insertResponse base v lo hi)) := rfl
  rw [exec_fwr, fwrAnswer_of_unmarked haddr hfield, hfins, if_neg (Nat.not_lt.mpr hle)]

/-- The fields of Configuration that are not marked RO lie apart from the flag bits (R30). -/
theorem writeFields_unmarked_apart : ∀ f ∈ writeFields 0x01, f.2.2 = false → 8 < f.1 ∨ f.2.1 < 5 := by
  decide

/-- A word that FWR of Configuration answers has the base's flag bits (R148 (e)). -/
theorem flags_of_fwrAnswer {policy : RoFieldPolicy} {fid : Nat} {base v x : Word}
    (h : fwrAnswer policy fid 0x01 base v = okNat x.toNat) : extractField x 5 8 = extractField base 5 8 := by
  have haddr : (0x01 : Addr) ∈ writableAddrs := by decide
  cases hfield : (writeFields 0x01)[fid]? with
  | none =>
    rw [fwrAnswer_of_no_field haddr hfield] at h
    cases h
  | some f =>
    obtain ⟨lo, hi, ro⟩ := f
    cases ro with
    | true =>
      rw [fwrAnswer_of_marked haddr hfield] at h
      cases policy with
      | reject => cases h
      | ignore => rw [okNat_toNat_inj h]
    | false =>
      rw [fwrAnswer_of_unmarked haddr hfield] at h
      obtain ⟨hfit, rfl⟩ := insertResponse_eq_okNat h
      have hmem := List.mem_of_getElem? hfield
      exact extractField_insertField_disjoint (le_of_mem_writeFields haddr hmem) hfit (by decide) (by decide)
        (writeFields_unmarked_apart _ hmem rfl).symm

/-- The fields marked RO are those of Configuration with field ids 4 to 7 (R30). -/
theorem writeFields_marked {fid : Nat} (h4 : 4 ≤ fid) (h7 : fid ≤ 7) : (writeFields 0x01)[fid]? = some (fid + 1, fid + 1, true) := by
  interval_cases fid <;> rfl

theorem eq_of_writeFields_marked {addr : Addr} {fid lo hi : Nat} (haddr : addr ∈ writableAddrs)
    (hfield : (writeFields addr)[fid]? = some (lo, hi, true)) : addr = 0x01 ∧ 4 ≤ fid ∧ fid ≤ 7 := by
  have hmarked : ∀ a ∈ writableAddrs, ∀ k < (writeFields a).length, (writeFields a)[k]?.any (fun f => f.2.2) = true →
      a = 0x01 ∧ 4 ≤ k ∧ k ≤ 7 := by decide
  obtain ⟨hlt, -⟩ := List.getElem?_eq_some_iff.mp hfield
  exact hmarked addr haddr fid hlt (by rw [hfield]; rfl)

/-! ### The gates (R145 to R147) -/

/-- A response given on the way to a next state is the one its outcome adds. -/
theorem response_of_exec {i : Instr} {s t : State} {p q : Response} (hexec : exec i s = .next (s.respond q)) (hnext : exec i s = .next t)
    (hp : t.responses = s.responses ++ [p]) : q = p := by
  obtain rfl := Host.Outcome.next.inj (hexec.symm.trans hnext)
  simpa using hp

theorem fromRawAnswer_status (x : ExpXorDec) (raw : Word) :
    (fromRawAnswer x raw).status = .ok ∨ (fromRawAnswer x raw).status = .invalidField := by
  unfold fromRawAnswer
  split_ifs
  · exact .inl rfl
  · exact .inr rfl

/-- RDEC of a mapped register is neither gated nor refused (R145). -/
theorem rdecAnswer_status {addr : Addr} (h : addr ∈ mappedAddrs) (x : ExpXorDec) (raw : Word) :
    (rdecAnswer x addr raw).status = .ok ∨ (rdecAnswer x addr raw).status = .invalidField := by
  simp only [mappedAddrs, List.mem_cons, List.not_mem_nil, or_false] at h
  rcases h with rfl | rfl | rfl | rfl | rfl | rfl
  · exact fromRawAnswer_status x raw
  · exact .inl rfl
  · exact fromRawAnswer_status x raw
  · exact fromRawAnswer_status x raw
  · exact .inl rfl
  · exact .inl rfl

/-- Nor is RRD. -/
theorem response_of_rrd_mapped {addr : Addr} (h : addr ∈ mappedAddrs) {s t : State} {p : Response} (hexec : exec (.rrd addr) s = .next t)
    (hp : t.responses = s.responses ++ [p]) : p.status = .ok := by
  rcases execRrd_next hexec with ⟨hnone, -⟩ | ⟨v, a, -, -, rfl⟩
  · exact absurd h (desc_eq_none_iff.mp hnone)
  · obtain rfl : Response.okWord v = p := by simpa using hp
    rfl

theorem insertResponse_status (base v : Word) (lo hi : Nat) : (insertResponse base v lo hi).status ≠ .accessViolation := by
  unfold insertResponse
  split <;> nofun

theorem cfgvAnswer_status (v : Word) : (cfgvAnswer v).status ≠ .accessViolation := by
  unfold cfgvAnswer
  split <;> nofun

/-- FWR of a field that is not marked RO passes both gates (R147). -/
theorem fwrAnswer_status {addr : Addr} {fid : Nat} (haddr : addr ∈ writableAddrs) (h : ¬ (addr = 0x01 ∧ 4 ≤ fid ∧ fid ≤ 7))
    (policy : RoFieldPolicy) (base v : Word) : (fwrAnswer policy fid addr base v).status ≠ .accessViolation := by
  cases hfield : (writeFields addr)[fid]? with
  | none =>
    rw [fwrAnswer_of_no_field haddr hfield]
    nofun
  | some f =>
    obtain ⟨lo, hi, ro⟩ := f
    cases ro with
    | true => exact absurd (eq_of_writeFields_marked haddr hfield) h
    | false =>
      rw [fwrAnswer_of_unmarked haddr hfield]
      exact insertResponse_status base v lo hi

/-- RENC of a bundle with its flag bits clear passes both gates (R147). -/
theorem rencAnswer_status {addr : Addr} {v : Word} (haddr : addr ∈ writableAddrs) (h : ¬ (addr = 0x01 ∧ v &&& 0x01E0#16 ≠ 0))
    (policy : RoFieldPolicy) : (rencAnswer policy addr v).status ≠ .accessViolation := by
  simp only [writableAddrs, List.mem_cons, List.not_mem_nil, or_false] at haddr
  rcases haddr with rfl | hlimit
  · have hflags : extractField v 5 8 = 0 := flags_eq_zero_iff.mp (by simpa using h)
    rw [rencAnswer_of_flags_clear hflags]
    exact cfgvAnswer_status v
  · rw [rencAnswer_limit hlimit]
    split <;> nofun

theorem rencAnswer_not_writable {addr : Addr} (haddr : addr ∉ writableAddrs) (policy : RoFieldPolicy) (v : Word) :
    rencAnswer policy addr v = if addr ∈ readOnlyAddrs then violation else refused := by
  split_ifs with hro
  · exact if_pos hro
  · exact rencAnswer_of_unmapped (fun hmapped => hro (mem_readOnlyAddrs_iff.mpr ⟨hmapped, haddr⟩)) policy v

theorem fwrAnswer_not_writable {addr : Addr} (haddr : addr ∉ writableAddrs) (policy : RoFieldPolicy) (fid : Nat) (base v : Word) :
    fwrAnswer policy fid addr base v = if addr ∈ readOnlyAddrs then violation else refused := by
  unfold fwrAnswer
  rw [if_neg haddr]

/-- Each write of an address that is not writable is answered alike, whatever the payload (R145). -/
theorem exec_write_not_writable {addr : Addr} (haddr : addr ∉ writableAddrs) {fid : Nat} {x y : Word} {i : Instr}
    (hi : i ∈ [Instr.renc addr x, .fwr fid addr x y, .rwr addr x]) (s : State) :
    exec i s = .next (s.respond (if addr ∈ readOnlyAddrs then violation else refused)) := by
  simp only [List.mem_cons, List.not_mem_nil, or_false] at hi
  rcases hi with rfl | rfl | rfl
  · rw [exec_renc, rencAnswer_not_writable haddr]
  · rw [exec_fwr, fwrAnswer_not_writable haddr]
  · rw [exec_rwr_not_writable haddr, respond_eq_extend]

/-- RENC of the zero bundle passes every gate (R145). -/
theorem exists_rencAnswer_zero {addr : Addr} (haddr : addr ∈ writableAddrs) (policy : RoFieldPolicy) :
    ∃ r, rencAnswer policy addr 0 = ⟨.ok, r⟩ := by
  simp only [writableAddrs, List.mem_cons, List.not_mem_nil, or_false] at haddr
  rcases haddr with rfl | rfl | rfl <;> exact ⟨_, rfl⟩

/-- FWR of zero to field 0 passes every gate (R145). -/
theorem exists_fwrAnswer_zero {addr : Addr} (haddr : addr ∈ writableAddrs) (policy : RoFieldPolicy) :
    ∃ r, fwrAnswer policy 0 addr 0 0 = ⟨.ok, r⟩ := by
  simp only [writableAddrs, List.mem_cons, List.not_mem_nil, or_false] at haddr
  rcases haddr with rfl | rfl | rfl <;> exact ⟨_, rfl⟩

/-- A write command with a must-be-zero bit set is refused (R73). -/
theorem step_of_writeCommandWithSetBit {s : State} {w : Command} {rest : List Command} (hprogram : s.program = w :: rest)
    (h : WriteCommandWithSetBit w) : step s = .next { s with program := rest, responses := s.responses ++ [refused] } := by
  have hrenc := readsCommand_of_mem_formats (f := formats[12]) (List.getElem_mem _) addrAndWord_mustBeZero_iff
  have hfwr := readsCommand_of_mem_formats (f := formats[13]) (List.getElem_mem _) fwr_mustBeZero_iff
  have hrwr := readsCommand_of_mem_formats (f := formats[15]) (List.getElem_mem _) addrAndWord_mustBeZero_iff
  rcases h with ⟨hop, hset⟩ | ⟨hop, hset⟩
  · simp only [List.mem_cons, List.not_mem_nil, or_false] at hop
    rcases hop with hop | hop
    · exact (hrenc s w rest hprogram hop).1 hset
    · exact (hrwr s w rest hprogram hop).1 hset
  · exact (hfwr s w rest hprogram hop).1 hset

end Sys2Proof.Machine

open Sys2Proof Sys2Proof.Machine Sys2Proof.Claims

/-- Settles O40: RDEC's bundle is a fixed point of RDEC and, its flags dropped, RENC's raw value; a limit register's raw value is
TO_RAW's; and FWR is FINS of a field apart from the flags. -/
theorem registerMapLaws : Obligations.RegisterMapLaws := by
  refine ⟨fun c raw => ⟨decodedCfg raw, gives_rdec_cfg raw c, ?_⟩, fun x raw v w hv hw => ?_, fun addr policy v haddr hexp => ?_,
    fun fid addr base v lo hi s haddr hfield => exec_fwr_eq_exec_fins haddr hfield base v s, fun c fid base v x hx => ?_⟩
  · have hagain := gives_rdec_cfg (decodedCfg raw) c
    rwa [decodedCfg_decodedCfg] at hagain
  · obtain rfl := gives_okNat_unique (gives_rdec_cfg raw _) hv
    rw [hw, ← flagsDropped_decodedCfg, ← rencAnswer_reject_decodedCfg, ← rencAnswer_ignore_decodedCfg]
    exact ⟨gives_renc _ _ _, gives_renc _ _ _⟩
  · obtain ⟨raw, hrenc, hplain, hinverted⟩ := exists_raw_of_limit haddr hexp
    refine ⟨raw, fun x => ?_, ?_, ?_⟩
    · exact hrenc policy ▸ gives_renc addr v ⟨x, policy⟩
    · exact hplain ▸ gives_rdec addr raw ⟨.plain, policy⟩
    · exact hinverted ▸ gives_rdec addr raw ⟨.inverted, policy⟩
  · exact flags_eq_iff.mpr (flags_of_fwrAnswer (gives_unique (gives_fwr fid 0x01 base v c) hx))

/-- Settles O41: the register gate comes before the payload is looked at, and only writes have it. -/
theorem readOnlyRegistersRejectEveryWrite : Obligations.ReadOnlyRegistersRejectEveryWrite := by
  refine ⟨fun addr s fid x y i haddr hi => ?_, fun addr s haddr hreply => ?_, fun addr c haddr => ⟨?_, ?_⟩,
    fun addr raw s t p i haddr hi hexec hp => ?_, fun addr s fid x y i haddr hi => ?_,
    fun s w rest hprogram hset => step_of_writeCommandWithSetBit hprogram hset⟩
  · have hexec := exec_write_not_writable (mem_readOnlyAddrs_iff.mp haddr).2 hi s
    rwa [if_pos haddr] at hexec
  · cases hr : s.nextReply with
    | silent => exact absurd hr hreply
    | answers v a =>
      refine ⟨_, execRwr_of_answers ((writable_iff addr).mpr haddr) hr, ?_⟩
      simp
  · obtain ⟨r, hr⟩ := exists_rencAnswer_zero haddr c.roFieldPolicy
    exact ⟨r, hr ▸ gives_renc addr 0 c⟩
  · obtain ⟨r, hr⟩ := exists_fwrAnswer_zero haddr c.roFieldPolicy
    exact ⟨r, hr ▸ gives_fwr 0 addr 0 0 c⟩
  · simp only [List.mem_cons, List.not_mem_nil, or_false] at hi
    rcases hi with rfl | rfl
    · obtain rfl := response_of_exec (exec_rdec addr raw s) hexec hp
      rcases rdecAnswer_status haddr s.config.expXorDec raw with hok | hinvalid
      · simp [hok]
      · simp [hinvalid]
    · simp [response_of_rrd_mapped haddr hexec hp]
  · have hexec := exec_write_not_writable (fun h => haddr (mem_mappedAddrs_of_mem_writableAddrs h)) hi s
    rwa [if_neg fun h => haddr (mem_readOnlyAddrs_iff.mp h).1] at hexec

/-- Settles O42: field ids 4 to 7 of Configuration are the fields marked RO and bits 5 to 8 are their bits; no other field or
bundle meets the field gate, and RWR and FINS have none. -/
theorem readOnlyFieldsFollowThePolicy : Obligations.ReadOnlyFieldsFollowThePolicy := by
  refine ⟨fun fid base v s h4 h7 => ?_, fun v s hv hpolicy => ?_, fun v s hpolicy => ?_,
    fun addr fid x v s t p i haddr hi hexec hp => ?_, fun v s t hexec => ?_, fun raw c => ⟨insertField raw 0xF 5 8, ?_, ?_⟩⟩
  · rw [exec_fwr, fwrAnswer_of_marked (by decide) (writeFields_marked h4 h7)]
    rfl
  · rw [exec_renc, hpolicy, rencAnswer_reject (flags_eq_zero_iff.not.mp hv)]
    rfl
  · have hdropped : v &&& ~~~ 0x01E0#16 = insertField v 0 5 8 := and_not_fieldMask v 5 8
    rw [exec_renc, exec_renc, hpolicy, rencAnswer_ignore, rencAnswer_ignore, hdropped,
      insertField_zero_of_flags_clear (flags_insertField_zero v)]
  · rcases hi with ⟨rfl, hfield⟩ | ⟨rfl, hbundle⟩
    · obtain rfl := response_of_exec (exec_fwr fid addr x v s) hexec hp
      exact fwrAnswer_status haddr hfield _ x v
    · obtain rfl := response_of_exec (exec_renc addr v s) hexec hp
      exact rencAnswer_status haddr hbundle _
  · have hrwr : execRwr 0x01 v s = .next t := hexec
    rcases execRwr_next hrwr with ⟨hnone, -⟩ | ⟨-, hgated, -⟩ | ⟨_, a, -, -, rfl⟩
    · cases hnone
    · cases hgated
    · exact ⟨a, by simp⟩
  · exact gives_fins (by decide) (by decide) raw c
  · have hflags := extractField_insertField_same (raw := raw) (v := 0xF) (lo := 5) (hi := 8) (by decide) (by decide) (by decide)
    exact (flags_eq_iff (w := 0x01E0#16)).mpr hflags

end

section
/-! PROOF. The bus family (43_bus.md): RRD and RWR are one answered transaction once their checks are passed (R160, R161), and no
other command makes any (R162). -/

namespace Sys2Proof.Machine

open Claims

/-! ### RRD and RWR -/

/-- Using up a reply, recording the transaction and answering it is one transaction (R58). -/
theorem transacts_respond (s : State) (e : BusEvent) (p : Response) :
    Transacts s e p (.next ((s.afterReply.logBus e).respond p)) :=
  ⟨_, rfl, by simp⟩

/-- RRD of a mapped register, answered (R160). -/
theorem transacts_rrd {addr : Addr} {s : State} {v : Word} {a : WriteAnswer} (haddr : addr ∈ mappedAddrs)
    (hreply : s.nextReply = .answers v a) : Transacts s (.read addr v) (okNat v.toNat) (exec (.rrd addr) s) := by
  rw [exec, execRrd_of_answers (mapped_iff.mpr haddr) hreply, okWord_eq_okNat]
  exact transacts_respond s _ _

/-- RWR of a writable register, answered (R161). -/
theorem transacts_rwr {addr : Addr} {value v : Word} {s : State} {a : WriteAnswer} (haddr : addr ∈ writableAddrs)
    (hreply : s.nextReply = .answers v a) :
    Transacts s (.write addr value a) (writeAnswerResponse a) (exec (.rwr addr value) s) := by
  rw [exec, execRwr_of_answers ((writable_iff addr).mpr haddr) hreply, writeResponse_eq]
  exact transacts_respond s _ _

/-! ### The transactions of a command -/

/-- The transactions an instruction may make (R162). -/
inductive MayTransact : Instr → BusEvent → Prop
  | read {addr : Addr} (v : Word) : addr ∈ mappedAddrs → MayTransact (.rrd addr) (.read addr v)
  | write {addr : Addr} (v : Word) (a : WriteAnswer) : addr ∈ writableAddrs → MayTransact (.rwr addr v) (.write addr v a)

/-- An instruction makes no transaction, or one that it may make. -/
theorem exec_next_mayTransact {i : Instr} {s t : State} (h : exec i s = .next t) :
    t.busLog = s.busLog ∨ ∃ e, MayTransact i e ∧ t.busLog = s.busLog ++ [e] := by
  cases i with
  | rrd addr =>
    rcases execRrd_next h with ⟨-, rfl⟩ | ⟨v, a, hmapped, -, rfl⟩
    · exact .inl rfl
    · exact .inr ⟨.read addr v, .read v (mapped_iff.mp hmapped), by simp⟩
  | rwr addr value =>
    rcases execRwr_next h with ⟨-, rfl⟩ | ⟨-, -, rfl⟩ | ⟨v, a, hwritable, -, rfl⟩
    · exact .inl rfl
    · exact .inl rfl
    · exact .inr ⟨.write addr value a, .write value a ((writable_iff addr).mp hwritable), by simp⟩
  | _ =>
    obtain rfl := Host.Outcome.next.inj h
    exact .inl rfl

/-- So does a command word, of the instruction it decodes to; a word that is no operation makes none (R73). -/
theorem runCommand_next_mayTransact {w : Command} {s t : State} (h : runCommand w s = .next t) :
    t.busLog = s.busLog ∨ ∃ i e, decode w = .ok i ∧ MayTransact i e ∧ t.busLog = s.busLog ++ [e] := by
  cases hw : decode w with
  | error err =>
    obtain rfl := Host.Outcome.next.inj ((runCommand_of_error hw s).symm.trans h)
    exact .inl rfl
  | ok i =>
    rw [runCommand_of_decode hw] at h
    exact (exec_next_mayTransact h).imp_right fun ⟨e, hmay, hlog⟩ => ⟨i, e, rfl, hmay, hlog⟩

end Sys2Proof.Machine

open Sys2Proof Sys2Proof.Machine Sys2Proof.Claims

/-- Settles O15: a mapped address is read in one answered transaction, any other is refused before the bus is used. -/
theorem readRegisterForwardsTheEnvironmentsAnswer : Obligations.ReadRegisterForwardsTheEnvironmentsAnswer := by
  refine ⟨fun addr s v a haddr hreply => transacts_rrd haddr hreply, fun addr s haddr => ?_, ?_⟩
  · rw [exec_rrd_unmapped haddr, ← respond_eq_extend]
    rfl
  · simp only [← operandAddr_eq]
    exact readsCommand_of_mem_formats (f := formats[14]) (List.getElem_mem _) addr_mustBeZero_iff

/-- Settles O16: a writable register is written in one answered transaction, and the gate answers any other address alone. -/
theorem writeRegisterForwardsTheWholeValueOnceGated : Obligations.WriteRegisterForwardsTheWholeValueOnceGated := by
  refine ⟨fun addr value s v haddr hreply => transacts_rwr haddr hreply, fun addr value s v haddr hreply => transacts_rwr haddr hreply,
    fun addr value s haddr => ?_, fun addr value s haddr => ?_, ?_⟩
  · rw [exec_rwr_not_writable (mem_readOnlyAddrs_iff.mp haddr).2, ← respond_eq_extend, if_pos haddr]
    rfl
  · rw [exec_rwr_not_writable fun h => haddr (mem_mappedAddrs_of_mem_writableAddrs h), ← respond_eq_extend,
      if_neg fun h => haddr (mem_readOnlyAddrs_iff.mp h).1]
    rfl
  · simp only [← operandAddr_eq]
    exact readsCommand_of_mem_formats (f := formats[15]) (List.getElem_mem _) addrAndWord_mustBeZero_iff

/-- Settles O50: an idle step makes no transaction, and a command only one that its instruction may make. -/
theorem busPortDiscipline : Obligations.BusPortDiscipline := by
  intro s t h
  cases hprogram : s.program with
  | nil =>
    obtain rfl := Host.Outcome.next.inj ((step_of_program_nil hprogram).symm.trans h)
    exact .inl rfl
  | cons w rest =>
    rw [step_of_head?_eq_some (by rw [hprogram]; rfl)] at h
    rcases runCommand_next_mayTransact h with hlog | ⟨i, e, hdecode, hmay, hlog⟩
    · exact .inl hlog
    · refine .inr ⟨w, rest, ?_⟩
      cases hmay with
      | read v haddr => exact ⟨_, rfl, .inl ⟨v, hdecode, haddr, hlog⟩⟩
      | write v a haddr => exact ⟨_, rfl, .inr ⟨v, a, hdecode, haddr, hlog⟩⟩

end

section
/-! PROOF. Statuses and errors (60_exceptions.md R175 to R177): a command's status is that of the first of its checks that fails,
each operation has the statuses of its checks, and a command that fails a check leaves the environment alone. -/

namespace Sys2Proof.Machine

open Claims

/-! ### The first failing check of a list -/

/-- The status of the first check that fails, OK when none does (R176). -/
def firstFailing : List (Bool × Status) → Status
  | [] => .ok
  | (fails, status) :: cs => if fails then status else firstFailing cs

@[simp] theorem firstFailing_nil : firstFailing [] = .ok := rfl

@[simp] theorem firstFailing_cons (fails : Bool) (status : Status) (cs : List (Bool × Status)) :
    firstFailing ((fails, status) :: cs) = if fails then status else firstFailing cs := rfl

theorem firstFailure_eq (i : Instr) (s : State) : firstFailure i s = firstFailing (checks i s) := by
  unfold firstFailure
  induction checks i s with
  | nil => rfl
  | cons c cs ih =>
    obtain ⟨fails, status⟩ := c
    cases fails with
    | true => rfl
    | false => exact ih

/-- Whichever check fails first, the status is OK or one that some check gives. -/
theorem firstFailing_mem (cs : List (Bool × Status)) : firstFailing cs ∈ Status.ok :: cs.map Prod.snd := by
  induction cs with
  | nil => exact List.mem_singleton_self _
  | cons c cs ih =>
    obtain ⟨fails, status⟩ := c
    cases fails with
    | true => simp
    | false =>
      rw [List.map_cons, List.mem_cons, List.mem_cons]
      exact (List.mem_cons.mp ih).imp_right .inr

/-! ### The status of each answer -/

@[simp] theorem okNat_status (n : Nat) : (okNat n).status = .ok := rfl
@[simp] theorem refused_status : refused.status = .refused := rfl
@[simp] theorem invalid_status : invalid.status = .invalidField := rfl
@[simp] theorem violation_status : violation.status = .accessViolation := rfl

/-- A condition turned round: answers say when an operand is in range, checks when it is not. -/
theorem ite_le_eq_ite_lt {α : Type} (m n : Nat) (a b : α) : (if m ≤ n then a else b) = if n < m then b else a := by
  simp only [← Nat.not_lt, ite_not]

section
variable (s : State)

theorem measurementResponse_status (e f : Word) (result : LightMeasurement → Result) :
    (measurementResponse (LightMeasurement.construct e f) result).status = if valid e f then .ok else .invalidField := by
  split_ifs with h
  · obtain ⟨r, hr⟩ := measurementResponse_of_valid h result
    rw [hr]
  · rw [measurementResponse_of_not_valid h, invalid_status]

theorem firstFailure_pairOperation {e f : Word} {i : Instr} (hi : i ∈ [Instr.construct e f, .toRaw e f, .centilux e f, .lux e f]) :
    firstFailure i s = if valid e f then .ok else .invalidField := by
  have hchecks : checks i s = [(decide (¬ valid e f), .invalidField)] := by
    simp only [List.mem_cons, List.not_mem_nil, or_false] at hi
    rcases hi with rfl | rfl | rfl | rfl <;> rfl
  rw [firstFailure_eq, hchecks, ← ite_not]
  simp only [firstFailing_cons, firstFailing_nil, decide_eq_true_eq]

theorem fromRawAnswer_status_eq (x : ExpXorDec) (raw : Word) :
    (fromRawAnswer x raw).status = if decodedExponent x raw > 11 then .invalidField else .ok := by
  simp [fromRawAnswer, apply_ite Response.status, ite_le_eq_ite_lt]

theorem fromRaw_status (raw : Word) : (fromRawAnswer s.config.expXorDec raw).status = firstFailure (.fromRaw raw) s := by
  rw [fromRawAnswer_status_eq, firstFailure_eq]
  simp [checks]

theorem fext_status (raw : Word) (lo hi : Nat) : (extractResponse raw lo hi).status = firstFailure (.fext raw lo hi) s := by
  simp [extractResponse_eq, apply_ite Response.status, firstFailure_eq, checks]

theorem insertResponse_status_eq (raw v : Word) (lo hi : Nat) :
    (insertResponse raw v lo hi).status = if v.toNat > 2 ^ (hi - lo + 1) - 1 then .refused else .ok := by
  rw [insertResponse_eq, apply_ite Response.status, refused_status, okNat_status]

theorem fins_status (raw v : Word) (lo hi : Nat) :
    (if hi < lo then Response.refuse else insertResponse raw v lo hi).status = firstFailure (.fins raw v lo hi) s := by
  rw [apply_ite Response.status, insertResponse_status_eq, firstFailure_eq]
  simp [checks, Response.refuse]

theorem edec_status (fid : Nat) (p : Word) :
    (Response.okOrRefuse (enumDecode fid p)).status = firstFailure (.edec fid p) s := by
  rw [okOrRefuse_enumDecode_eq, firstFailure_eq]
  by_cases h0 : fid = 0
  · subst h0
    simp [edecAnswer, checks, apply_ite Response.status, ite_le_eq_ite_lt]
  by_cases h8 : fid = 8
  · subst h8
    by_cases hlisted : p.toNat ≤ 1
    · simp [edecAnswer, checks, hlisted, show ¬ 3 < p.toNat by omega]
    · simp [edecAnswer, checks, hlisted, apply_ite Response.status, ite_le_eq_ite_lt]
  by_cases h9 : fid = 9
  · subst h9
    simp [edecAnswer, checks, apply_ite Response.status, ite_le_eq_ite_lt]
  · simp [edecAnswer, checks, h0, h8, h9]

theorem eenc_status (fid : Nat) (k : Word) :
    (Response.okOrRefuse (enumEncode fid k)).status = firstFailure (.eenc fid k) s := by
  rw [okOrRefuse_enumEncode_eq, firstFailure_eq]
  by_cases h0 : fid = 0
  · subst h0
    simp [eencAnswer, checks, apply_ite Response.status, ite_le_eq_ite_lt]
  by_cases h8 : fid = 8
  · subst h8
    simp [eencAnswer, checks, apply_ite Response.status, ite_le_eq_ite_lt]
  by_cases h9 : fid = 9
  · subst h9
    simp [eencAnswer, checks, apply_ite Response.status, ite_le_eq_ite_lt]
  · simp [eencAnswer, checks, h0, h8, h9]

theorem rdesc_status (addr : Addr) : (rdescAnswer addr).status = firstFailure (.rdesc addr) s := by
  rw [firstFailure_eq]
  revert addr
  simp only [checks]
  decide

theorem fdesc_status (fid : Nat) (addr : Addr) : (fdescAnswer fid addr).status = firstFailure (.fdesc fid addr) s := by
  rw [firstFailure_eq, fdescAnswer]
  by_cases hmapped : addr ∈ mappedAddrs
  · by_cases hfid : fid < (fieldWords addr).length
    · simp [checks, hmapped, hfid]
    · simp [checks, hmapped, Nat.not_lt.mp hfid]
  · simp [checks, hmapped, fieldWords_of_unmapped]

theorem rdecAnswer_of_unmapped {addr : Addr} (h : addr ∉ mappedAddrs) (x : ExpXorDec) (raw : Word) :
    rdecAnswer x addr raw = refused :=
  (decodeRegisterResponse_eq ⟨x, .reject⟩ addr raw).symm.trans (onRegister_of_unmapped h _)

theorem rdec_status (addr : Addr) (raw : Word) :
    (rdecAnswer s.config.expXorDec addr raw).status = firstFailure (.rdec addr raw) s := by
  rw [firstFailure_eq]
  by_cases hmapped : addr ∈ mappedAddrs
  · simp only [mappedAddrs, List.mem_cons, List.not_mem_nil, or_false] at hmapped
    rcases hmapped with rfl | rfl | rfl | rfl | rfl | rfl <;>
      simp [rdecAnswer, checks, mappedAddrs, fromRawAnswer_status_eq]
  · simp [rdecAnswer_of_unmapped hmapped, checks, hmapped]

/-! ### The two gates of a write (R176 (3), (4)) -/

/-- A write of a register that is not writable fails one of the first two checks; any other passes both. -/
theorem firstFailing_gates (addr : Addr) (cs : List (Bool × Status)) :
    firstFailing ((decide (addr ∉ mappedAddrs), .refused) :: (decide (addr ∈ readOnlyAddrs), .accessViolation) :: cs) =
      if addr ∈ writableAddrs then firstFailing cs else if addr ∈ readOnlyAddrs then .accessViolation else .refused := by
  by_cases hwritable : addr ∈ writableAddrs
  · simp [hwritable, mem_mappedAddrs_of_mem_writableAddrs, mem_readOnlyAddrs_iff]
  · by_cases hmapped : addr ∈ mappedAddrs <;> simp [hwritable, hmapped, mem_readOnlyAddrs_iff]

/-- The checks of a write that come after the gates decide where the register is writable. -/
theorem firstFailure_of_gates {i : Instr} {addr : Addr} {cs : List (Bool × Status)}
    (h : checks i s = (decide (addr ∉ mappedAddrs), .refused) :: (decide (addr ∈ readOnlyAddrs), .accessViolation) :: cs) :
    firstFailure i s =
      if addr ∈ writableAddrs then firstFailing cs else if addr ∈ readOnlyAddrs then .accessViolation else .refused := by
  rw [firstFailure_eq, h, firstFailing_gates]

theorem notWritable_status {addr : Addr} (haddr : addr ∉ writableAddrs) {fid : Nat} {x y : Word} {i : Instr}
    (hi : i ∈ [Instr.renc addr x, .fwr fid addr x y, .rwr addr x]) :
    (if addr ∈ readOnlyAddrs then violation else refused).status = firstFailure i s := by
  rw [apply_ite Response.status, violation_status, refused_status]
  simp only [List.mem_cons, List.not_mem_nil, or_false] at hi
  rcases hi with rfl | rfl | rfl <;> exact ((firstFailure_of_gates s rfl).trans (if_neg haddr)).symm

theorem cfgvAnswer_status_eq (v : Word) : (cfgvAnswer v).status = if extractField v 9 10 = 3 then .refused else .ok := by
  rw [cfgvAnswer, apply_ite Response.status, refused_status, okNat_status]
  simp only [mode_eq_three_iff]

/-- RENC's checks at Configuration, by the fields of the bundle. -/
theorem firstFailure_renc_cfg (v : Word) :
    firstFailure (.renc 0x01 v) s =
      if s.config.roFieldPolicy = .reject ∧ extractField v 5 8 ≠ 0 then .accessViolation
      else if extractField v 9 10 = 3 then .refused else .ok := by
  rw [firstFailure_of_gates s rfl, if_pos (by decide)]
  simp only [Ne, ← flags_div_eq_zero_iff, mode_eq_three_iff]
  simp

theorem renc_cfg_status (v : Word) :
    (rencAnswer s.config.roFieldPolicy 0x01 v).status = firstFailure (.renc 0x01 v) s := by
  rw [firstFailure_renc_cfg]
  cases s.config.roFieldPolicy with
  | ignore =>
    rw [rencAnswer_ignore, cfgvAnswer_status_eq, mode_insertField_flags]
    exact (if_neg fun h => nomatch h.1).symm
  | reject =>
    by_cases hflags : extractField v 5 8 = 0
    · rw [rencAnswer_of_flags_clear hflags, cfgvAnswer_status_eq]
      exact (if_neg fun h => h.2 hflags).symm
    · rw [rencAnswer_reject hflags, if_pos ⟨rfl, hflags⟩, violation_status]

theorem renc_limit_status {addr : Addr} (haddr : addr = 0x02 ∨ addr = 0x03) (v : Word) :
    (rencAnswer s.config.roFieldPolicy addr v).status = firstFailure (.renc addr v) s := by
  rw [rencAnswer_limit haddr, firstFailure_of_gates s rfl]
  rcases haddr with rfl | rfl <;> simp [writableAddrs, apply_ite Response.status, ite_le_eq_ite_lt]

theorem renc_status (addr : Addr) (v : Word) :
    (rencAnswer s.config.roFieldPolicy addr v).status = firstFailure (.renc addr v) s := by
  by_cases haddr : addr ∈ writableAddrs
  · simp only [writableAddrs, List.mem_cons, List.not_mem_nil, or_false] at haddr
    rcases haddr with rfl | hlimit
    · exact renc_cfg_status s v
    · exact renc_limit_status s hlimit v
  · rw [rencAnswer_not_writable haddr]
    exact notWritable_status s haddr (fid := 0) (x := v) (y := 0) (by simp)

theorem fwr_status (fid : Nat) (addr : Addr) (base v : Word) :
    (fwrAnswer s.config.roFieldPolicy fid addr base v).status = firstFailure (.fwr fid addr base v) s := by
  by_cases haddr : addr ∈ writableAddrs
  · rw [firstFailure_of_gates s rfl, if_pos haddr]
    cases hfield : (writeFields addr)[fid]? with
    | none => simp [fwrAnswer_of_no_field haddr hfield]
    | some f =>
      obtain ⟨lo, hi, marked⟩ := f
      cases marked with
      | true =>
        rw [fwrAnswer_of_marked haddr hfield]
        cases s.config.roFieldPolicy <;> simp
      | false =>
        rw [fwrAnswer_of_unmarked haddr hfield, insertResponse_status_eq]
        simp
  · rw [fwrAnswer_not_writable haddr]
    exact notWritable_status s haddr (fid := fid) (x := base) (y := v) (by simp)

theorem rrd_status {addr : Addr} {t : State} {p : Response} (h : exec (.rrd addr) s = .next t)
    (hp : t.responses = s.responses ++ [p]) : p.status = firstFailure (.rrd addr) s := by
  rw [firstFailure_eq]
  by_cases haddr : addr ∈ mappedAddrs
  · simp [response_of_rrd_mapped haddr h hp, checks, haddr]
  · obtain rfl := response_of_exec ((exec_rrd_unmapped haddr s).trans (by rw [respond_eq_extend])) h hp
    simp [checks, haddr]

theorem rwr_status {addr : Addr} {v : Word} {t : State} {p : Response} (h : exec (.rwr addr v) s = .next t)
    (hp : t.responses = s.responses ++ [p]) : p.status = firstFailure (.rwr addr v) s := by
  by_cases haddr : addr ∈ writableAddrs
  · have hwritable : writable addr = true := (writable_iff addr).mpr haddr
    rcases execRwr_next h with ⟨hnone, -⟩ | ⟨-, hgated, -⟩ | ⟨w, a, -, hreply, rfl⟩
    · simp [writable, hnone] at hwritable
    · simp [hwritable] at hgated
    · obtain rfl : writeResponse a = p := by simpa using hp
      rw [firstFailure_of_gates s rfl, if_pos haddr, hreply]
      cases a <;> rfl
  · obtain rfl := response_of_exec (exec_write_not_writable haddr (fid := 0) (x := v) (y := 0) (by simp) s) h hp
    exact notWritable_status s haddr (fid := 0) (x := v) (y := 0) (by simp)

end

/-! ### What a step answers -/

/-- A response that an operation gives alone is the one its outcome adds. -/
theorem status_of_respond {i : Instr} {s t : State} {p q : Response} (h : exec i s = .next t) (hp : t.responses = s.responses ++ [p])
    (hexec : exec i s = .next (s.respond q)) (hq : q.status = firstFailure i s) : p.status = firstFailure i s := by
  obtain rfl := response_of_exec hexec h hp
  exact hq

theorem pairOperation_status {e f : Word} {i : Instr} (hi : i ∈ [Instr.construct e f, .toRaw e f, .centilux e f, .lux e f])
    {s t : State} {p : Response} (h : exec i s = .next t) (hp : t.responses = s.responses ++ [p]) :
    p.status = firstFailure i s := by
  obtain ⟨result, hexec⟩ := exec_pairOperation hi
  refine status_of_respond h hp (hexec s) ?_
  rw [measurementResponse_status, firstFailure_pairOperation s hi]

/-- The status of an answered instruction is that of its first failing check (R176). -/
theorem exec_next_status {i : Instr} {s t : State} {p : Response} (h : exec i s = .next t) (hp : t.responses = s.responses ++ [p]) :
    p.status = firstFailure i s := by
  cases i with
  | construct e f => exact pairOperation_status (e := e) (f := f) (by simp) h hp
  | toRaw e f => exact pairOperation_status (e := e) (f := f) (by simp) h hp
  | centilux e f => exact pairOperation_status (e := e) (f := f) (by simp) h hp
  | lux e f => exact pairOperation_status (e := e) (f := f) (by simp) h hp
  | fromRaw raw => exact status_of_respond h hp (exec_fromRaw raw s) (fromRaw_status s raw)
  | fext raw lo hi => exact status_of_respond h hp (exec_fext raw lo hi s) (fext_status s raw lo hi)
  | fins raw v lo hi => exact status_of_respond h hp rfl (fins_status s raw v lo hi)
  | edec fid pattern => exact status_of_respond h hp (exec_edec fid pattern s) (edec_status s fid pattern)
  | eenc fid variant => exact status_of_respond h hp (exec_eenc fid variant s) (eenc_status s fid variant)
  | rdesc addr => exact status_of_respond h hp (exec_rdesc addr s) (rdesc_status s addr)
  | fdesc fid addr => exact status_of_respond h hp (exec_fdesc fid addr s) (fdesc_status s fid addr)
  | rdec addr raw => exact status_of_respond h hp (exec_rdec addr raw s) (rdec_status s addr raw)
  | renc addr v => exact status_of_respond h hp (exec_renc addr v s) (renc_status s addr v)
  | fwr fid addr base v => exact status_of_respond h hp (exec_fwr fid addr base v s) (fwr_status s fid addr base v)
  | rrd addr => exact rrd_status s h hp
  | rwr addr v => exact rwr_status s h hp

/-- The checks look at the operands, the parameters and the reply to come, not at the host's commands. -/
@[simp] theorem firstFailure_issued (i : Instr) (s : State) : firstFailure i s.issued = firstFailure i s := by
  cases i <;> rfl

/-- A step that issues a command and gives a next state gives one response, which carries 0 unless it is OK: REFUSED for a word
that does not decode, else the status of the first failing check. -/
theorem step_next_response {s t : State} {w : Command} {rest : List Command} (hprogram : s.program = w :: rest)
    (h : step s = .next t) :
    ∃ p, t.responses = s.responses ++ [p] ∧ p.wf = true ∧
      ((∃ err, decode w = .error err ∧ p.status = .refused) ∨ ∃ i, decode w = .ok i ∧ p.status = firstFailure i s) := by
  rw [step_of_head?_eq_some (by rw [hprogram]; rfl)] at h
  cases hw : decode w with
  | error err =>
    obtain rfl := Host.Outcome.next.inj ((runCommand_of_error hw _).symm.trans h)
    exact ⟨.refuse, rfl, refuse_wf, .inl ⟨err, rfl, rfl⟩⟩
  | ok i =>
    rw [runCommand_of_decode hw] at h
    obtain ⟨p, hp, hwf⟩ := exec_next_responses h
    exact ⟨p, hp, hwf, .inr ⟨i, rfl, (exec_next_status h hp).trans (firstFailure_issued i s)⟩⟩

/-! ### The statuses of an opcode (R175) -/

theorem refused_mem_statusTable (op : BitVec 8) : Status.refused ∈ statusTable op := by
  unfold statusTable
  split_ifs <;> decide

/-- OK and the statuses of an operation's checks are in its row. -/
theorem mem_statusTable_of_mem_checks {i : Instr} {s : State} :
    ∀ st ∈ Status.ok :: (checks i s).map Prod.snd, st ∈ statusTable (cmdOp (encode i)) := by
  cases i <;> simp [encode, checks, statusTable]

/-- So an instruction's status is in the row of the command it was decoded from. -/
theorem firstFailure_mem_statusTable {w : Command} {i : Instr} (h : decode w = .ok i) (s : State) :
    firstFailure i s ∈ statusTable (cmdOp w) := by
  obtain ⟨-, rfl⟩ := encodeOfDecodeIsTheCommand w i h
  rw [firstFailure_eq]
  exact mem_statusTable_of_mem_checks _ (firstFailing_mem (checks i s))

/-- Right after reset, in an environment that answers the first transaction, a write with `a`. -/
def State.answering (a : WriteAnswer) : State := { State.reset with script := [.answers 0 a] }

/-- Operations that meet with each status of their rows but REFUSED, each with the answer that the environment gives a write. -/
def statusWitnesses : List (WriteAnswer × Instr) :=
  [ (.ok, .construct 0 0), (.ok, .construct 12 0), (.ok, .toRaw 0 0), (.ok, .toRaw 12 0), (.ok, .fromRaw 0), (.ok, .fromRaw 0xC000),
    (.ok, .centilux 0 0), (.ok, .centilux 12 0), (.ok, .lux 0 0), (.ok, .lux 12 0),
    (.ok, .fext 0 0 0), (.ok, .fins 0 0 0 0), (.ok, .edec 0 0), (.ok, .eenc 0 0),
    (.ok, .rdesc 0x00), (.ok, .fdesc 0 0x00), (.ok, .rdec 0x00 0), (.ok, .rdec 0x00 0xC000),
    (.ok, .renc 0x02 0), (.ok, .renc 0x02 0xC000), (.ok, .renc 0x00 0), (.ok, .fwr 0 0x01 0 0), (.ok, .fwr 0 0x00 0 0),
    (.ok, .rrd 0x00), (.ok, .rwr 0x01 0), (.ok, .rwr 0x00 0), (.err, .rwr 0x01 0) ]

theorem wf_of_mem_statusWitnesses : ∀ x ∈ statusWitnesses, x.2.wf = true := by
  decide

theorem exists_statusWitness {op : BitVec 8} {st : Status} (h : st ∈ statusTable op) (hst : st ≠ .refused) :
    ∃ x ∈ statusWitnesses, cmdOp (encode x.2) = op ∧ firstFailure x.2 (State.answering x.1) = st := by
  have hall : ∀ op, ∀ st ∈ statusTable op, st ≠ .refused →
    ∃ x ∈ statusWitnesses, cmdOp (encode x.2) = op ∧ firstFailure x.2 (State.answering x.1) = st := by decide
  exact hall op st h hst

/-- An instruction gives a next state wherever the environment answers (70_reset_and_hazards.md R198). -/
theorem exists_exec_next {s : State} {v : Word} {a : WriteAnswer} (hreply : s.nextReply = .answers v a) (i : Instr) :
    ∃ t, exec i s = .next t := by
  cases i with
  | rrd addr =>
    by_cases haddr : addr ∈ mappedAddrs
    · exact ⟨_, execRrd_of_answers (mapped_iff.mpr haddr) hreply⟩
    · exact ⟨_, exec_rrd_unmapped haddr s⟩
  | rwr addr value =>
    by_cases haddr : addr ∈ writableAddrs
    · exact ⟨_, execRwr_of_answers ((writable_iff addr).mpr haddr) hreply⟩
    · exact ⟨_, exec_rwr_not_writable haddr value s⟩
  | _ => exact ⟨_, rfl⟩

/-- Every row has a must-be-zero bit, so a word with every operand bit set is no operation (R73). -/
theorem exists_decode_error_ones (op : BitVec 8) : ∃ err, decode (cmdWord op 0xFFFF 0xFFFF 0xFFFF) = .error err := by
  cases hw : decode (cmdWord op 0xFFFF 0xFFFF 0xFFFF) with
  | error err => exact ⟨err, rfl⟩
  | ok i =>
    obtain ⟨f, hf, ⟨-, ha, hb, hc⟩, -⟩ := decode_eq_ok_iff.mp hw
    have hmasked : ∀ g ∈ formats, ¬ (0xFFFF &&& g.maskA = 0 ∧ 0xFFFF &&& g.maskB = 0 ∧ 0xFFFF &&& g.maskC = 0) := by decide
    rw [cmdA_cmdWord] at ha
    rw [cmdB_cmdWord] at hb
    rw [cmdC_cmdWord] at hc
    exact absurd ⟨ha, hb, hc⟩ (hmasked f hf)

/-! ### The effect of a command that is not OK (R177) -/

/-- An instruction whose status is neither OK nor BUS_ERROR only answers. -/
theorem eq_respond_of_not_ok {i : Instr} {s t : State} {p : Response} (h : exec i s = .next t) (hp : t.responses = s.responses ++ [p])
    (hok : p.status ≠ .ok) (hbus : p.status ≠ .busError) : t = s.respond p := by
  have hanswered : ∀ q, t = s.respond q → t = s.respond p := by
    rintro q rfl
    obtain rfl : q = p := by simpa using hp
    rfl
  cases i with
  | rrd addr =>
    rcases execRrd_next h with ⟨-, ht⟩ | ⟨v, a, -, -, rfl⟩
    · exact hanswered _ ht
    · obtain rfl : Response.okWord v = p := by simpa using hp
      exact absurd rfl hok
  | rwr addr value =>
    rcases execRwr_next h with ⟨-, ht⟩ | ⟨-, -, ht⟩ | ⟨v, a, -, -, rfl⟩
    · exact hanswered _ ht
    · exact hanswered _ ht
    · obtain rfl : writeResponse a = p := by simpa using hp
      cases a with
      | ok => exact absurd rfl hok
      | err => exact absurd rfl hbus
  | _ => exact hanswered _ (Host.Outcome.next.inj h).symm

/-- So does a step: the command is taken and the response added, and nothing else changes. -/
theorem step_eq_respond_of_not_ok {s t : State} {w : Command} {rest : List Command} {p : Response} (hprogram : s.program = w :: rest)
    (h : step s = .next t) (hp : t.responses = s.responses ++ [p]) (hok : p.status ≠ .ok) (hbus : p.status ≠ .busError) :
    t = s.issued.respond p := by
  rw [step_of_head?_eq_some (by rw [hprogram]; rfl)] at h
  cases hw : decode w with
  | error err =>
    obtain rfl := Host.Outcome.next.inj ((runCommand_of_error hw _).symm.trans h)
    obtain rfl : Response.refuse = p := by simpa using hp
    rfl
  | ok i =>
    rw [runCommand_of_decode hw] at h
    exact eq_respond_of_not_ok h hp hok hbus

/-- Each status of an opcode's row is given to some command (R175). -/
theorem exists_step_status {op : BitVec 8} {st : Status} (h : st ∈ statusTable op) :
    ∃ (s t : State) (w : Command) (r : Result),
      s.program = [w] ∧ cmdOp w = op ∧ step s = .next t ∧ t.responses = s.responses ++ [⟨st, r⟩] := by
  by_cases hst : st = .refused
  · subst hst
    obtain ⟨err, herr⟩ := exists_decode_error_ones op
    exact ⟨State.reset.place (cmdWord op 0xFFFF 0xFFFF 0xFFFF), State.reset.respond .refuse, _, 0, rfl, cmdOp_cmdWord op _ _ _,
      runCommand_of_error herr State.reset, rfl⟩
  · obtain ⟨⟨a, i⟩, hmem, hop, hstatus⟩ := exists_statusWitness h hst
    obtain ⟨t, hexec⟩ := exists_exec_next (s := State.answering a) rfl i
    obtain ⟨p, hp, -⟩ := exec_next_responses hexec
    have hp_status : p.status = st := (exec_next_status hexec hp).trans hstatus
    refine ⟨(State.answering a).place (encode i), t, _, p.r, rfl, hop, ?_, hp_status ▸ hp⟩
    exact (step_place (wf_of_mem_statusWitnesses _ hmem) _).trans hexec

end Sys2Proof.Machine

open Sys2Proof Sys2Proof.Machine Sys2Proof.Claims

/-- Settles O44: a word that does not decode is refused, and an instruction's response has the status its checks give. -/
theorem firstFailingCheckGivesTheStatus : Obligations.FirstFailingCheckGivesTheStatus := by
  intro s t w rest hprogram h
  obtain ⟨p, hp, -, hstatus⟩ := step_next_response hprogram h
  refine ⟨p, hp, ?_⟩
  rcases hstatus with ⟨err, hw, hstatus⟩ | ⟨i, hw, hstatus⟩
  · rw [hw, hstatus]
  · rw [hw, hstatus]

/-- Settles O43: the status of a first failing check is in the row; REFUSED is met by a word with every operand bit set, and
each other status by an operation of the list. -/
theorem statusesOfEachOperation : Obligations.StatusesOfEachOperation := by
  refine ⟨fun s t w rest hprogram h => ?_, fun op st => exists_step_status⟩
  obtain ⟨p, hp, -, hstatus⟩ := step_next_response hprogram h
  refine ⟨p, hp, ?_⟩
  rcases hstatus with ⟨err, -, hstatus⟩ | ⟨i, hw, hstatus⟩
  · exact hstatus ▸ refused_mem_statusTable _
  · exact hstatus ▸ firstFailure_mem_statusTable hw s

/-- Settles O45: a response that is not OK is well formed, and without BUS_ERROR it is all that its command adds. -/
theorem failedCommandsHaveNoEffect : Obligations.FailedCommandsHaveNoEffect := by
  intro s t w rest p hprogram h hp hok
  refine ⟨?_, fun hbus => ?_⟩
  · obtain ⟨q, hq, hwf, -⟩ := step_next_response hprogram h
    obtain rfl : q = p := by simpa using hq.symm.trans hp
    simpa [Response.wf, hok] using hwf
  · rw [step_eq_respond_of_not_ok hprogram h hp hok hbus]
    simp [State.issued, State.respond, hprogram]

end

section
/-! PROOF. Runs and stops (70_reset_and_hazards.md): a step takes the host's next command and adds one response and at most one
transaction (R193), so a run of any length only extends the outcome (R194); and only a silent environment stops a command (R195,
R198). -/

namespace Sys2Proof.Machine

/-- A step with a command to issue runs it in the state in which it has been issued. -/
theorem step_of_program_cons {s : State} {w : Command} {rest : List Command} (h : s.program = w :: rest) :
    step s = runCommand w s.issued :=
  step_of_head?_eq_some (List.head?_eq_some_iff.mpr ⟨rest, h⟩)

/-! ### What steps and runs add to the outcome -/

/-- `t` is reached from `s` by commands that gave the responses `ps`, one each, and made the transactions `es`, at most one each
(R58, R194). -/
structure Extends (s : State) (ps : List Response) (es : List BusEvent) (t : State) : Prop where
  config : t.config = s.config
  responses : t.responses = s.responses ++ ps
  busLog : t.busLog = s.busLog ++ es
  atMostOneEach : es.length ≤ ps.length
  program : t.program = s.program.drop ps.length
  wf : ∀ p ∈ ps, p.wf = true

/-- No command extends nothing. -/
theorem Extends.refl (s : State) : Extends s [] [] s where
  config := rfl
  responses := by simp
  busLog := by simp
  atMostOneEach := Nat.le_refl _
  program := rfl
  wf := by simp

/-- Commands after commands add their outcomes in order. -/
theorem Extends.trans {s t u : State} {ps qs : List Response} {es fs : List BusEvent} (hst : Extends s ps es t)
    (htu : Extends t qs fs u) : Extends s (ps ++ qs) (es ++ fs) u where
  config := htu.config.trans hst.config
  responses := by rw [htu.responses, hst.responses, List.append_assoc]
  busLog := by rw [htu.busLog, hst.busLog, List.append_assoc]
  atMostOneEach := by simpa using Nat.add_le_add hst.atMostOneEach htu.atMostOneEach
  program := by rw [htu.program, hst.program, List.drop_drop, List.length_append]
  wf := List.forall_mem_append.mpr ⟨hst.wf, htu.wf⟩

/-- No effect changes the parameters or the host's commands. -/
theorem Effect.run_next_frame {a : Effect} {s t : State} (h : a.run s = .next t) : t.config = s.config ∧ t.program = s.program := by
  cases a with
  | stop f => cases h
  | answer p | transact e p =>
    obtain rfl := Host.Outcome.next.inj h
    simp

/-- So no command word changes them (R39). -/
theorem runCommand_next_frame {w : Command} {s t : State} (h : runCommand w s = .next t) :
    t.config = s.config ∧ t.program = s.program := by
  obtain ⟨a, ha⟩ := runCommand_effect w s.config s.nextReply
  rw [ha s rfl rfl] at h
  exact a.run_next_frame h

/-- A step with a command takes it and adds one response and at most one transaction (R193). -/
theorem step_next_extends {s t : State} {w : Command} {rest : List Command} (hprogram : s.program = w :: rest)
    (h : step s = .next t) : ∃ p es, Extends s [p] es t := by
  obtain ⟨p, hresponses, hwf, -⟩ := step_next_response hprogram h
  rw [step_of_program_cons hprogram] at h
  obtain ⟨hconfig, htail⟩ := runCommand_next_frame h
  have hbusLog : ∃ es : List BusEvent, es.length ≤ 1 ∧ t.busLog = s.busLog ++ es := by
    rcases runCommand_next_mayTransact h with hlog | ⟨-, e, -, -, hlog⟩
    · exact ⟨[], by simp, by simpa using hlog⟩
    · exact ⟨[e], by simp, hlog⟩
  obtain ⟨es, hlength, hlog⟩ := hbusLog
  exact ⟨p, es, hconfig, hresponses, hlog, hlength, htail.trans List.drop_one.symm, by simpa using hwf⟩

/-- A step takes one command where the host has one to issue, else none (log 1). -/
theorem step_next_extends_min {s t : State} (h : step s = .next t) :
    ∃ ps es, Extends s ps es t ∧ ps.length = min 1 s.program.length := by
  cases hprogram : s.program with
  | nil =>
    obtain rfl := Host.Outcome.next.inj ((step_of_program_nil hprogram).symm.trans h)
    exact ⟨[], [], Extends.refl s, rfl⟩
  | cons w rest =>
    obtain ⟨p, es, hext⟩ := step_next_extends hprogram h
    exact ⟨[p], es, hext, by simp⟩

/-- A run of more than no steps that ends in a next state has a first step, and goes on from there. -/
theorem exists_step_of_run_succ {k : Nat} {s t : State} (h : Sys2Proof.core.run (k + 1) s = .next t) :
    ∃ u, step s = .next u ∧ Sys2Proof.core.run k u = .next t := by
  cases hstep : step s with
  | next u => exact ⟨u, rfl, (run_succ_of_step hstep).symm.trans h⟩
  | fault f =>
    have hcore : Sys2Proof.core.step s = .fault f := hstep
    simp [Host.Core.run, hcore] at h
  | refused r =>
    have hcore : Sys2Proof.core.step s = .refused r := hstep
    simp [Host.Core.run, hcore] at h

/-- A run of `n` steps takes `n` commands, or all that the host has to issue. -/
theorem run_next_extends {n : Nat} {s t : State} (h : Sys2Proof.core.run n s = .next t) :
    ∃ ps es, Extends s ps es t ∧ ps.length = min n s.program.length := by
  induction n generalizing s with
  | zero =>
    obtain rfl := Host.Outcome.next.inj h
    exact ⟨[], [], Extends.refl s, (Nat.zero_min _).symm⟩
  | succ k ih =>
    obtain ⟨u, hstep, hrun⟩ := exists_step_of_run_succ h
    obtain ⟨ps, es, hsu, hps⟩ := step_next_extends_min hstep
    obtain ⟨qs, fs, hut, hqs⟩ := ih hrun
    rw [hsu.program, List.length_drop] at hqs
    exact ⟨ps ++ qs, es ++ fs, hsu.trans hut, by rw [List.length_append]; omega⟩

/-! ### What stops a command -/

/-- RRD of a mapped register is stuck in a silent environment (R195). -/
theorem execRrd_of_silent {addr : Addr} {s : State} (hmapped : mapped addr = true) (hreply : s.nextReply = .silent) :
    execRrd addr s = .fault .busSilent := by
  obtain ⟨d, hd⟩ := Option.isSome_iff_exists.mp hmapped
  simp [execRrd, hd, busRead_of_silent hreply]

/-- So is RWR of a writable register (R195). -/
theorem execRwr_of_silent {addr : Addr} {value : Word} {s : State} (hwritable : writable addr = true)
    (hreply : s.nextReply = .silent) : execRwr addr value s = .fault .busSilent := by
  obtain ⟨d, hd, haccess⟩ := writable_iff_exists.mp hwritable
  simp [execRwr, hd, haccess, busWrite_of_silent hreply]

/-- An operation that does not touch the bus gives a response and changes nothing else. -/
theorem exists_exec_eq_respond {i : Instr} (h : touchesBus i = false) (s : State) : ∃ p, exec i s = .next (s.respond p) :=
  (exec_effect_of_not_touchesBus s.config h).imp fun _ hp => hp s rfl

/-- An instruction stops only if it touches the bus, and only in a silent environment. -/
theorem exec_fault {i : Instr} {s : State} {f : Fault} (h : exec i s = .fault f) : touchesBus i = true ∧ s.nextReply = .silent := by
  constructor
  · by_contra hbus
    obtain ⟨p, hp⟩ := exists_exec_eq_respond (Bool.eq_false_of_not_eq_true hbus) s
    cases h.symm.trans hp
  · cases hreply : s.nextReply with
    | silent => rfl
    | answers v a =>
      obtain ⟨t, ht⟩ := exists_exec_next hreply i
      cases h.symm.trans ht

/-- A command word that stops is such an instruction: a word that is no operation is refused by a response (R73). -/
theorem runCommand_fault {w : Command} {s : State} {f : Fault} (h : runCommand w s = .fault f) :
    ∃ i, decode w = .ok i ∧ touchesBus i = true ∧ s.nextReply = .silent := by
  cases hw : decode w with
  | error err => cases h.symm.trans (runCommand_of_error hw s)
  | ok i =>
    rw [runCommand_of_decode hw] at h
    exact ⟨i, rfl, exec_fault h⟩

/-- The model gives every command word a meaning. -/
theorem runCommand_ne_refused (w : Command) (s : State) (r : Refusal) : runCommand w s ≠ .refused r := by
  obtain ⟨a, ha⟩ := runCommand_effect w s.config s.nextReply
  rw [ha s rfl rfl]
  cases a <;> nofun

/-- A step that stops has issued an RRD or RWR to a silent environment. -/
theorem step_fault {s : State} {f : Fault} (h : step s = .fault f) :
    ∃ w rest i, s.program = w :: rest ∧ decode w = .ok i ∧ touchesBus i = true ∧ s.nextReply = .silent := by
  cases hprogram : s.program with
  | nil => cases h.symm.trans (step_of_program_nil hprogram)
  | cons w rest =>
    rw [step_of_program_cons hprogram] at h
    obtain ⟨i, hdecode, hbus, hreply⟩ := runCommand_fault h
    exact ⟨w, rest, i, rfl, hdecode, hbus, by simpa using hreply⟩

/-- So no step is refused by the model. -/
theorem step_ne_refused (s : State) (r : Refusal) : step s ≠ .refused r := by
  cases hprogram : s.program with
  | nil =>
    rw [step_of_program_nil hprogram]
    nofun
  | cons w rest =>
    rw [step_of_program_cons hprogram]
    exact runCommand_ne_refused w s.issued r

end Sys2Proof.Machine

open Sys2Proof Sys2Proof.Machine

/-- Settles O56: by induction on the number of steps, each of which extends the outcome by one command's or is idle. -/
theorem runsOnlyExtendTheOutcome : Obligations.RunsOnlyExtendTheOutcome := by
  intro n s t h
  obtain ⟨ps, es, hext, hlength⟩ := run_next_extends h
  exact ⟨hext.config, ps, es, hext.responses, hext.busLog, hext.atMostOneEach, hext.program, hlength, hext.wf⟩

/-- Settles O46: a step that gives no next state is a fault, and a fault is an RRD's or RWR's in a silent environment. -/
theorem everyCommandIsAnsweredUnlessTheBusIsSilent : Obligations.EveryCommandIsAnsweredUnlessTheBusIsSilent := by
  refine ⟨fun i s hbus => exists_exec_eq_respond hbus s, fun s hreply => ?_, fun s f => step_fault, step_ne_refused⟩
  cases hstep : step s with
  | next t => exact ⟨t, rfl⟩
  | fault f =>
    obtain ⟨-, -, -, -, -, -, hsilent⟩ := step_fault hstep
    exact absurd hsilent hreply
  | refused r => exact absurd hstep (step_ne_refused s r)

/-- Settles O49: a step with a command extends the outcome by that command's response. -/
theorem oneResponsePerCommand : Obligations.OneResponsePerCommand := by
  intro s t w rest hprogram h
  obtain ⟨p, es, hext⟩ := step_next_extends hprogram h
  exact ⟨by simpa [hprogram] using hext.program, hext.config, p, hext.responses, hext.wf p (by simp)⟩

/-- Settles O47: the register passes the checks, and the transaction is never answered. -/
theorem silentBusLeavesTheCommandStuck : Obligations.SilentBusLeavesTheCommandStuck := fun addr _ _ hreply =>
  ⟨fun haddr => execRrd_of_silent (mapped_iff.mpr haddr) hreply,
    fun haddr => execRwr_of_silent ((writable_iff addr).mpr haddr) hreply⟩

end

section
/-! PROOF. The environment's replies (log 3): a transaction uses up the reply it is answered with, from the script while it lasts and
free from then on, and a response uses none. -/

namespace Sys2Proof.Machine

/-- Once the script is used up the next reply is a free one. -/
theorem nextReply_of_script_nil {s : State} (h : s.script = []) :
    s.nextReply = .answers (Config.freeRead s.draws) (Config.freeWrite s.draws) := by
  simp [State.nextReply, h]

/-- Using up a free reply advances the counter and nothing else. -/
theorem afterReply_of_script_nil {s : State} (h : s.script = []) : s.afterReply = { s with draws := s.draws + 1 } := by
  simp [State.afterReply, h]

/-- An instruction leaves the replies to come as they are, or makes one transaction and uses up the next of them. -/
theorem exec_next_replies {i : Instr} {s t : State} (h : exec i s = .next t) :
    (t.busLog = s.busLog ∧ t.script = s.script ∧ t.draws = s.draws) ∨
    (t.busLog ≠ s.busLog ∧ t.script = s.afterReply.script ∧ t.draws = s.afterReply.draws) := by
  rcases exec_next_cases h with ⟨p, rfl⟩ | ⟨e, p, v, a, -, -, rfl⟩
  · exact .inl ⟨rfl, rfl, rfl⟩
  · exact .inr ⟨by simp, rfl, rfl⟩

end Sys2Proof.Machine

open Sys2Proof Sys2Proof.Machine

/-- Settles O17: the script's first reply, else a free one, is next, and it is used up exactly when a transaction is recorded. -/
theorem eachReplyIsUsedOnce : Obligations.EachReplyIsUsedOnce := by
  refine ⟨fun s reply rest hscript => ⟨nextReply_of_script hscript, afterReply_of_script hscript⟩,
    fun s hscript => ⟨by simp [nextReply_of_script_nil hscript], afterReply_of_script_nil hscript⟩, fun i s t h => ?_⟩
  rcases exec_next_replies h with ⟨hlog, hreplies⟩ | ⟨hlog, hreplies⟩
  · exact ⟨fun _ => hreplies, fun hne => absurd hlog hne⟩
  · exact ⟨fun heq => absurd heq hlog, fun _ => hreplies⟩

/-- Settles O22: the command taken is the first, and running a word that decodes is executing its instruction. -/
theorem stepRunsTheDecodedCommand : Obligations.StepRunsTheDecodedCommand := by
  refine ⟨fun s w rest i hprogram hdecode => ?_, fun s hprogram => step_of_program_nil hprogram⟩
  have hissued : s.issued = { s with program := rest } := by simp [State.issued, hprogram]
  rw [step_of_program_cons hprogram, runCommand_of_decode hdecode, hissued]

/-- Settles O53: `State.reset` is the state with empty lists and the parameters `Config.spec`. -/
theorem resetHasNoOutcomeAndTheSpecsParameters : Obligations.ResetHasNoOutcomeAndTheSpecsParameters :=
  ⟨rfl, rfl, rfl, rfl⟩

/-- Settles O55: there is no response and no transaction yet to break it. -/
theorem resetMeetsTheInvariant : Obligations.ResetMeetsTheInvariant :=
  ⟨List.forall_mem_nil _, List.forall_mem_nil _, Nat.le_refl 0⟩

end
